-- ==== Sys2Proof/Word.lean ====
section
/-! DEFINITION. The widths of 00_scope.md R7, as abbreviations of BitVec. -/

namespace Sys2Proof

/-- One byte of a buffer (10_state.md R40). -/
abbrev Byte := BitVec 8

/-- A symbol: one byte value, 0..255 (00_scope.md R7, R13). -/
abbrev Symbol := BitVec 8

/-- The bus data word, and every 32-bit register (00_scope.md R7). -/
abbrev Word := BitVec 32

/-- A node index (00_scope.md R7); the arena has the indices 0..510 (10_state.md R36). -/
abbrev NodeIx := BitVec 9

/-- A node's weight, the priority key (00_scope.md R7). -/
abbrev Weight := BitVec 40

/-- A block offset, the address of a host transaction (30_encoding.md R93). -/
abbrev Offset := BitVec 26

end Sys2Proof
end

