-- ==== Sys2Proof/Config.lean ====
section
/-! DEFINITION. The OPEN parameters of 00_scope.md R6, and the model's free values: constants without a body, so
that nothing can be proved of what they are (log 1, 2, 3, 10). -/

namespace Sys2Proof

/-- HOST_BYTE_ORDER (00_scope.md R6; 92_eei_decisions.md D23). -/
inductive ByteOrder
  | little
  | big
deriving DecidableEq, Repr, Inhabited

/-- The parameters of the block (00_scope.md R6). The capacities are what the registers IN_CAP, PAY_CAP and OUT_CAP
read (10_state.md R25). -/
structure Params where
  /-- Bus address of block offset 0. -/
  base : Nat
  /-- Capacity of IN_BUF in bytes. -/
  inCap : Nat
  /-- Capacity of PAY_BUF in bytes. -/
  payCap : Nat
  /-- Capacity of OUT_BUF in bytes. -/
  outCap : Nat
  /-- Byte order of the persisted bit-count field; its default is little. -/
  hostByteOrder : ByteOrder := .little
deriving DecidableEq, Repr

/-- The largest capacity, 2^24 bytes (00_scope.md R6). -/
abbrev Params.maxCap : Nat := 16777216

/-- The size of the block's address window, 2^26 bytes (00_scope.md R6, R7). -/
abbrev Params.window : Nat := 67108864

/-- IN_CAP less one, for the block as built: an OPEN parameter in 1 .. 2^24. DESIGN CHOICE, log 1. Safe. -/
opaque Config.inCapLess1 : Fin 16777216

/-- PAY_CAP less one, for the block as built. DESIGN CHOICE, log 1. Safe. -/
opaque Config.payCapLess1 : Fin 16777216

/-- OUT_CAP less one, for the block as built. DESIGN CHOICE, log 1. Safe. -/
opaque Config.outCapLess1 : Fin 16777216

/-- BASE divided by 2^26, for the block as built. DESIGN CHOICE, log 1. Safe. -/
opaque Config.basePage : Nat

/-- HOST_BYTE_ORDER of the platform as built. DESIGN CHOICE, log 1. Safe. -/
opaque Config.hostByteOrder : ByteOrder

/-- The parameters of the block as built: nothing is known of them but their legal ranges. -/
def Config.platform : Params where
  base := Config.basePage * Params.window
  inCap := Config.inCapLess1.val + 1
  payCap := Config.payCapLess1.val + 1
  outCap := Config.outCapLess1.val + 1
  hostByteOrder := Config.hostByteOrder

/-- What a buffer byte that nothing has written since reset reads as, by the number of resets so far and the byte's
block offset: any value, fixed once per byte until it is written (93_implementation_defined.md U6, U12). DESIGN
CHOICE, log 2. Safe. -/
opaque Config.freeByte : Nat → Nat → Byte

/-- What the n-th read of state in a running command's write set returns: any value, each read independently
(70_reset_and_hazards.md R197). DESIGN CHOICE, log 3. Safe. -/
opaque Config.busyDraw : Nat → Word

/-- The SYM field of a node that is no LEAF: the field exists in a LEAF only (10_state.md R36). Read only where the
arena breaks 10_state.md R43, which no run reaches. DESIGN CHOICE, log 10. Safe. -/
opaque Config.absentSymbol : NodeIx → Symbol

end Sys2Proof
end

