-- ==== Sys2Proof/Syntax.lean ====
section
/-! DEFINITION. The commands of the block: one constructor per row of spec/opcode_table.json (30_encoding.md R87).
A command word has no operand field (30_encoding.md R86, R91), so no constructor has an argument. -/

namespace Sys2Proof

/-- The seven commands (30_encoding.md R87). -/
inductive Instr
  /-- CLEAR: reset every table to its empty state (40_frequency_table.md R101). -/
  | clear
  /-- COUNT: the frequency table of the input (40_frequency_table.md R103). -/
  | count
  /-- BUILD: the Huffman tree of the frequency table (41_tree_builder.md R111). -/
  | build
  /-- GENCODE: the code of every symbol present (42_code_generator.md R123). -/
  | gencode
  /-- PACK: encode the input into the payload (43_bit_packer.md R133). -/
  | pack
  /-- UNPACK: decode the payload into the output (44_bit_unpacker.md R143). -/
  | unpack
  /-- ENCODE: COUNT, BUILD, GENCODE, PACK in one engine step (45_entry_points.md R154). -/
  | encode
deriving DecidableEq, Repr

end Sys2Proof
end

