-- ==== Sys2Proof/WellFormed.lean ====
section
/-! DEFINITION. What is well formed: a command (every one is: it has no operand), the parameters (00_scope.md R6)
and a persisted container (45_entry_points.md R162). Each check is a Bool. -/

namespace Sys2Proof

/-- A command carries no register field, immediate or mode bit (30_encoding.md R86, R91, R92), so there is nothing
in it that could be out of range. -/
def Instr.wellFormed : Instr → Bool
  | .clear | .count | .build | .gencode | .pack | .unpack | .encode => true

/-- A capacity is 1 .. 2^24 (00_scope.md R6). -/
def Params.legalCap (c : Nat) : Bool := decide (1 ≤ c ∧ c ≤ Params.maxCap)

/-- BASE is aligned to 2^26 (00_scope.md R6). -/
def Params.legalBase (b : Nat) : Bool := decide (b % Params.window = 0)

/-- The legal values of the parameters (00_scope.md R6). -/
def Params.wellFormed (p : Params) : Bool :=
  Params.legalBase p.base && Params.legalCap p.inCap && Params.legalCap p.payCap && Params.legalCap p.outCap

/-- A container shorter than 4 bytes is not a container, and PAY_LEN must be able to hold its payload length
(45_entry_points.md R162; 10_state.md R34). -/
def containerWellFormed (c : List Byte) : Bool := decide (4 ≤ c.length ∧ c.length - 4 < 4294967296)

end Sys2Proof
end

