-- ==== Sys2Proof/Decode.lean ====
section
/-! DEFINITION. Decoding and encoding of command words (30_encoding.md R85 to R92). -/

namespace Sys2Proof

/-- Why a word names no command (30_encoding.md R90). The engine completes such a word with ILLEGAL_CMD. -/
inductive DecodeError
  /-- Bits 31:4 are not all zero. -/
  | reservedBits
  /-- Bits 31:4 are zero and OPCODE is 0x0 or 0x8 .. 0xF. -/
  | reservedOpcode
  /-- Fewer bytes than the 4 of a command word: the bus carries no such command (30_encoding.md R85). -/
  | truncated
deriving DecidableEq, Repr

/-- What the decoder says of a word. -/
inductive Decoded
  | command (i : Instr)
  | illegal (e : DecodeError)
deriving DecidableEq, Repr

/-- OPCODE, bits 3:0 of a command word (30_encoding.md R86). -/
def opcodeField (w : Word) : BitVec 4 := w.extractLsb' 0 4

/-- RSVD, bits 31:4 of a command word (30_encoding.md R86). -/
def reservedField (w : Word) : BitVec 28 := w.extractLsb' 4 28

/-- The opcode map (30_encoding.md R87). -/
def commandOfOpcode (op : BitVec 4) : Decoded :=
  match op with
  | 0x1#4 => .command .clear
  | 0x2#4 => .command .count
  | 0x3#4 => .command .build
  | 0x4#4 => .command .gencode
  | 0x5#4 => .command .pack
  | 0x6#4 => .command .unpack
  | 0x7#4 => .command .encode
  | _ => .illegal .reservedOpcode

/-- Decode, a total function of the 32-bit word (30_encoding.md R89). -/
def decode (w : Word) : Decoded :=
  if reservedField w = 0 then commandOfOpcode (opcodeField w) else .illegal .reservedBits

/-- The command a word names, none where it is illegal. -/
def decodeCommand (w : Word) : Option Instr :=
  match decode w with
  | .command i => some i
  | .illegal _ => none

/-- The bytes of a word as the bus carries them, the byte at the lowest address first (20_memory.md R66). -/
def wordBytes (w : Word) : List Byte :=
  [w.extractLsb' 0 8, w.extractLsb' 8 8, w.extractLsb' 16 8, w.extractLsb' 24 8]

/-- The word of four bytes, the first from the lowest address (20_memory.md R66). -/
def bytesWord (b0 b1 b2 b3 : Byte) : Word := b3 ++ b2 ++ b1 ++ b0

/-- Decoding at the head of any list of bytes: the command and the bytes after it, or the reason there is none. -/
def decodeBytes : List Byte → Decoded × List Byte
  | b0 :: b1 :: b2 :: b3 :: rest => (decode (bytesWord b0 b1 b2 b3), rest)
  | bs => (.illegal .truncated, bs)

/-- The opcode of a command (30_encoding.md R87). -/
def opcodeOf : Instr → BitVec 4
  | .clear => 0x1#4
  | .count => 0x2#4
  | .build => 0x3#4
  | .gencode => 0x4#4
  | .pack => 0x5#4
  | .unpack => 0x6#4
  | .encode => 0x7#4

/-- The command word of a command: OPCODE in bits 3:0 and RSVD zero (30_encoding.md R86, R87). -/
def encode (i : Instr) : Word := 0#28 ++ opcodeOf i

/-- The bytes of a command word on the bus. -/
def encodeBytes (i : Instr) : List Byte := wordBytes (encode i)

/-- The command the decoder reads from a word of the opcode table, whose bits are numbered as the table numbers
them; bits at and above nbits are zero. -/
def decodeTableWord (nbits w : Nat) : Option Instr :=
  match (decodeBytes (wordBytes (BitVec.ofNat 32 (w % 2 ^ nbits)))).1 with
  | .command i => some i
  | .illegal _ => none

end Sys2Proof
end

