-- ==== Sys2Proof/Machine/State.lean ====
section
/-! DEFINITION. The state of the block (10_state.md), as plain data, and its reset values (10_state.md R49). -/

namespace Sys2Proof.Machine

/-- SEQ, the command sequencer (10_state.md R21). SEQ = BUSY exactly when STATUS.BUSY = 1: the one is stored. -/
inductive Seq
  | idle
  | busy
deriving DecidableEq, Repr

/-- The error codes of STATUS.ERR_CODE (60_exceptions.md R165); the codes 8 .. 15 are never produced. -/
inductive ErrorCode
  | none
  | emptyInput
  | corruptTree
  | corruptStream
  | illegalCmd
  | sequence
  | capacity
  | noCode
deriving DecidableEq, Repr

/-- An entry of the node arena (10_state.md R36). -/
inductive Node
  /-- EMPTY. -/
  | empty
  /-- LEAF with SYM and WEIGHT. -/
  | leaf (sym : Symbol) (weight : Weight)
  /-- INTERNAL with LEFT, RIGHT and WEIGHT. -/
  | internal (left right : NodeIx) (weight : Weight)
deriving DecidableEq, Repr

/-- The three byte buffers (10_state.md R40). -/
inductive Buffer
  | inBuf
  | payBuf
  | outBuf
deriving DecidableEq, Repr

/-- The size of a host transaction: 1, 2 or 4 bytes (30_encoding.md R93). -/
inductive Size
  | one
  | two
  | four
deriving DecidableEq, Repr

/-- A host transaction `(dir, addr, size, wdata)` (30_encoding.md R93). -/
inductive BusTx
  | read (addr : Offset) (size : Size)
  | write (addr : Offset) (size : Size) (wdata : Word)
deriving DecidableEq, Repr

/-- The response code of a host transaction (30_encoding.md R93). -/
inductive Resp
  | okay
  | error
deriving DecidableEq, Repr

/-- The response `(resp, rdata)` of a host transaction; a WRITE has no rdata (30_encoding.md R93). -/
structure BusResponse where
  resp : Resp
  rdata : Option Word
deriving DecidableEq, Repr

/-- One turn of the interleaving of the agents (20_memory.md R77; 60_exceptions.md R174; log 4). -/
inductive Turn
  /-- The engine's turn: its completion step, if a command is in flight (10_state.md R20). -/
  | engine
  /-- One host transaction (10_state.md R20). -/
  | bus (t : BusTx)
  /-- One poll of WAIT: RD STATUS, again until bit 0 of the value read is 0 (30_encoding.md R96; log 14). -/
  | wait
  /-- The reset input (70_reset_and_hazards.md R190). -/
  | reset
deriving DecidableEq, Repr

/-- Why the machine stops with a fault. There is no constructor: nothing in the spec stops the machine. An error of
a command is a completion (60_exceptions.md R168) and a bus ERROR is a response (20_memory.md R69, R70), so nobody
raises a fault (log 20). Safe. -/
inductive Fault
deriving DecidableEq, Repr

/-- Why an instruction has no meaning. -/
inductive Refusal
  /-- Raised by `exec` alone, for a command without a meaning yet; no arm raises it. Safe. -/
  | notModelled (mnemonic : String)
deriving DecidableEq, Repr

/-- The bytes of the three buffers, keyed by block offset (20_memory.md R61). A byte that is not listed has not been
written since reset (log 2). -/
abbrev Memory := List Host.Cell

/-- The state of the block. -/
structure State where
  /-- The parameters of the block, among them the registers IN_CAP, PAY_CAP and OUT_CAP (10_state.md R25). -/
  params : Params
  /-- SEQ, and with it STATUS.BUSY (10_state.md R21, R28). -/
  seq : Seq
  /-- CUR_CMD, the command word latched at acceptance (10_state.md R21). -/
  curCmd : Word
  /-- STATUS.DONE (10_state.md R29). -/
  done : Bool
  /-- STATUS.OVR (10_state.md R30). -/
  ovr : Bool
  /-- STATUS.TREE_VALID (10_state.md R31). -/
  treeValid : Bool
  /-- STATUS.CODES_VALID (10_state.md R31). -/
  codesValid : Bool
  /-- STATUS.SINGLE (10_state.md R31). -/
  single : Bool
  /-- STATUS.ERR_CODE (10_state.md R32). -/
  errCode : ErrorCode
  /-- STATUS.ERR_OP (10_state.md R32). -/
  errOp : BitVec 4
  /-- IRQ_EN.DONE_IE (10_state.md R33). -/
  doneIe : Bool
  /-- IRQ_EN.OVR_IE (10_state.md R33). -/
  ovrIe : Bool
  /-- IN_LEN (10_state.md R34). -/
  inLen : Word
  /-- NUMBITS (10_state.md R34). -/
  numBits : Word
  /-- PAY_LEN (10_state.md R34). -/
  payLen : Word
  /-- OUT_LEN (10_state.md R34). -/
  outLen : Word
  /-- ERR_INFO (10_state.md R34). -/
  errInfo : Word
  /-- NUM_SYMS, bits 8:0 (10_state.md R35). -/
  numSyms : BitVec 9
  /-- NUM_NODES, bits 8:0 (10_state.md R35). -/
  numNodes : BitVec 9
  /-- ROOT, bits 8:0 (10_state.md R35). -/
  root : NodeIx
  /-- FREQ[0..255] (10_state.md R38). -/
  freq : Vector Word 256
  /-- NODE[0..510] (10_state.md R36). -/
  node : Vector Node 511
  /-- CODE_LEN[0..255] (10_state.md R41). -/
  codeLen : Vector (BitVec 8) 256
  /-- CODE_BITS[0..255]: code bit t is bit 255 - t (10_state.md R41, R42). -/
  codeBits : Vector (BitVec 256) 256
  /-- toDo, the priority structure: empty outside BUILD (10_state.md R39). -/
  toDo : List NodeIx
  /-- IN_BUF, PAY_BUF and OUT_BUF (10_state.md R40). -/
  mem : Memory
  /-- The model's own: the turns still to come, the next one first (log 4). -/
  agenda : List Turn
  /-- The model's own: the response of the last host transaction (log 7). -/
  response : Option BusResponse
  /-- The model's own: how many busy-read free values have been drawn (log 3). -/
  draws : Nat
  /-- The model's own: how many resets there have been; it selects the free values of the buffers (log 2). -/
  epoch : Nat
deriving DecidableEq, Repr

/-- The state after reset of a block with the parameters p (10_state.md R49; 70_reset_and_hazards.md R190). The last
four fields are the model's own: DESIGN CHOICE, log 2, 3, 4, 7. -/
def State.resetWith (p : Params) : State where
  params := p
  seq := .idle
  curCmd := 0
  done := false
  ovr := false
  treeValid := false
  codesValid := false
  single := false
  errCode := .none
  errOp := 0
  doneIe := false
  ovrIe := false
  inLen := 0
  numBits := 0
  payLen := 0
  outLen := 0
  errInfo := 0
  numSyms := 0
  numNodes := 0
  root := 0
  freq := Vector.replicate 256 0
  node := Vector.replicate 511 .empty
  codeLen := Vector.replicate 256 0
  codeBits := Vector.replicate 256 0
  toDo := []
  mem := []
  agenda := []
  response := none
  draws := 0
  epoch := 0

/-- The state right after reset of the block as built, whose parameters are OPEN (00_scope.md R6; log 1). -/
def State.reset : State := State.resetWith Config.platform

end Sys2Proof.Machine
end

