-- ==== Sys2Proof/Machine/Ops.lean ====
section
/-! DEFINITION. The named operations over memory, tables and registers; accepting a command (30_encoding.md R88) and
ending one, with or without an error (60_exceptions.md R167, R168). -/

namespace Sys2Proof.Machine

/-! ### The sparse memory of the buffers -/

/-- The byte listed at an offset; none where nothing has been written since reset. -/
def Memory.readCell : Memory → Nat → Option Byte
  | [], _ => none
  | (a, v) :: rest, x => if x = a then some v else Memory.readCell rest x

/-- Writing one byte keeps the offsets strictly rising. -/
def Memory.writeCell : Memory → Nat → Byte → Memory
  | [], x, b => [(x, b)]
  | (a, v) :: rest, x, b =>
    if x < a then (x, b) :: (a, v) :: rest
    else if x = a then (x, b) :: rest
    else (a, v) :: Memory.writeCell rest x b

/-- Writing consecutive bytes from an offset upward (20_memory.md R66). -/
def Memory.writeCells : Memory → Nat → List Byte → Memory
  | m, _, [] => m
  | m, x, b :: bs => Memory.writeCells (m.writeCell x b) (x + 1) bs

/-- The canonical form: the offsets strictly rise. An unlisted byte is an unwritten one, which no entry can equal
(log 2). -/
def Memory.wf (m : Memory) : Bool := decide ((m.map Prod.fst).Pairwise (· < ·))

/-- The block offset of a buffer's byte 0 (20_memory.md R61). -/
def bufferBase : Buffer → Nat
  | .inBuf => 0x01000000
  | .payBuf => 0x02000000
  | .outBuf => 0x03000000

/-- The capacity of a buffer (10_state.md R40). -/
def capacity (p : Params) : Buffer → Nat
  | .inBuf => p.inCap
  | .payBuf => p.payCap
  | .outBuf => p.outCap

/-- The byte at a block offset of a buffer region: what was last written there, or, when nothing has been written
since reset, the free value of that byte (93_implementation_defined.md U6; log 2). -/
def State.byteAt (s : State) (offset : Nat) : Byte :=
  (s.mem.readCell offset).getD (Config.freeByte s.epoch offset)

/-- B[j] (00_scope.md R11). -/
def State.bufferByte (s : State) (b : Buffer) (j : Nat) : Byte := s.byteAt (bufferBase b + j)

/-- B[0 .. n-1]. -/
def State.bufferBytes (s : State) (b : Buffer) (n : Nat) : List Byte := (List.range n).map (s.bufferByte b)

/-- B[j], B[j+1], ... <- bs (00_scope.md R11). -/
def State.storeBytes (s : State) (b : Buffer) (j : Nat) (bs : List Byte) : State :=
  { s with mem := s.mem.writeCells (bufferBase b + j) bs }

/-! ### Tables -/

/-- The table whose entry i is f i. -/
def tabulate {α : Type} (n : Nat) (f : Nat → α) : Vector α n :=
  ⟨⟨(List.range n).map f⟩, by simp⟩

/-- FREQ[s] (10_state.md R38). -/
def State.freqAt (s : State) (sym : Symbol) : Word := s.freq[sym.toNat]'sym.isLt

/-- CODE_LEN[s] (10_state.md R41). -/
def State.codeLenAt (s : State) (sym : Symbol) : BitVec 8 := s.codeLen[sym.toNat]'sym.isLt

/-- CODE_BITS[s] (10_state.md R41). -/
def State.codeBitsAt (s : State) (sym : Symbol) : BitVec 256 := s.codeBits[sym.toNat]'sym.isLt

/-- An entry of an arena. Slot 511 is no entry of it and reads as EMPTY (10_state.md R37). -/
def arenaAt (arena : Vector Node 511) (n : NodeIx) : Node :=
  if h : n.toNat < 511 then arena[n.toNat] else .empty

/-- NODE[n] (10_state.md R36). -/
def State.nodeAt (s : State) (n : NodeIx) : Node := arenaAt s.node n

/-- WEIGHT of a node; an EMPTY entry reads 0 (10_state.md R37). -/
def Node.weight : Node → Weight
  | .empty => 0
  | .leaf _ w => w
  | .internal _ _ w => w

/-- The 256 symbols in ascending order. -/
def allSymbols : List Symbol := (List.range 256).map (BitVec.ofNat 8)

/-! ### Accepting and ending a command -/

/-- Acceptance of the word v written to CMD while SEQ = IDLE, and nothing else (30_encoding.md R88). It is also the
"return" from an error: it clears what the last one reported (60_exceptions.md R170). -/
def acceptCommand (v : Word) (s : State) : State :=
  { s with seq := .busy, curCmd := v, done := false, errCode := .none, errOp := 0, errInfo := 0 }

/-- `complete`: the running command ends without error (60_exceptions.md R167). -/
def complete (s : State) : State :=
  { s with errCode := .none, errOp := 0, errInfo := 0, seq := .idle, done := true }

/-- `raise E(info)`: the running command ends with an error, op being the opcode of the command, or inside ENCODE of
the stage, that raised it (60_exceptions.md R168; 10_state.md R32; log 9). -/
def raise (op : BitVec 4) (e : ErrorCode) (info : Word) (s : State) : State :=
  { s with errCode := e, errInfo := info, errOp := op, seq := .idle, done := true }

/-- How a command, or a stage of ENCODE, ends, before the completion fields are written: the state with its effects,
and the error if it raised one. -/
inductive Result
  | ok (s : State)
  | err (op : BitVec 4) (e : ErrorCode) (info : Word) (s : State)
deriving DecidableEq, Repr

/-- The next stage runs on the effects of the one before; a stage that raised stops the command, and its effects
stand (45_entry_points.md R154). -/
def Result.andThen (r : Result) (stage : State → Result) : Result :=
  match r with
  | .ok s => stage s
  | .err op e info s => .err op e info s

/-- The completion of a command (60_exceptions.md R167, R168). -/
def Result.completion : Result → State
  | .ok s => complete s
  | .err op e info s => raise op e info s

/-- A command always completes: its outcome is a next state (70_reset_and_hazards.md R205). -/
def Result.outcome (r : Result) : Host.Outcome State Fault Refusal := .next r.completion

end Sys2Proof.Machine
end

