-- ==== Sys2Proof/Machine/Operands.lean ====
section
/-! DEFINITION. The operands of the commands (30_encoding.md R91): signed and unsigned readings of the operand
registers, codes, payload bits, and the write set W of each command. -/

namespace Sys2Proof.Machine

/-- sint32(v), two's complement (00_scope.md R10). -/
def sint32 (v : Word) : Int := v.toInt

/-- ceil(n/8) (00_scope.md R10). -/
def ceilDiv8 (n : Nat) : Nat := (n + 7) / 8

/-- The bits of a list, the first one the most significant of the width; the list has as many bits as the width. -/
def msbFirst (w : Nat) (bits : List Bool) : BitVec w :=
  BitVec.ofNat w (bits.foldl (fun acc b => 2 * acc + b.toNat) 0)

/-- A code in the layout of CODE_BITS: code bit t is bit 255 - t, and the bits beyond the code are 0
(10_state.md R42). -/
def codeWord (c : List Bool) : BitVec 256 := msbFirst 256 (c ++ List.replicate (256 - c.length) false)

/-- Code bit t of a symbol (00_scope.md R12; 10_state.md R42). -/
def State.codeBit (s : State) (sym : Symbol) (t : Nat) : Bool := (s.codeBitsAt sym).getMsbD t

/-- The code of a symbol, first bit first; empty where it has no code (00_scope.md R12; 10_state.md R41). -/
def State.codeOf (s : State) (sym : Symbol) : List Bool :=
  (List.range (s.codeLenAt sym).toNat).map (s.codeBit sym)

/-- PayBit(i): bit 7 - (i mod 8) of PAY_BUF[i / 8] (20_memory.md R74). -/
def State.payBit (s : State) (i : Nat) : Bool := (s.bufferByte .payBuf (i / 8)).getLsbD (7 - i % 8)

/-- Byte j of the payload that holds the bits: global bit i is bit 7 - (i mod 8) of byte i / 8, and the padding bits
of the last byte are 0 (20_memory.md R74; 43_bit_packer.md R134). -/
def payloadByte (bits : List Bool) (j : Nat) : Byte :=
  msbFirst 8 ((List.range 8).map fun b => bits.getD (8 * j + b) false)

/-- The payload container of the bits: ceil(numBits/8) bytes (20_memory.md R75). -/
def payloadBytes (bits : List Bool) : List Byte := (List.range (ceilDiv8 bits.length)).map (payloadByte bits)

/-- The pieces of state that the write sets name (30_encoding.md R91). -/
inductive Item
  | freq
  | node
  | codeLen
  | codeBits
  | numSyms
  | numNodes
  | root
  | treeValid
  | codesValid
  | single
  | payBuf
  | numBits
  | payLen
  | outBuf
  | outLen
deriving DecidableEq, Repr

/-- W of COUNT (30_encoding.md R91). -/
def countWrites : List Item := [.freq, .treeValid, .codesValid, .single]

/-- W of BUILD (30_encoding.md R91). -/
def buildWrites : List Item := [.node, .numSyms, .numNodes, .root, .treeValid, .codesValid, .single]

/-- W of GENCODE (30_encoding.md R91). -/
def gencodeWrites : List Item := [.codeLen, .codeBits, .codesValid]

/-- W of PACK (30_encoding.md R91). -/
def packWrites : List Item := [.payBuf, .numBits, .payLen]

/-- The write set W of a command (30_encoding.md R91). -/
def commandWrites : Instr → List Item
  | .clear => [.freq, .node, .codeLen, .codeBits, .numSyms, .numNodes, .root, .treeValid, .codesValid, .single]
  | .count => countWrites
  | .build => buildWrites
  | .gencode => gencodeWrites
  | .pack => packWrites
  | .unpack => [.outBuf, .outLen]
  | .encode => countWrites ++ buildWrites ++ gencodeWrites ++ packWrites

/-- W of a command word; an illegal word writes nothing of it (30_encoding.md R91; 70_reset_and_hazards.md R197). -/
def writeSet (w : Word) : List Item :=
  match decodeCommand w with
  | some i => commandWrites i
  | none => []

end Sys2Proof.Machine
end

