-- ==== Sys2Proof/Machine/Flags.lean ====
section
/-! DEFINITION. The STATUS flags, the interrupt enables and the interrupt output (10_state.md R27 to R33;
60_exceptions.md R165, R175). -/

namespace Sys2Proof.Machine

/-- The numbers of the error codes (60_exceptions.md R165). -/
def errorNumber : ErrorCode → BitVec 4
  | .none => 0
  | .emptyInput => 1
  | .corruptTree => 2
  | .corruptStream => 3
  | .illegalCmd => 4
  | .sequence => 5
  | .capacity => 6
  | .noCode => 7

/-- STATUS.BUSY: 1 exactly when SEQ = BUSY (10_state.md R21). -/
def State.isBusy (s : State) : Bool := decide (s.seq = .busy)

/-- A flag in its bit of a register. -/
def bitAt (i : Nat) (b : Bool) : Word := if b then 1#32 <<< i else 0#32

/-- STATUS as a read gives it (10_state.md R27); the reserved bits read 0 (R48). -/
def State.statusWord (s : State) : Word :=
  bitAt 0 s.isBusy ||| bitAt 1 s.done ||| bitAt 2 s.ovr ||| bitAt 3 s.treeValid ||| bitAt 4 s.codesValid |||
    bitAt 5 s.single ||| ((errorNumber s.errCode).setWidth 32 <<< 8) ||| (s.errOp.setWidth 32 <<< 12)

/-- A write to STATUS: bit 1 clears DONE, bit 2 clears OVR, every other bit is ignored (10_state.md R27). -/
def State.writeStatus (s : State) (v : Word) : State :=
  { s with done := s.done && !v.getLsbD 1, ovr := s.ovr && !v.getLsbD 2 }

/-- IRQ_EN as a read gives it (10_state.md R33). -/
def State.irqEnWord (s : State) : Word := bitAt 0 s.doneIe ||| bitAt 1 s.ovrIe

/-- A write to IRQ_EN: IRQ_EN[1:0] <- v[1:0] (10_state.md R33; 20_memory.md R65). -/
def State.writeIrqEn (s : State) (v : Word) : State :=
  { s with doneIe := v.getLsbD 0, ovrIe := v.getLsbD 1 }

/-- The interrupt output, a level (60_exceptions.md R175). -/
def State.irq (s : State) : Bool := (s.done && s.doneIe) || (s.ovr && s.ovrIe)

/-- TREE_VALID, CODES_VALID, SINGLE <- 0; the tables keep their contents (20_memory.md R67; 10_state.md R31). -/
def State.invalidate (s : State) : State := { s with treeValid := false, codesValid := false, single := false }

end Sys2Proof.Machine
end

