-- ==== Sys2Proof/Machine/Bus.lean ====
section
/-! DEFINITION. Host bus transactions: the address map, MemRead and MemWrite (20_memory.md R60 to R73;
10_state.md R23 to R42; 70_reset_and_hazards.md R196, R197). -/

namespace Sys2Proof.Machine

/-- The control registers (10_state.md R23). -/
inductive Reg
  | id
  | inCap
  | payCap
  | outCap
  | cmd
  | status
  | irqEn
  | inLen
  | numBits
  | payLen
  | outLen
  | errInfo
  | numSyms
  | numNodes
  | root
  | reserved
deriving DecidableEq, Repr

/-- The control registers in the order of their offsets 0x00, 0x04, ... 0x3C (10_state.md R23). -/
def regTable : List Reg :=
  [.id, .inCap, .payCap, .outCap, .cmd, .status, .irqEn, .inLen, .numBits, .payLen, .outLen, .errInfo, .numSyms,
    .numNodes, .root, .reserved]

/-- What a legal transaction addresses (20_memory.md R61). -/
inductive Loc
  | reg (r : Reg)
  | freq (sym : Symbol)
  | codeLen (sym : Symbol)
  | codeBits (sym : Symbol) (w : Nat)
  | node (n : NodeIx) (w : Nat)
  | buffer (b : Buffer) (j : Nat)
deriving DecidableEq, Repr

/-- Why a transaction gets an ERROR response (20_memory.md R69, R70). The response itself does not tell the two
apart (30_encoding.md R93). -/
inductive BusError
  /-- An unmapped offset, or a byte at or beyond a buffer's capacity (20_memory.md R70). -/
  | unmapped
  /-- A mapped access of an illegal width or alignment (20_memory.md R69). -/
  | widthOrAlignment
deriving DecidableEq, Repr

/-- Where a transaction goes, or why it is an ERROR. -/
inductive Located
  | at (l : Loc)
  | error (e : BusError)
deriving DecidableEq, Repr

/-- The number of bytes of a transaction (30_encoding.md R93). -/
def Size.bytes : Size → Nat
  | .one => 1
  | .two => 2
  | .four => 4

/-- Registers and table windows take 4-byte accesses at multiples of 4 only (20_memory.md R63). -/
def wordAccess (offset n : Nat) (l : Loc) : Located :=
  if n = 4 ∧ offset % 4 = 0 then .at l else .error .widthOrAlignment

/-- A buffer access lies wholly below the capacity, which is checked first, and is naturally aligned
(20_memory.md R62, R64; 60_exceptions.md R172). -/
def bufferAccess (p : Params) (b : Buffer) (j n : Nat) : Located :=
  if capacity p b < j + n then .error .unmapped
  else if j % n = 0 then .at (.buffer b j)
  else .error .widthOrAlignment

/-- The address map for an access of n bytes at a block offset (20_memory.md R61). -/
def locate (p : Params) (offset n : Nat) : Located :=
  if offset < 0x40 then wordAccess offset n (.reg (regTable.getD (offset / 4) .reserved))
  else if offset < 0x400 then .error .unmapped
  else if offset < 0x800 then wordAccess offset n (.freq (BitVec.ofNat 8 ((offset - 0x400) / 4)))
  else if offset < 0xC00 then wordAccess offset n (.codeLen (BitVec.ofNat 8 ((offset - 0x800) / 4)))
  else if offset < 0x1000 then .error .unmapped
  else if offset < 0x3000 then
    wordAccess offset n (.codeBits (BitVec.ofNat 8 ((offset - 0x1000) / 32)) ((offset - 0x1000) / 4 % 8))
  else if offset < 0x4000 then .error .unmapped
  else if offset < 0x6000 then
    wordAccess offset n (.node (BitVec.ofNat 9 ((offset - 0x4000) / 16)) ((offset - 0x4000) / 4 % 4))
  else if offset < 0x01000000 then .error .unmapped
  else if offset < 0x02000000 then bufferAccess p .inBuf (offset - 0x01000000) n
  else if offset < 0x03000000 then bufferAccess p .payBuf (offset - 0x02000000) n
  else if offset < 0x04000000 then bufferAccess p .outBuf (offset - 0x03000000) n
  else .error .unmapped

/-- Where a transaction at a block offset goes. -/
def State.locateTx (s : State) (addr : Offset) (size : Size) : Located := locate s.params addr.toNat size.bytes

/-- The identifier of the block (10_state.md R24). -/
def idWord : Word := 0x48554646

/-- What a register reads, while it is not being written by a running command (10_state.md R23 to R35). -/
def State.readReg (s : State) : Reg → Word
  | .id => idWord
  | .inCap => BitVec.ofNat 32 s.params.inCap
  | .payCap => BitVec.ofNat 32 s.params.payCap
  | .outCap => BitVec.ofNat 32 s.params.outCap
  | .cmd => 0
  | .status => s.statusWord
  | .irqEn => s.irqEnWord
  | .inLen => s.inLen
  | .numBits => s.numBits
  | .payLen => s.payLen
  | .outLen => s.outLen
  | .errInfo => s.errInfo
  | .numSyms => s.numSyms.setWidth 32
  | .numNodes => s.numNodes.setWidth 32
  | .root => s.root.setWidth 32
  | .reserved => 0

/-- Word 0 of a node, the descriptor (10_state.md R37). -/
def Node.descriptor : Node → Word
  | .empty => 0
  | .leaf sym _ => 0xC0000000#32 ||| sym.setWidth 32
  | .internal left right _ => 0x80000000#32 ||| (right.setWidth 32 <<< 16) ||| left.setWidth 32

/-- Word w of a node (10_state.md R37). -/
def Node.word (n : Node) (w : Nat) : Word :=
  match w with
  | 0 => n.descriptor
  | 1 => n.weight.extractLsb' 0 32
  | 2 => (n.weight.extractLsb' 32 8).setWidth 32
  | _ => 0

/-- Word w of CODE_BITS[s]: bit 31 - b is code bit 32w + b below CODE_LEN[s], and 0 otherwise (10_state.md R42). -/
def State.codeBitsWord (s : State) (sym : Symbol) (w : Nat) : Word :=
  msbFirst 32 ((List.range 32).map fun b =>
    decide (32 * w + b < (s.codeLenAt sym).toNat) && s.codeBit sym (32 * w + b))

/-- n consecutive bytes of a buffer as read data, little-endian, the upper bits 0 (20_memory.md R62, R66;
30_encoding.md R93). -/
def State.bufferWord (s : State) (b : Buffer) (j : Nat) : Size → Word
  | .one => bytesWord (s.bufferByte b j) 0 0 0
  | .two => bytesWord (s.bufferByte b j) (s.bufferByte b (j + 1)) 0 0
  | .four =>
    bytesWord (s.bufferByte b j) (s.bufferByte b (j + 1)) (s.bufferByte b (j + 2)) (s.bufferByte b (j + 3))

/-- The state's value at a location (20_memory.md R64). -/
def State.readLoc (s : State) (size : Size) : Loc → Word
  | .reg r => s.readReg r
  | .freq sym => s.freqAt sym
  | .codeLen sym => (s.codeLenAt sym).setWidth 32
  | .codeBits sym w => s.codeBitsWord sym w
  | .node n w => (s.nodeAt n).word w
  | .buffer b j => s.bufferWord b j size

/-- All bits of the read data of a size (30_encoding.md R93). -/
def Size.mask : Size → Word
  | .one => 0x000000FF
  | .two => 0x0000FFFF
  | .four => 0xFFFFFFFF

/-- The bits of a read that are any value while a command with the write set W runs (70_reset_and_hazards.md R197):
all of them where the addressed state is in W, of STATUS the flags in W, else none. Slot 511 of the node window is no
entry of NODE and reads 0 (10_state.md R37; log 12). -/
def anyBits (w : List Item) (size : Size) : Loc → Word
  | .reg r =>
    let all (i : Item) : Word := if i ∈ w then Size.mask .four else 0
    match r with
    | .status =>
      bitAt 3 (decide (Item.treeValid ∈ w)) ||| bitAt 4 (decide (Item.codesValid ∈ w)) |||
        bitAt 5 (decide (Item.single ∈ w))
    | .numBits => all .numBits
    | .payLen => all .payLen
    | .outLen => all .outLen
    | .numSyms => all .numSyms
    | .numNodes => all .numNodes
    | .root => all .root
    | .id | .inCap | .payCap | .outCap | .cmd | .irqEn | .inLen | .errInfo | .reserved => 0
  | .freq _ => if Item.freq ∈ w then size.mask else 0
  | .codeLen _ => if Item.codeLen ∈ w then size.mask else 0
  | .codeBits _ _ => if Item.codeBits ∈ w then size.mask else 0
  | .node n _ => if n ≠ 511#9 ∧ Item.node ∈ w then size.mask else 0
  | .buffer .inBuf _ => 0
  | .buffer .payBuf _ => if Item.payBuf ∈ w then size.mask else 0
  | .buffer .outBuf _ => if Item.outBuf ∈ w then size.mask else 0

/-- The bits of a read at a location that are any value now. -/
def State.anyBitsNow (s : State) (size : Size) (l : Loc) : Word :=
  if s.isBusy then anyBits (writeSet s.curCmd) size l else 0

/-- The read data of a legal read: the state's value, with the any-value bits taken from the next free value
(20_memory.md R64; 70_reset_and_hazards.md R197). -/
def State.readData (s : State) (size : Size) (l : Loc) : Word :=
  let any := s.anyBitsNow size l
  (s.readLoc size l &&& ~~~any) ||| (Config.busyDraw s.draws &&& any)

/-- MemRead (20_memory.md R64): the response, in a state that is unchanged (R72) but for the model's own count of
free values drawn. -/
def State.memRead (s : State) (addr : Offset) (size : Size) : State × BusResponse :=
  match s.locateTx addr size with
  | .error _ => (s, { resp := .error, rdata := some 0 })
  | .at l =>
    (if s.anyBitsNow size l = 0 then s else { s with draws := s.draws + 1 },
      { resp := .okay, rdata := some (s.readData size l) })

/-- The bytes of the write data of a size, in the order of their offsets (20_memory.md R65, R66). -/
def writeBytesOf (v : Word) (size : Size) : List Byte := (wordBytes v).take size.bytes

/-- FREQ[s] <- v by the host, which invalidates the tree and the codes (20_memory.md R67). -/
def State.writeFreq (s : State) (sym : Symbol) (v : Word) : State :=
  { s.invalidate with freq := s.freq.set sym.toNat v sym.isLt }

/-- A write to a location that is neither STATUS nor IRQ_EN while BUSY = 0 (20_memory.md R65); a write to a read-only
location changes nothing (R68). -/
def State.writeIdle (s : State) (size : Size) (v : Word) : Loc → State
  | .reg .cmd => acceptCommand v s
  | .reg .inLen => { s with inLen := v }
  | .reg .numBits => { s with numBits := v }
  | .reg .payLen => { s with payLen := v }
  | .reg .id | .reg .inCap | .reg .payCap | .reg .outCap | .reg .outLen | .reg .errInfo | .reg .numSyms
  | .reg .numNodes | .reg .root | .reg .reserved => s
  | .reg .status | .reg .irqEn => s
  | .freq sym => s.writeFreq sym v
  | .codeLen _ => s
  | .codeBits _ _ => s
  | .node _ _ => s
  | .buffer b j => s.storeBytes b j (writeBytesOf v size)

/-- A legal write: STATUS and IRQ_EN always, everything else only while BUSY = 0; dropped, it sets OVR
(20_memory.md R65; 70_reset_and_hazards.md R196). -/
def State.writeLoc (s : State) (size : Size) (v : Word) (l : Loc) : State :=
  match l with
  | .reg .status => s.writeStatus v
  | .reg .irqEn => s.writeIrqEn v
  | _ => if s.isBusy then { s with ovr := true } else s.writeIdle size v l

/-- MemWrite (20_memory.md R65). -/
def State.memWrite (s : State) (addr : Offset) (size : Size) (v : Word) : State × BusResponse :=
  match s.locateTx addr size with
  | .error _ => (s, { resp := .error, rdata := none })
  | .at l => (s.writeLoc size v l, { resp := .okay, rdata := none })

/-- A host transaction and its response. -/
def State.transact (s : State) : BusTx → State × BusResponse
  | .read addr size => s.memRead addr size
  | .write addr size v => s.memWrite addr size v

/-- A host transaction, its response kept where the host finds it (log 7). -/
def State.busTurn (s : State) (t : BusTx) : State :=
  let r := s.transact t
  { r.1 with response := some r.2 }

/-- The platform's bus address of a block offset (20_memory.md R60; 00_scope.md R6). -/
def busAddress (p : Params) (addr : Offset) : Nat := p.base + addr.toNat

/-- The block offset of a bus address; none outside the block's window, which is no access to the block
(20_memory.md R60; log 13). -/
def offsetOfBusAddress (p : Params) (a : Nat) : Option Offset :=
  if p.base ≤ a ∧ a < p.base + Params.window then some (BitVec.ofNat 26 (a - p.base)) else none

end Sys2Proof.Machine
end

