-- ==== Sys2Proof/Machine/BitUnpacker.lean ====
section
/-! DEFINITION. The bit unpacker: UNPACK (44_bit_unpacker.md). -/

namespace Sys2Proof.Machine

/-- What decoding a payload gave: the bytes emitted, in order, and the error that stopped it, if any. -/
structure Unpacked where
  out : List Byte
  error : Option (ErrorCode × Word)
deriving DecidableEq, Repr

/-- The walk of UNPACK over so many more bits, from bit index i, at node cur, with the bytes emitted so far, last one
first (44_bit_unpacker.md R143). A node without the required child is CORRUPT_STREAM: of the nodes of a tree only a
leaf root is one (R145, R150); an EMPTY node breaks 10_state.md R43 (log 10). -/
def unpackFrom (s : State) : Nat → Nat → NodeIx → List Byte → Unpacked
  | 0, _, _, emitted => { out := emitted.reverse, error := none }
  | more + 1, i, cur, emitted =>
    let stop (e : ErrorCode) : Unpacked := { out := emitted.reverse, error := some (e, BitVec.ofNat 32 i) }
    if 8 * s.payLen.toNat ≤ i then stop .corruptStream
    else
      match s.nodeAt cur with
      | .leaf sym _ =>
        if s.payBit i then stop .corruptStream
        else if s.params.outCap ≤ emitted.length then stop .capacity
        else unpackFrom s more (i + 1) cur (sym :: emitted)
      | .internal left right _ =>
        let child := if s.payBit i then right else left
        match s.nodeAt child with
        | .leaf sym _ =>
          if s.params.outCap ≤ emitted.length then stop .capacity
          else unpackFrom s more (i + 1) s.root (sym :: emitted)
        | .internal _ _ _ => unpackFrom s more (i + 1) child emitted
        | .empty => unpackFrom s more (i + 1) child emitted
      | .empty => stop .corruptStream

/-- UNPACK's effect (44_bit_unpacker.md R143). The bytes emitted are in OUT_BUF, and OUT_LEN is their number, with an
error as without one (R152). -/
def unpackStage (s : State) : Result :=
  if !s.treeValid then .err 0x6 .sequence 0 { s with outLen := 0 }
  else if s.params.payCap < s.payLen.toNat then .err 0x6 .capacity s.payLen { s with outLen := 0 }
  else if sint32 s.numBits < 0 then .err 0x6 .corruptStream s.numBits { s with outLen := 0 }
  else
    let r := unpackFrom s s.numBits.toNat 0 s.root []
    let written := { s.storeBytes .outBuf 0 r.out with outLen := BitVec.ofNat 32 r.out.length }
    match r.error with
    | none => .ok written
    | some (e, info) => .err 0x6 e info written

/-- UNPACK (44_bit_unpacker.md R143). -/
def execUnpack (s : State) : Host.Outcome State Fault Refusal := (unpackStage s).outcome

end Sys2Proof.Machine
end

