-- ==== Sys2Proof/Machine/BitPacker.lean ====
section
/-! DEFINITION. The bit packer: PACK (43_bit_packer.md). -/

namespace Sys2Proof.Machine

/-- The index of the first byte whose symbol has no code (43_bit_packer.md R133, pass 1). -/
def State.firstWithoutCode (s : State) (input : List Byte) : Option Nat :=
  input.findIdx? fun sym => s.codeLenAt sym == 0

/-- The total number of code bits of the input (43_bit_packer.md R133, R135). -/
def State.packTotal (s : State) (input : List Byte) : Nat := (input.map fun sym => (s.codeLenAt sym).toNat).sum

/-- The code bits of the input: codes in buffer order, each first bit first (43_bit_packer.md R136). -/
def State.packBits (s : State) (input : List Byte) : List Bool := input.flatMap s.codeOf

/-- A failing PACK: NUMBITS and PAY_LEN are 0 and PAY_BUF is unchanged (43_bit_packer.md R133, `fail`). -/
def packFail (e : ErrorCode) (info : Word) (s : State) : Result := .err 0x5 e info { s with numBits := 0, payLen := 0 }

/-- PACK's effect (43_bit_packer.md R133): every check comes before the first payload byte is written (R137). -/
def packStage (s : State) : Result :=
  let n := s.inLen.toNat
  let input := s.bufferBytes .inBuf n
  if !s.codesValid then packFail .sequence 0 s
  else if s.params.inCap < n then packFail .capacity s.inLen s
  else if n = 0 then packFail .emptyInput 0 s
  else
    match s.firstWithoutCode input with
    | some j => packFail .noCode (BitVec.ofNat 32 j) s
    | none =>
      let total := s.packTotal input
      if 8 * s.params.payCap < total then packFail .capacity (BitVec.ofNat 32 total) s
      else
        .ok { s.storeBytes .payBuf 0 (payloadBytes (s.packBits input)) with
          numBits := BitVec.ofNat 32 total
          payLen := BitVec.ofNat 32 (ceilDiv8 total) }

/-- PACK (43_bit_packer.md R133). -/
def execPack (s : State) : Host.Outcome State Fault Refusal := (packStage s).outcome

end Sys2Proof.Machine
end

