-- ==== Sys2Proof/Machine/CodeGenerator.lean ====
section
/-! DEFINITION. The code generator: GENCODE (42_code_generator.md). -/

namespace Sys2Proof.Machine

/-- s in Syms(n): the symbol is that of a LEAF at or below node n (41_tree_builder.md R110). The fuel bounds the
depth; a path without a repeated node has at most 511 of them, so 511 is exact in every arena (log 11). -/
def symsContain (arena : NodeIx → Node) (sym : Symbol) : Nat → NodeIx → Bool
  | 0, _ => false
  | fuel + 1, n =>
    match arena n with
    | .empty => false
    | .leaf s _ => s == sym
    | .internal left right _ => symsContain arena sym fuel left || symsContain arena sym fuel right

/-- The number of entries of the arena, enough fuel for `symsContain`. -/
def arenaSize : Nat := 511

/-- The walk for a symbol from node n, with room for so many more code bits; none where it raises CORRUPT_TREE
(42_code_generator.md R123, R126). -/
def walkCode (arena : NodeIx → Node) (sym : Symbol) : Nat → NodeIx → Option (List Bool)
  | 0, n =>
    match arena n with
    | .leaf s _ => if s = sym then some [] else none
    | .internal _ _ _ => none
    | .empty => none
  | room + 1, n =>
    match arena n with
    | .leaf s _ => if s = sym then some [] else none
    | .internal left right _ =>
      if symsContain arena sym arenaSize left then (walkCode arena sym room left).map (false :: ·)
      else if symsContain arena sym arenaSize right then (walkCode arena sym room right).map (true :: ·)
      else none
    | .empty => none

/-- Some LEAF n < NUM_SYMS has NODE[n].SYM = s (42_code_generator.md R123). -/
def State.isLeafSymbol (s : State) (sym : Symbol) : Bool :=
  (List.range s.numSyms.toNat).any fun n =>
    match s.nodeAt (BitVec.ofNat 9 n) with
    | .leaf x _ => x == sym
    | .internal _ _ _ => false
    | .empty => false

/-- The codes that a GENCODE found, or the symbol that could not be placed. -/
inductive CodeResult
  | codes (table : Symbol → List Bool)
  | corrupt (sym : Symbol)

/-- The walks of the symbols in the given order, the first that fails ending them; a symbol of no leaf keeps no code
(42_code_generator.md R123). -/
def walkAll (s : State) : List Symbol → (Symbol → List Bool) → CodeResult
  | [], table => .codes table
  | sym :: rest, table =>
    if s.isLeafSymbol sym then
      match walkCode s.nodeAt sym 255 s.root with
      | some c => walkAll s rest fun x => if x = sym then c else table x
      | none => .corrupt sym
    else walkAll s rest table

/-- The code of every symbol present (42_code_generator.md R123 to R126). A single leaf gets "0" (R125); where SINGLE
is set and the root is no LEAF, which breaks 10_state.md R43, there is no symbol to place (log 10). -/
def findCodes (s : State) : CodeResult :=
  if s.single then
    match s.nodeAt s.root with
    | .leaf sym _ => .codes fun x => if x = sym then [false] else []
    | .internal _ _ _ => .corrupt (Config.absentSymbol s.root)
    | .empty => .corrupt (Config.absentSymbol s.root)
  else walkAll s allSymbols fun _ => []

/-- GENCODE's effect (42_code_generator.md R123): all codes or none (R127). -/
def gencodeStage (s : State) : Result :=
  if s.treeValid then
    match findCodes s with
    | .codes table =>
      .ok { s with
        codeLen := tabulate 256 fun i => BitVec.ofNat 8 (table (BitVec.ofNat 8 i)).length
        codeBits := tabulate 256 fun i => codeWord (table (BitVec.ofNat 8 i))
        codesValid := true }
    | .corrupt sym =>
      .err 0x4 .corruptTree (sym.setWidth 32)
        { s with
          codeLen := Vector.replicate 256 0
          codeBits := Vector.replicate 256 0
          codesValid := false }
  else .err 0x4 .sequence 0 s

/-- GENCODE (42_code_generator.md R123). -/
def execGencode (s : State) : Host.Outcome State Fault Refusal := (gencodeStage s).outcome

end Sys2Proof.Machine
end

