-- ==== Sys2Proof/Machine/FrequencyTable.lean ====
section
/-! DEFINITION. The frequency table: CLEAR and COUNT (40_frequency_table.md). -/

namespace Sys2Proof.Machine

/-- CLEAR's effect (40_frequency_table.md R101). -/
def clearStage (s : State) : Result :=
  .ok { s.invalidate with
    freq := Vector.replicate 256 0
    codeLen := Vector.replicate 256 0
    codeBits := Vector.replicate 256 0
    node := Vector.replicate 511 .empty
    numSyms := 0
    numNodes := 0
    root := 0 }

/-- FREQ[s] <- FREQ[s] + 1 (40_frequency_table.md R103). -/
def increment (freq : Vector Word 256) (sym : Symbol) : Vector Word 256 :=
  freq.set sym.toNat (freq[sym.toNat]'sym.isLt + 1) sym.isLt

/-- The counts of the bytes, from zero (40_frequency_table.md R103, R104). -/
def countBytes (bytes : List Byte) : Vector Word 256 := bytes.foldl increment (Vector.replicate 256 0)

/-- COUNT's effect (40_frequency_table.md R103): CAPACITY changes nothing; EMPTY_INPUT comes after FREQ is zeroed and
the tree invalidated (R106). -/
def countStage (s : State) : Result :=
  let n := s.inLen.toNat
  if s.params.inCap < n then .err 0x2 .capacity s.inLen s
  else if n = 0 then .err 0x2 .emptyInput 0 { s.invalidate with freq := Vector.replicate 256 0 }
  else .ok { s.invalidate with freq := countBytes (s.bufferBytes .inBuf n) }

/-- CLEAR (40_frequency_table.md R101). -/
def execClear (s : State) : Host.Outcome State Fault Refusal := (clearStage s).outcome

/-- COUNT (40_frequency_table.md R103). -/
def execCount (s : State) : Host.Outcome State Fault Refusal := (countStage s).outcome

end Sys2Proof.Machine
end

