-- ==== Sys2Proof/Machine/TreeBuilder.lean ====
section
/-! DEFINITION. The tree builder: BUILD (41_tree_builder.md). -/

namespace Sys2Proof.Machine

/-- The symbols present, in ascending order (41_tree_builder.md R112; 00_scope.md R13). -/
def State.presentSymbols (s : State) : List Symbol := allSymbols.filter fun sym => s.freqAt sym != 0

/-- The tree under construction: the nodes made so far, entry m of the list being NODE[m], and toDo. -/
structure Builder where
  nodes : List Node
  toDo : List NodeIx
deriving DecidableEq, Repr

/-- NODE[n].WEIGHT during construction. -/
def Builder.weightOf (b : Builder) (n : NodeIx) : Weight := (b.nodes.getD n.toNat .empty).weight

/-- Seeding: one leaf per symbol present, in ascending order, each inserted into toDo (41_tree_builder.md R112). -/
def seedTree (freqAt : Symbol → Word) (present : List Symbol) : Builder where
  nodes := present.map fun sym => .leaf sym ((freqAt sym).setWidth 40)
  toDo := (List.range present.length).map (BitVec.ofNat 9)

/-- The lexicographic order of the keys (WEIGHT, index) (41_tree_builder.md R114). -/
def keyBefore (weight : NodeIx → Weight) (a b : NodeIx) : Bool :=
  decide (weight a < weight b) || (weight a == weight b && decide (a < b))

/-- The entry with the least key among a first one and the rest. -/
def leastKey (weight : NodeIx → Weight) : NodeIx → List NodeIx → NodeIx
  | best, [] => best
  | best, n :: rest => leastKey weight (if keyBefore weight n best then n else best) rest

/-- RemoveMin: the entry with the least key, and the entries left (41_tree_builder.md R114). -/
def removeMin (weight : NodeIx → Weight) : List NodeIx → Option (NodeIx × List NodeIx)
  | [] => none
  | n :: rest => some (leastKey weight n rest, (n :: rest).erase (leastKey weight n rest))

/-- One merge: a is removed first and becomes RIGHT, b second and becomes LEFT; the new node takes the next index
(41_tree_builder.md R113). -/
def Builder.merge (b : Builder) : Builder :=
  match removeMin b.weightOf b.toDo with
  | none => b
  | some (first, rest) =>
    match removeMin b.weightOf rest with
    | none => b
    | some (second, rest') =>
      { nodes := b.nodes ++ [.internal second first (b.weightOf first + b.weightOf second)]
        toDo := rest' ++ [BitVec.ofNat 9 b.nodes.length] }

/-- Merging while toDo has more than one entry; each merge removes one, so as many rounds as toDo has entries are
enough (41_tree_builder.md R113, R115). -/
def Builder.mergeAll : Nat → Builder → Builder
  | 0, b => b
  | rounds + 1, b => if 1 < b.toDo.length then Builder.mergeAll rounds b.merge else b

/-- The finished tree of the symbols present (41_tree_builder.md R111). -/
def buildTree (freqAt : Symbol → Word) (present : List Symbol) : Builder :=
  (seedTree freqAt present).mergeAll present.length

/-- The arena whose first entries are the nodes and whose other entries are EMPTY (41_tree_builder.md R111). -/
def arenaOf (nodes : List Node) : Vector Node 511 := tabulate 511 fun i => nodes.getD i .empty

/-- BUILD's effect (41_tree_builder.md R111). ROOT is the one element of toDo, which is left empty. -/
def buildStage (s : State) : Result :=
  let cleared := { s.invalidate with node := Vector.replicate 511 .empty }
  let present := s.presentSymbols
  if present.length = 0 then .err 0x3 .emptyInput 0 { cleared with numSyms := 0, numNodes := 0, root := 0 }
  else
    let tree := buildTree s.freqAt present
    .ok { cleared with
      node := arenaOf tree.nodes
      root := tree.toDo.headD 0
      toDo := []
      numSyms := BitVec.ofNat 9 present.length
      numNodes := BitVec.ofNat 9 tree.nodes.length
      treeValid := true
      single := decide (present.length = 1) }

/-- BUILD (41_tree_builder.md R111). -/
def execBuild (s : State) : Host.Outcome State Fault Refusal := (buildStage s).outcome

end Sys2Proof.Machine
end

