-- ==== Sys2Proof/Machine/EntryPoints.lean ====
section
/-! DEFINITION. The encode entry point, ENCODE, and the persisted container (45_entry_points.md). -/

namespace Sys2Proof.Machine

/-- ENCODE's effect: COUNT, BUILD, GENCODE, PACK, stopping at the first error, whose ERR_OP is the stage's
(45_entry_points.md R154). -/
def encodeStage (s : State) : Result :=
  (((countStage s).andThen buildStage).andThen gencodeStage).andThen packStage

/-- ENCODE (45_entry_points.md R154). -/
def execEncode (s : State) : Host.Outcome State Fault Refusal := (encodeStage s).outcome

/-- Enc32 (45_entry_points.md R161). -/
def enc32 (v : Word) : ByteOrder → List Byte
  | .little => wordBytes v
  | .big => (wordBytes v).reverse

/-- The persisted payload that the host assembles from NUMBITS and PAY_BUF (45_entry_points.md R161). The rule forms it
after PACK or ENCODE, which leave NUMBITS at most 8 * PAY_CAP. DESIGN CHOICE: for any other NUMBITS, as the host may
write one, it is ceil(NUMBITS/8) bytes, NUMBITS as unsigned, the bytes at the offsets from PAY_BUF's base on (log 22). -/
def State.container (s : State) (order : ByteOrder) : List Byte :=
  enc32 s.numBits order ++ s.bufferBytes .payBuf (ceilDiv8 s.numBits.toNat)

/-- The persisted payload in the byte order of the platform (00_scope.md R6). -/
def State.hostContainer (s : State) : List Byte := s.container s.params.hostByteOrder

/-- What a container holds: the values the host writes to NUMBITS, PAY_LEN and PAY_BUF before an UNPACK
(45_entry_points.md R162). -/
structure Payload where
  numBits : Word
  payLen : Word
  bytes : List Byte
deriving DecidableEq, Repr

/-- The 32-bit value of four bytes in a byte order (45_entry_points.md R162). -/
def dec32 (order : ByteOrder) (b0 b1 b2 b3 : Byte) : Word :=
  match order with
  | .little => bytesWord b0 b1 b2 b3
  | .big => bytesWord b3 b2 b1 b0

/-- Parsing a container; what is shorter than 4 bytes is none (45_entry_points.md R162). -/
def parseContainer (order : ByteOrder) : List Byte → Option Payload
  | b0 :: b1 :: b2 :: b3 :: rest =>
    some { numBits := dec32 order b0 b1 b2 b3, payLen := BitVec.ofNat 32 rest.length, bytes := rest }
  | _ => none

end Sys2Proof.Machine
end

