-- ==== Sys2Proof/Machine/Engine.lean ====
section
/-! DEFINITION. The turns of the agents: the engine's completion step, a host transaction, a poll of WAIT, and reset
(10_state.md R20; 30_encoding.md R96; 70_reset_and_hazards.md R190, R205). -/

namespace Sys2Proof.Machine

/-- The completion of an illegal word: only the completion fields change (30_encoding.md R90). -/
def illegalCompletion (s : State) : State := raise (opcodeField s.curCmd) .illegalCmd s.curCmd s

/-- The engine's completion step: CUR_CMD is decoded now (30_encoding.md R89) and the whole command applied
(10_state.md R20). -/
def completionStep (s : State) : Host.Outcome State Fault Refusal :=
  match decode s.curCmd with
  | .command i => exec i s
  | .illegal _ => .next (illegalCompletion s)

/-- The engine's turn: it has a step only while STATUS.BUSY = 1 (10_state.md R20); while SEQ = IDLE it does nothing
(60_exceptions.md R185). -/
def engineTurn (s : State) : Host.Outcome State Fault Refusal :=
  if s.isBusy then completionStep s else .next s

/-- The offset of STATUS (10_state.md R23). -/
def statusOffset : Offset := 0x14

/-- One poll of WAIT: RD STATUS; while bit 0 of the value read is 1, the engine gets a turn, which fairness promises
it, and the host polls again (30_encoding.md R96; 70_reset_and_hazards.md R205; log 14). -/
def waitTurn (s : State) : State :=
  let polled := s.busTurn (.read statusOffset .four)
  if s.isBusy then { polled with agenda := .engine :: .wait :: polled.agenda } else polled

/-- The reset input: every piece of state takes its reset value at once, and the buffers hold any value, by a fresh
choice (70_reset_and_hazards.md R190; 93_implementation_defined.md U12). The parameters and the turns still to come
are no state of the block's that reset sets (log 15). -/
def resetTurn (s : State) : State :=
  { State.resetWith s.params with agenda := s.agenda, draws := s.draws, epoch := s.epoch + 1 }

/-- One turn, taken off the agenda. -/
def takeTurn (t : Turn) (s : State) : Host.Outcome State Fault Refusal :=
  match t with
  | .engine => engineTurn s
  | .bus tx => .next (s.busTurn tx)
  | .wait => .next (waitTurn s)
  | .reset => .next (resetTurn s)

end Sys2Proof.Machine
end

