-- ==== Sys2Proof/Machine/Step.lean ====
section
/-! DEFINITION. One step of the machine, and where it takes its next command from. -/

namespace Sys2Proof.Machine

/-- One step: the next turn of the agenda. With no turn left to the host, the engine has its turn: every accepted
command completes (70_reset_and_hazards.md R205; log 4). -/
def step (s : State) : Host.Outcome State Fault Refusal :=
  match s.agenda with
  | [] => engineTurn s
  | t :: rest => takeTurn t { s with agenda := rest }

/-- The state in which the command word w has just been accepted (30_encoding.md R88) and the next turn is the
engine's, so that the next step decodes and completes it. The block fetches nothing (20_memory.md R81): a write to
CMD is how a command comes to run (log 5). -/
def State.withFetchWord (s : State) (nbits w : Nat) : State :=
  { acceptCommand (BitVec.ofNat 32 (w % 2 ^ nbits)) s with agenda := .engine :: s.agenda }

end Sys2Proof.Machine
end

