-- ==== Sys2Proof/Machine/HostProgram.lean ====
section
/-! DEFINITION. Host programs in the assembler syntax of 30_encoding.md R95, R96: each line is one or more turns of
the host. -/

namespace Sys2Proof.Machine

/-- A target of a host program line (30_encoding.md R95). -/
inductive Target
  | reg (r : Reg)
  | freq (sym : Symbol)
  | codeLen (sym : Symbol)
  | codeBits (sym : Symbol) (w : Fin 8)
  | node (n : NodeIx) (w : Fin 4)
  | buffer (b : Buffer) (j : Nat)
  | literal (offset : Offset)
deriving DecidableEq, Repr

/-- addr(t) (30_encoding.md R95; 10_state.md R23). A line that names a buffer byte j at or beyond 2^24 names no offset
of that buffer (20_memory.md R61); DESIGN CHOICE: its address is cut to 26 bits (log 21). -/
def Target.addr : Target → Offset
  | .reg r => BitVec.ofNat 26 (4 * regTable.idxOf r)
  | .freq sym => BitVec.ofNat 26 (0x400 + 4 * sym.toNat)
  | .codeLen sym => BitVec.ofNat 26 (0x800 + 4 * sym.toNat)
  | .codeBits sym w => BitVec.ofNat 26 (0x1000 + 32 * sym.toNat + 4 * w.val)
  | .node n w => BitVec.ofNat 26 (0x4000 + 16 * n.toNat + 4 * w.val)
  | .buffer b j => BitVec.ofNat 26 (bufferBase b + j)
  | .literal offset => offset

/-- A line of a host program (30_encoding.md R95, R96), and a reset pulse (30_encoding.md R94). -/
inductive Line
  | wr (t : Target) (imm : Word)
  | wrh (t : Target) (imm : BitVec 16)
  | wrb (t : Target) (imm : Byte)
  | rd (t : Target)
  | rdh (t : Target)
  | rdb (t : Target)
  | cmd (i : Instr)
  | wait
  | run (i : Instr)
  | clrDone
  | clrOvr
  | load (b : Buffer) (j : Nat) (bytes : List Byte)
  | reset
deriving DecidableEq, Repr

/-- LOAD: one WRB for each byte, in order (30_encoding.md R96). -/
def loadTurns (b : Buffer) : Nat → List Byte → List Turn
  | _, [] => []
  | j, v :: rest => .bus (.write (Target.buffer b j).addr .one (v.setWidth 32)) :: loadTurns b (j + 1) rest

/-- The turns of a line (30_encoding.md R95, R96). -/
def Line.turns : Line → List Turn
  | .wr t imm => [.bus (.write t.addr .four imm)]
  | .wrh t imm => [.bus (.write t.addr .two (imm.setWidth 32))]
  | .wrb t imm => [.bus (.write t.addr .one (imm.setWidth 32))]
  | .rd t => [.bus (.read t.addr .four)]
  | .rdh t => [.bus (.read t.addr .two)]
  | .rdb t => [.bus (.read t.addr .one)]
  | .cmd i => [.bus (.write (Target.reg .cmd).addr .four (encode i))]
  | .wait => [.wait]
  | .run i => [.bus (.write (Target.reg .cmd).addr .four (encode i)), .wait]
  | .clrDone => [.bus (.write (Target.reg .status).addr .four 0x00000002)]
  | .clrOvr => [.bus (.write (Target.reg .status).addr .four 0x00000004)]
  | .load b j bytes => loadTurns b j bytes
  | .reset => [.reset]

/-- The state in which the host's next turns are those of a program. -/
def State.withProgram (s : State) (program : List Line) : State :=
  { s with agenda := program.flatMap Line.turns ++ s.agenda }

/-- The turns by which the host submits a container for decoding: NUMBITS, PAY_LEN and PAY_BUF, then UNPACK
(45_entry_points.md R162). Of a payload longer than PAY_BUF the rule names no write that could land: DESIGN CHOICE, the
host still writes each byte j < 2^24, those from PAY_CAP on getting an ERROR response, and none that has no offset in
PAY_BUF; UNPACK then raises CAPACITY(PAY_LEN) (log 21). -/
def submitPayload (numBits payLen : Word) (bytes : List Byte) : List Line :=
  [.wr (.reg .numBits) numBits, .wr (.reg .payLen) payLen, .load .payBuf 0 (bytes.take Params.maxCap), .run .unpack]

end Sys2Proof.Machine
end

