-- ==== Sys2Proof/Safety.lean ====
section
/-! DEFINITION. What a good state is: the shape of a valid tree (10_state.md R43), the codes that belong to it (R44),
and the invariant of the machine; and the words in which claims say what a command leaves alone. -/

namespace Sys2Proof.Machine

/-! ### Trees and codes -/

/-- p is an INTERNAL node with n as a child. -/
def IsParent (arena : NodeIx → Node) (p n : NodeIx) : Prop :=
  ∃ left right w, arena p = .internal left right w ∧ (left = n ∨ right = n)

/-- The node that a code leads to from node n, each bit taken at an INTERNAL node: LEFT for 0, RIGHT for 1
(00_scope.md R12); none where a bit is left over at a node without children. -/
def follow (arena : NodeIx → Node) : NodeIx → List Bool → Option NodeIx
  | n, [] => some n
  | n, b :: rest =>
    match arena n with
    | .internal left right _ => follow arena (if b then right else left) rest
    | .leaf _ _ => none
    | .empty => none

/-- The order of the keys (WEIGHT, index) of toDo (41_tree_builder.md R114). -/
def KeyLess (weight : NodeIx → Weight) (a b : NodeIx) : Prop :=
  (weight a).toNat < (weight b).toNat ∨ ((weight a).toNat = (weight b).toNat ∧ a.toNat < b.toNat)

/-- The node is in toDo when node m is about to be created: it exists by then and no node before m has it as a child
(41_tree_builder.md R112, R113). -/
def Pending (arena : NodeIx → Node) (m n : NodeIx) : Prop :=
  n.toNat < m.toNat ∧ ∀ p : NodeIx, p.toNat < m.toNat → ¬IsParent arena p n

/-- The merge that created an INTERNAL node m removed the entry with the least key first, which is RIGHT, and the one
with the least key of the others second, which is LEFT (41_tree_builder.md R113, R114). -/
def MergesLeastTwo (arena : NodeIx → Node) : Prop :=
  ∀ m left right w, arena m = .internal left right w →
    Pending arena m right ∧ (∀ n, Pending arena m n → n ≠ right → KeyLess (fun x => (arena x).weight) right n) ∧
    Pending arena m left ∧ left ≠ right ∧
    ∀ n, Pending arena m n → n ≠ right → n ≠ left → KeyLess (fun x => (arena x).weight) left n

/-- The code leads from the root to the LEAF of a symbol, so that it is that leaf's path (42_code_generator.md
R124). -/
def LeadsTo (s : State) (code : List Bool) (sym : Symbol) : Prop :=
  ∃ n w, follow s.nodeAt s.root code = some n ∧ s.nodeAt n = .leaf sym w

/-- The shape of the node arena while TREE_VALID = 1 (10_state.md R43), for the frequency table it was built from. -/
structure TreeShape (s : State) : Prop where
  /-- There is a symbol, and there are at most 256. -/
  symbols : 1 ≤ s.numSyms.toNat ∧ s.numSyms.toNat ≤ 256
  /-- k leaves make 2k - 1 nodes (10_state.md R35). -/
  nodes : s.numNodes.toNat = 2 * s.numSyms.toNat - 1
  /-- The root is the last node created (41_tree_builder.md R115, R116). -/
  root : s.root.toNat = s.numNodes.toNat - 1
  /-- SINGLE = (k = 1) (10_state.md R31). -/
  single : s.single = decide (s.numSyms.toNat = 1)
  /-- Entries 0 .. NUM_NODES-1 are non-EMPTY and the rest EMPTY. -/
  filled : ∀ n : NodeIx, s.nodeAt n = .empty ↔ s.numNodes.toNat ≤ n.toNat
  /-- Entries 0 .. NUM_SYMS-1 are the LEAF nodes, each with its symbol's count as weight. -/
  leaves : ∀ n : NodeIx, n.toNat < s.numSyms.toNat → ∃ sym, s.nodeAt n = .leaf sym ((s.freqAt sym).setWidth 40)
  /-- The leaves are in ascending symbol order. -/
  ascending : ∀ (m n : NodeIx) (x y : Symbol) (v w : Weight),
    s.nodeAt m = .leaf x v → s.nodeAt n = .leaf y w → m.toNat < n.toNat → x.toNat < y.toNat
  /-- There is one LEAF per symbol present. -/
  present : ∀ sym, s.freqAt sym ≠ 0 ↔ ∃ n w, s.nodeAt n = .leaf sym w
  /-- Entries NUM_SYMS .. NUM_NODES-1 are INTERNAL; their children have lower indices and differ, and the weight is
  the exact sum of the children's (41_tree_builder.md R119). -/
  internals : ∀ n : NodeIx, s.numSyms.toNat ≤ n.toNat → n.toNat < s.numNodes.toNat →
    ∃ left right w, s.nodeAt n = .internal left right w ∧ left.toNat < n.toNat ∧ right.toNat < n.toNat ∧
      left ≠ right ∧ w.toNat = (s.nodeAt left).weight.toNat + (s.nodeAt right).weight.toNat
  /-- Every node other than ROOT is the child of exactly one INTERNAL node. -/
  oneParent : ∀ n : NodeIx, n.toNat < s.numNodes.toNat → n ≠ s.root → ∃! p, IsParent s.nodeAt p n
  /-- ROOT is the child of none. -/
  rootTop : ∀ p, ¬ IsParent s.nodeAt p s.root

/-- The code table while CODES_VALID = 1 (10_state.md R44): exactly the symbols of the tree have a code, which is
the root-to-leaf path, or "0" when SINGLE = 1 (42_code_generator.md R124, R125). -/
structure CodesMatch (s : State) : Prop where
  /-- A symbol has a code exactly when it is a LEAF's. -/
  defined : ∀ sym, s.codeLenAt sym ≠ 0 ↔ ∃ n w, s.nodeAt n = .leaf sym w
  /-- The code of a one-symbol tree. -/
  oneSymbol : s.single = true → ∀ sym, s.codeLenAt sym ≠ 0 → s.codeOf sym = [false]
  /-- The codes of a tree with two symbols or more. -/
  paths : s.single = false → ∀ sym, s.codeLenAt sym ≠ 0 → LeadsTo s (s.codeOf sym) sym

/-- The bits are codes of the tree, one after another, and the symbols are theirs, in order. For a tree with two
symbols or more. -/
inductive CodeSequence (s : State) : List Bool → List Symbol → Prop
  | none : CodeSequence s [] []
  | code {c rest : List Bool} {sym : Symbol} {out : List Symbol} (hcode : LeadsTo s c sym)
      (hrest : CodeSequence s rest out) : CodeSequence s (c ++ rest) (sym :: out)

/-- The bits are no complete code: their walk from the root ends at an INTERNAL node (44_bit_unpacker.md R148). -/
def Incomplete (s : State) (bits : List Bool) : Prop :=
  ∃ n left right w, follow s.nodeAt s.root bits = some n ∧ s.nodeAt n = .internal left right w

/-- The bits are codes of the tree, whose symbols are out, and then an incomplete code, which may be empty
(44_bit_unpacker.md R143, R148). -/
def Decodes (s : State) (bits : List Bool) (out : List Symbol) : Prop :=
  ∃ front tail, bits = front ++ tail ∧ CodeSequence s front out ∧ Incomplete s tail

/-- Bits i, i+1, ... of the payload, n of them (20_memory.md R74). -/
def payloadBits (s : State) (i n : Nat) : List Bool := (List.range n).map fun t => s.payBit (i + t)

/-- No code is a prefix of another (42_code_generator.md R128). -/
def PrefixFree (s : State) : Prop :=
  ∀ x y, s.codeLenAt x ≠ 0 → s.codeLenAt y ≠ 0 → s.codeOf x <+: s.codeOf y → x = y

/-! ### The invariant of the machine -/

/-- Every byte held lies in a buffer, below its capacity (20_memory.md R61, R76). -/
def MemoryMapped (s : State) : Prop :=
  ∀ a v, (a, v) ∈ s.mem → ∃ b : Buffer, bufferBase b ≤ a ∧ a < bufferBase b + capacity s.params b

/-- The invariant that every step keeps. -/
structure State.Inv (s : State) : Prop where
  /-- The parameters are legal (00_scope.md R6). -/
  params : s.params.wellFormed = true
  /-- The memory is in canonical form (log 2). -/
  memory : s.mem.wf = true
  /-- The memory holds bytes of the buffers only. -/
  mapped : MemoryMapped s
  /-- toDo is empty outside BUILD (10_state.md R39). -/
  toDo : s.toDo = []
  /-- CODES_VALID = 1 implies TREE_VALID = 1 (10_state.md R31). -/
  codesNeedTree : s.codesValid = true → s.treeValid = true
  /-- SINGLE = 1 implies TREE_VALID = 1 (10_state.md R31). -/
  singleNeedsTree : s.single = true → s.treeValid = true
  /-- While a command runs, DONE, ERR_CODE, ERR_OP and ERR_INFO are clear (70_reset_and_hazards.md R197). -/
  running : s.seq = .busy → s.done = false ∧ s.errCode = .none ∧ s.errOp = 0 ∧ s.errInfo = 0
  /-- ERR_OP is 0 when ERR_CODE = 0 (10_state.md R27), and ERR_INFO is then 0 too (60_exceptions.md R166). -/
  noError : s.errCode = .none → s.errOp = 0 ∧ s.errInfo = 0
  /-- A valid tree has its shape (10_state.md R43). -/
  tree : s.treeValid = true → TreeShape s
  /-- Valid codes are those of the tree (10_state.md R44). -/
  codes : s.codesValid = true → CodesMatch s

/-! ### What stays the same -/

/-- What no command writes (30_encoding.md R91), with the model's own fields. -/
structure KeepsHostState (s t : State) : Prop where
  params : t.params = s.params
  curCmd : t.curCmd = s.curCmd
  ovr : t.ovr = s.ovr
  doneIe : t.doneIe = s.doneIe
  ovrIe : t.ovrIe = s.ovrIe
  inLen : t.inLen = s.inLen
  agenda : t.agenda = s.agenda
  response : t.response = s.response
  draws : t.draws = s.draws
  epoch : t.epoch = s.epoch

/-- Every byte of memory outside the n bytes of buffer b from its start reads as before. -/
def KeepsBytesOutside (s t : State) (b : Buffer) (n : Nat) : Prop :=
  ∀ a, a < bufferBase b ∨ bufferBase b + n ≤ a → t.byteAt a = s.byteAt a

/-- Every byte of memory reads as before. -/
def KeepsBytes (s t : State) : Prop := ∀ a, t.byteAt a = s.byteAt a

/-- The command completed without error (60_exceptions.md R167). -/
structure Completed (t : State) : Prop where
  seq : t.seq = .idle
  done : t.done = true
  errCode : t.errCode = .none
  errOp : t.errOp = 0
  errInfo : t.errInfo = 0

/-- The command completed with an error (60_exceptions.md R168). -/
structure Raised (t : State) (op : BitVec 4) (e : ErrorCode) (info : Word) : Prop where
  seq : t.seq = .idle
  done : t.done = true
  errCode : t.errCode = e
  errOp : t.errOp = op
  errInfo : t.errInfo = info

/-- A piece of state named in a write set is as before (30_encoding.md R91). -/
def Item.Same (s t : State) : Item → Prop
  | .freq => t.freq = s.freq
  | .node => t.node = s.node
  | .codeLen => t.codeLen = s.codeLen
  | .codeBits => t.codeBits = s.codeBits
  | .numSyms => t.numSyms = s.numSyms
  | .numNodes => t.numNodes = s.numNodes
  | .root => t.root = s.root
  | .treeValid => t.treeValid = s.treeValid
  | .codesValid => t.codesValid = s.codesValid
  | .single => t.single = s.single
  | .payBuf => ∀ j, j < s.params.payCap → t.bufferByte .payBuf j = s.bufferByte .payBuf j
  | .numBits => t.numBits = s.numBits
  | .payLen => t.payLen = s.payLen
  | .outBuf => ∀ j, j < s.params.outCap → t.bufferByte .outBuf j = s.bufferByte .outBuf j
  | .outLen => t.outLen = s.outLen

/-- Everything but the listed pieces of state, the completion fields, toDo and memory is as before (30_encoding.md
R91); of the buffers, those that are not listed are. -/
structure KeepsAllBut (written : List Item) (s t : State) : Prop where
  hostState : KeepsHostState s t
  items : ∀ i, i ∉ written → i.Same s t

end Sys2Proof.Machine
end

