-- ==== Sys2Proof/Certificates/Slice0/Obligations.lean ====
section
/-! DEFINITION. The statements for the provers, from the numbered rules of spec/. -/

open Sys2Proof Sys2Proof.Machine

/-! ### Encoding -/

/-- A word means a command exactly when it is that command's word, and the bytes of a command's word decode to it
wherever they stand at the head (30_encoding.md R86, R87, R89). -/
def Obligations.WordMeansCommandExactlyWhenEncoded : Prop :=
  ∀ (i : Instr) (w : Word) (rest : List Byte), i.wellFormed = true →
    (decode w = .command i ↔ w = encode i) ∧ decodeBytes (encodeBytes i ++ rest) = (.command i, rest)

/-- The opcode map over all words, with the words written as numbers (30_encoding.md R87, R89). -/
def Obligations.DecodeIsTheOpcodeMap : Prop :=
  ∀ w : Word,
    (decode w = .command .clear ↔ w = 0x00000001) ∧ (decode w = .command .count ↔ w = 0x00000002) ∧
    (decode w = .command .build ↔ w = 0x00000003) ∧ (decode w = .command .gencode ↔ w = 0x00000004) ∧
    (decode w = .command .pack ↔ w = 0x00000005) ∧ (decode w = .command .unpack ↔ w = 0x00000006) ∧
    (decode w = .command .encode ↔ w = 0x00000007) ∧
    ((∃ e, decode w = .illegal e) ↔ w.extractLsb' 4 28 ≠ 0 ∨ w.extractLsb' 0 4 = 0 ∨ 8 ≤ (w.extractLsb' 0 4).toNat)

/-- Words written out bit by bit from the encoding table decode to their commands (30_encoding.md R86, R87, R90). -/
def Obligations.WrittenWordsDecode : Prop :=
  decode 0b00000000000000000000000000000001#32 = .command .clear ∧
  decode 0b00000000000000000000000000000010#32 = .command .count ∧
  decode 0b00000000000000000000000000000011#32 = .command .build ∧
  decode 0b00000000000000000000000000000100#32 = .command .gencode ∧
  decode 0b00000000000000000000000000000101#32 = .command .pack ∧
  decode 0b00000000000000000000000000000110#32 = .command .unpack ∧
  decode 0b00000000000000000000000000000111#32 = .command .encode ∧
  decode 0b00000000000000000000000000000000#32 = .illegal .reservedOpcode ∧
  decode 0b00000000000000000000000000001000#32 = .illegal .reservedOpcode ∧
  decode 0b00000000000000000000000000010010#32 = .illegal .reservedBits

/-! ### Steps, acceptance and completion -/

/-- A step of a busy engine whose turn it is runs the command that CUR_CMD decodes to, as `exec` says, in the state
less the turn taken (10_state.md R20; 30_encoding.md R89). The agenda is the model's own (log 4). -/
def Obligations.StepRunsDecodedCommand : Prop :=
  ∀ (s : State) (i : Instr), s.seq = .busy → decode s.curCmd = .command i →
    (s.agenda = [] → step s = exec i s) ∧
    ∀ rest, s.agenda = .engine :: rest → step s = exec i { s with agenda := rest }

/-- A command accepted by `withFetchWord` runs in the very next step (30_encoding.md R88; log 5). -/
def Obligations.FetchedWordRunsNext : Prop :=
  ∀ (s : State) (w : Word) (i : Instr), decode w = .command i →
    step (s.withFetchWord 32 w.toNat) = exec i (acceptCommand w s)

/-- An illegal word changes no state except the completion fields (30_encoding.md R90). The agenda, from which the
engine's turn is taken, is the model's own (log 4). -/
def Obligations.IllegalWordOnlyCompletes : Prop :=
  ∀ s : State, s.seq = .busy →
    (s.curCmd.extractLsb' 4 28 ≠ 0 ∨ s.curCmd.extractLsb' 0 4 = 0 ∨ 8 ≤ (s.curCmd.extractLsb' 0 4).toNat) →
    (s.agenda = [] →
      step s = .next { s with
        errCode := .illegalCmd, errOp := s.curCmd.extractLsb' 0 4, errInfo := s.curCmd, seq := .idle, done := true }) ∧
    ∀ rest, s.agenda = .engine :: rest →
      step s = .next { s with
        agenda := rest
        errCode := .illegalCmd, errOp := s.curCmd.extractLsb' 0 4, errInfo := s.curCmd, seq := .idle, done := true }

/-- A write of any value to CMD is accepted while SEQ = IDLE, with exactly the effects of acceptance, and is not
accepted while SEQ = BUSY (30_encoding.md R88). -/
def Obligations.CmdWriteIsAcceptedWhileIdle : Prop :=
  ∀ (s : State) (v : Word),
    (s.seq = .idle →
      s.transact (.write 0x10 .four v) =
        ({ s with seq := .busy, curCmd := v, done := false, errCode := .none, errOp := 0, errInfo := 0 },
          { resp := .okay, rdata := none })) ∧
    (s.seq = .busy →
      s.transact (.write 0x10 .four v) = ({ s with ovr := true }, { resp := .okay, rdata := none }))

/-- A host turn performs one transaction and keeps its response (20_memory.md R77; log 7); while SEQ = IDLE the
engine's turn does nothing (10_state.md R20; 60_exceptions.md R185). The turns on the agenda, and that with none left
the engine moves, are the model's own (log 4). -/
def Obligations.HostTurnsAndIdleTurns : Prop :=
  ∀ s : State,
    (∀ tx rest, s.agenda = .bus tx :: rest →
      step s = .next { (State.transact { s with agenda := rest } tx).1 with
        response := some (State.transact { s with agenda := rest } tx).2 }) ∧
    (s.seq = .idle →
      (s.agenda = [] → step s = .next s) ∧
      ∀ rest, s.agenda = .engine :: rest → step s = .next { s with agenda := rest })

/-- WAIT polls STATUS, and polls again after a turn of the engine as long as BUSY is 1 (30_encoding.md R96; log 14). -/
def Obligations.WaitPollsUntilIdle : Prop :=
  ∀ (s : State) (rest : List Turn), s.agenda = .wait :: rest →
    ∃ t, step s = .next t ∧ t = { s with agenda := t.agenda, response := t.response, draws := t.draws } ∧
      (s.seq = .idle → t.agenda = rest ∧ t.response = some { resp := .okay, rdata := some s.statusWord }) ∧
      (s.seq = .busy → t.agenda = .engine :: .wait :: rest ∧
        ∃ v : Word, t.response = some { resp := .okay, rdata := some v } ∧ v.getLsbD 0 = true)

/-- No step faults or refuses, and every accepted command completes, at the latest when the turns on the agenda are
done (70_reset_and_hazards.md R205; 60_exceptions.md R167, R168; 20_memory.md R69, R70). The bound is the model's
scheduling (log 4). -/
def Obligations.AcceptedCommandCompletes : Prop :=
  ∀ s : State, (∃ t, step s = .next t) ∧
    (s.seq = .busy →
      ∃ k t, k ≤ s.agenda.length + 2 ∧ Host.Core.run Sys2Proof.core k s = .next t ∧ t.seq = .idle)

/-- Every command ends with SEQ idle and DONE set; without error ERR_OP and ERR_INFO are 0, and with an error ERR_OP
is the command's opcode or, in ENCODE, a stage's (60_exceptions.md R166, R167, R168; 10_state.md R32). -/
def Obligations.EveryCommandCompletes : Prop :=
  ∀ (i : Instr) (s : State), ∃ t, exec i s = .next t ∧ t.seq = .idle ∧ t.done = true ∧
    (t.errCode = .none → t.errOp = 0 ∧ t.errInfo = 0) ∧
    (t.errCode ≠ .none → i ≠ .encode → t.errOp = opcodeOf i) ∧
    (t.errCode ≠ .none → i = .encode → t.errOp = 2 ∨ t.errOp = 3 ∨ t.errOp = 4 ∨ t.errOp = 5) ∧
    (t.errCode = .emptyInput ∨ t.errCode = .sequence → t.errInfo = 0)

/-- Each command writes its write set and nothing else: the table of 30_encoding.md R91, with the bytes of memory and
the buffers it does not name (10_state.md R40). -/
def Obligations.CommandsWriteOnlyTheirWriteSet : Prop :=
  ∀ (i : Instr) (s t : State), s.params.wellFormed = true → exec i s = .next t →
    KeepsAllBut
      (match i with
        | .clear =>
          [.freq, .node, .codeLen, .codeBits, .numSyms, .numNodes, .root, .treeValid, .codesValid, .single]
        | .count => [.freq, .treeValid, .codesValid, .single]
        | .build => [.node, .numSyms, .numNodes, .root, .treeValid, .codesValid, .single]
        | .gencode => [.codeLen, .codeBits, .codesValid]
        | .pack => [.payBuf, .numBits, .payLen]
        | .unpack => [.outBuf, .outLen]
        | .encode =>
          [.freq, .node, .codeLen, .codeBits, .numSyms, .numNodes, .root, .treeValid, .codesValid, .single, .payBuf,
            .numBits, .payLen]) s t ∧
    (∀ j, j < s.params.inCap → t.bufferByte .inBuf j = s.bufferByte .inBuf j) ∧
    (i = .clear ∨ i = .count ∨ i = .build ∨ i = .gencode → KeepsBytes s t) ∧
    (i = .pack ∨ i = .encode → KeepsBytesOutside s t .payBuf s.params.payCap) ∧
    (i = .unpack → KeepsBytesOutside s t .outBuf s.params.outCap) ∧
    (i ≠ .build → i ≠ .encode → t.toDo = s.toDo) ∧ (s.toDo = [] → t.toDo = [])

/-- The interrupt output: a level, (DONE and DONE_IE) or (OVR and OVR_IE), in every state; and where it rises and falls: a
command's completion, with or without error, the acceptance of a command, a write to STATUS, a write to IRQ_EN, and a
dropped write (60_exceptions.md R175, R176). -/
def Obligations.InterruptLevel : Prop :=
  (∀ s : State, s.irq = true ↔ (s.done = true ∧ s.doneIe = true) ∨ (s.ovr = true ∧ s.ovrIe = true)) ∧
  (∀ (i : Instr) (s t : State), exec i s = .next t → t.irq = (s.doneIe || (s.ovr && s.ovrIe))) ∧
  (∀ (v : Word) (s : State), (acceptCommand v s).irq = (s.ovr && s.ovrIe)) ∧
  (∀ (v : Word) (s : State), (s.transact (.write 0x14 .four v)).1.irq =
    ((s.done && !v.getLsbD 1 && s.doneIe) || (s.ovr && !v.getLsbD 2 && s.ovrIe))) ∧
  (∀ (v : Word) (s : State), (s.transact (.write 0x18 .four v)).1.irq =
    ((s.done && v.getLsbD 0) || (s.ovr && v.getLsbD 1))) ∧
  ∀ (s : State) (addr : Offset) (size : Size) (v : Word), s.seq = .busy →
    ¬(addr = 0x14 ∧ size = .four) → ¬(addr = 0x18 ∧ size = .four) →
    (s.transact (.read addr size)).2.resp = .okay →
    (s.transact (.write addr size v)).1.irq = ((s.done && s.doneIe) || s.ovrIe)

/-! ### CLEAR and COUNT -/

/-- CLEAR resets every table and touches nothing else (40_frequency_table.md R101). -/
def Obligations.ClearEmptiesEveryTable : Prop :=
  ∀ s : State, ∃ t, exec .clear s = .next t ∧ Completed t ∧
    (∀ x, t.freqAt x = 0 ∧ t.codeLenAt x = 0 ∧ t.codeBitsAt x = 0) ∧ (∀ n, t.nodeAt n = .empty) ∧
    t.numSyms = 0 ∧ t.numNodes = 0 ∧ t.root = 0 ∧
    t.treeValid = false ∧ t.codesValid = false ∧ t.single = false ∧
    KeepsAllBut [.freq, .node, .codeLen, .codeBits, .numSyms, .numNodes, .root, .treeValid, .codesValid, .single] s t ∧
    t.toDo = s.toDo ∧ KeepsBytes s t

/-- COUNT of an input that fits completes; FREQ[s] is the number of input bytes equal to s, and the entries sum to
IN_LEN (40_frequency_table.md R105; 10_state.md R45). -/
def Obligations.CountCountsTheInput : Prop :=
  ∀ s : State, 1 ≤ s.inLen.toNat → s.inLen.toNat ≤ s.params.inCap →
    ∃ t, exec .count s = .next t ∧ Completed t ∧
      (∀ x, (t.freqAt x).toNat =
        ((List.range s.inLen.toNat).filter fun j => decide (s.bufferByte .inBuf j = x)).length) ∧
      ((List.range 256).map fun x => (t.freqAt (BitVec.ofNat 8 x)).toNat).sum = s.inLen.toNat ∧
      t.treeValid = false ∧ t.codesValid = false ∧ t.single = false ∧
      KeepsAllBut [.freq, .treeValid, .codesValid, .single] s t ∧ t.toDo = s.toDo ∧ KeepsBytes s t

/-- COUNT's errors, in the order of its checks: CAPACITY, which changes nothing, and then EMPTY_INPUT, after FREQ is
zeroed and the tree invalidated (40_frequency_table.md R103, R106). -/
def Obligations.CountRefusesInOrder : Prop :=
  ∀ s : State,
    (s.params.inCap < s.inLen.toNat →
      exec .count s = .next { s with
        errCode := .capacity, errOp := 2, errInfo := s.inLen, seq := .idle, done := true }) ∧
    (s.inLen.toNat = 0 →
      ∃ t, exec .count s = .next t ∧ Raised t 2 .emptyInput 0 ∧ (∀ x, t.freqAt x = 0) ∧
        t.treeValid = false ∧ t.codesValid = false ∧ t.single = false ∧
        KeepsAllBut [.freq, .treeValid, .codesValid, .single] s t ∧ t.toDo = s.toDo ∧ KeepsBytes s t)

/-- COUNT does not depend on what FREQ held before (40_frequency_table.md R104). -/
def Obligations.CountForgetsOldCounts : Prop :=
  ∀ (s : State) (old : Vector Word 256), s.inLen.toNat ≤ s.params.inCap →
    exec .count { s with freq := old } = exec .count s

/-! ### BUILD -/

/-- BUILD with a symbol present completes with a valid tree of the shape of 10_state.md R43 (41_tree_builder.md R111,
R112, R118). -/
def Obligations.BuildMakesAFullTree : Prop :=
  ∀ s : State, (∃ x, s.freqAt x ≠ 0) →
    ∃ t, exec .build s = .next t ∧ Completed t ∧ TreeShape t ∧ t.treeValid = true ∧ t.codesValid = false ∧
      t.toDo = [] ∧
      KeepsAllBut [.node, .numSyms, .numNodes, .root, .treeValid, .codesValid, .single] s t ∧ KeepsBytes s t

/-- BUILD's merges: with k symbols present there are 2k - 1 nodes and the root is the last; each INTERNAL node takes
the two least entries of toDo, by weight and then index, the first as RIGHT and the second as LEFT, and weighs their
sum (41_tree_builder.md R113, R114, R115). -/
def Obligations.BuildMergesTheTwoLeast : Prop :=
  ∀ (s : State) (k : Nat), k = ((List.range 256).filter fun x => decide (s.freqAt (BitVec.ofNat 8 x) ≠ 0)).length →
    1 ≤ k →
    ∃ t, exec .build s = .next t ∧ t.numSyms.toNat = k ∧ t.numNodes.toNat = 2 * k - 1 ∧ t.root.toNat = 2 * k - 2 ∧
      MergesLeastTwo t.nodeAt ∧
      ∀ m : NodeIx, k ≤ m.toNat → m.toNat < 2 * k - 1 →
        ∃ left right w, t.nodeAt m = .internal left right w ∧
          w.toNat = (t.nodeAt left).weight.toNat + (t.nodeAt right).weight.toNat

/-- BUILD with every FREQ entry 0 raises EMPTY_INPUT and leaves the tree empty and invalid (41_tree_builder.md R111,
R117). -/
def Obligations.BuildOfNothingIsEmptyInput : Prop :=
  ∀ s : State, (∀ x, s.freqAt x = 0) →
    ∃ t, exec .build s = .next t ∧ Raised t 3 .emptyInput 0 ∧ (∀ n, t.nodeAt n = .empty) ∧
      t.numSyms = 0 ∧ t.numNodes = 0 ∧ t.root = 0 ∧
      t.treeValid = false ∧ t.codesValid = false ∧ t.single = false ∧
      KeepsAllBut [.node, .numSyms, .numNodes, .root, .treeValid, .codesValid, .single] s t ∧
      t.toDo = s.toDo ∧ KeepsBytes s t

/-- Two BUILDs from equal frequency tables produce equal arenas and tree registers (41_tree_builder.md R120). -/
def Obligations.BuildIsAFunctionOfFreq : Prop :=
  ∀ s u : State, (∀ x, s.freqAt x = u.freqAt x) →
    ∃ t v, exec .build s = .next t ∧ exec .build u = .next v ∧ t.node = v.node ∧ t.numSyms = v.numSyms ∧
      t.numNodes = v.numNodes ∧ t.root = v.root ∧ t.single = v.single ∧ t.treeValid = v.treeValid ∧
      t.codesValid = v.codesValid ∧ t.errCode = v.errCode

/-! ### GENCODE -/

/-- GENCODE on a valid tree completes; every symbol of a LEAF gets its root-to-leaf path, or "0" in a one-symbol
tree, and every other symbol gets none (42_code_generator.md R124, R125). -/
def Obligations.GencodeGivesThePaths : Prop :=
  ∀ s : State, s.treeValid = true → TreeShape s →
    ∃ t, exec .gencode s = .next t ∧ Completed t ∧ t.codesValid = true ∧ CodesMatch t ∧
      KeepsAllBut [.codeLen, .codeBits, .codesValid] s t ∧ t.toDo = s.toDo ∧ KeepsBytes s t

/-- GENCODE commits all codes or none, whatever the arena holds: without error every symbol of a LEAF below NUM_SYMS has
a code that leads to its LEAF and every other symbol has none, or "0" is the root's symbol's code in a one-symbol tree;
with CORRUPT_TREE no symbol has a code (42_code_generator.md R127). What raises CORRUPT_TREE where SINGLE = 1 and the
root is no LEAF is log 10. -/
def Obligations.GencodeCommitsAllOrNothing : Prop :=
  ∀ s : State, s.treeValid = true →
    ∃ t, exec .gencode s = .next t ∧
      ((Completed t ∧ t.codesValid = true ∧
          (s.single = true → ∃ x w, s.nodeAt s.root = .leaf x w ∧ t.codeOf x = [false] ∧
            ∀ y, y ≠ x → t.codeLenAt y = 0) ∧
          (s.single = false →
            (∀ (n : NodeIx) (x : Symbol) (w : Weight), n.toNat < s.numSyms.toNat → s.nodeAt n = .leaf x w →
              LeadsTo t (t.codeOf x) x) ∧
            ∀ x : Symbol, (∀ (n : NodeIx) (w : Weight), n.toNat < s.numSyms.toNat → s.nodeAt n ≠ .leaf x w) →
              t.codeLenAt x = 0)) ∨
        (t.errCode = .corruptTree ∧ t.errOp = 4 ∧ t.codesValid = false ∧
          ∀ x, t.codeLenAt x = 0 ∧ t.codeBitsAt x = 0)) ∧
      KeepsAllBut [.codeLen, .codeBits, .codesValid] s t ∧ KeepsBytes s t

/-- A command that needs what is not valid raises SEQUENCE: GENCODE and UNPACK without TREE_VALID, PACK without
CODES_VALID (70_reset_and_hazards.md R195; 42_code_generator.md R123; 43_bit_packer.md R133; 44_bit_unpacker.md
R143). -/
def Obligations.SequenceErrors : Prop :=
  ∀ s : State,
    (s.treeValid = false →
      exec .gencode s = .next { s with
        errCode := .sequence, errOp := 4, errInfo := 0, seq := .idle, done := true } ∧
      exec .unpack s = .next { s with
        outLen := 0, errCode := .sequence, errOp := 6, errInfo := 0, seq := .idle, done := true }) ∧
    (s.codesValid = false →
      exec .pack s = .next { s with
        numBits := 0, payLen := 0, errCode := .sequence, errOp := 5, errInfo := 0, seq := .idle, done := true })

/-- No command raises CORRUPT_TREE from a state that meets the invariant (42_code_generator.md R130). -/
def Obligations.CorruptTreeIsUnreachable : Prop :=
  ∀ (i : Instr) (s t : State), s.Inv → exec i s = .next t → t.errCode ≠ .corruptTree

/-- Valid codes are prefix-free (42_code_generator.md R128). -/
def Obligations.ValidCodesArePrefixFree : Prop :=
  ∀ s : State, s.Inv → s.codesValid = true → PrefixFree s

/-! ### PACK -/

/-- PACK of an input whose bytes all have codes and whose bits fit completes; the payload holds the codes in buffer
order, first bit first, then zero padding; NUMBITS is the number of code bits and PAY_LEN their bytes, and nothing
beyond those is written (43_bit_packer.md R134, R135, R136). -/
def Obligations.PackEmitsTheCodes : Prop :=
  ∀ (s : State) (total : Nat), s.params.wellFormed = true → s.codesValid = true →
    1 ≤ s.inLen.toNat → s.inLen.toNat ≤ s.params.inCap →
    (∀ j, j < s.inLen.toNat → s.codeLenAt (s.bufferByte .inBuf j) ≠ 0) →
    total = ((List.range s.inLen.toNat).map fun j => (s.codeLenAt (s.bufferByte .inBuf j)).toNat).sum →
    total ≤ 8 * s.params.payCap →
    ∃ t, exec .pack s = .next t ∧ Completed t ∧ t.numBits.toNat = total ∧ t.payLen.toNat = (total + 7) / 8 ∧
      sint32 t.numBits = total ∧
      payloadBits t 0 total = (List.range s.inLen.toNat).flatMap (fun j => s.codeOf (s.bufferByte .inBuf j)) ∧
      (∀ i, total ≤ i → i < 8 * ((total + 7) / 8) → t.payBit i = false) ∧
      KeepsAllBut [.payBuf, .numBits, .payLen] s t ∧ t.toDo = s.toDo ∧
      KeepsBytesOutside s t .payBuf ((total + 7) / 8)

/-- PACK's errors, in the order of its checks; every one sets NUMBITS and PAY_LEN to 0 and leaves everything else,
PAY_BUF too, unchanged (43_bit_packer.md R133, R137, R138, R139; 60_exceptions.md R172). -/
def Obligations.PackRefusesInOrder : Prop :=
  ∀ s : State, s.codesValid = true →
    (s.params.inCap < s.inLen.toNat →
      exec .pack s = .next { s with
        numBits := 0, payLen := 0, errCode := .capacity, errOp := 5, errInfo := s.inLen, seq := .idle, done := true }) ∧
    (s.inLen.toNat = 0 →
      exec .pack s = .next { s with
        numBits := 0, payLen := 0, errCode := .emptyInput, errOp := 5, errInfo := 0, seq := .idle, done := true }) ∧
    (s.inLen.toNat ≤ s.params.inCap → ∀ j, j < s.inLen.toNat → s.codeLenAt (s.bufferByte .inBuf j) = 0 →
      (∀ i, i < j → s.codeLenAt (s.bufferByte .inBuf i) ≠ 0) →
      exec .pack s = .next { s with
        numBits := 0, payLen := 0, errCode := .noCode, errOp := 5, errInfo := BitVec.ofNat 32 j, seq := .idle,
        done := true }) ∧
    (1 ≤ s.inLen.toNat → s.inLen.toNat ≤ s.params.inCap →
      (∀ j, j < s.inLen.toNat → s.codeLenAt (s.bufferByte .inBuf j) ≠ 0) →
      ∀ total, total = ((List.range s.inLen.toNat).map fun j => (s.codeLenAt (s.bufferByte .inBuf j)).toNat).sum →
      8 * s.params.payCap < total →
      exec .pack s = .next { s with
        numBits := 0, payLen := 0, errCode := .capacity, errOp := 5, errInfo := BitVec.ofNat 32 total, seq := .idle,
        done := true })

/-! ### UNPACK -/

/-- UNPACK with a tree of two symbols or more, a payload that holds the bits and an output they fit in completes; the
output is what the bits decode to, an incomplete trailing code being dropped (44_bit_unpacker.md R143, R148). -/
def Obligations.UnpackDecodesThePayload : Prop :=
  ∀ s : State, s.params.wellFormed = true → s.treeValid = true → TreeShape s → s.single = false →
    s.payLen.toNat ≤ s.params.payCap → s.numBits.toNat < 2 ^ 31 → s.numBits.toNat ≤ 8 * s.payLen.toNat →
    (∀ out, Decodes s (payloadBits s 0 s.numBits.toNat) out → out.length ≤ s.params.outCap) →
    ∃ t out, exec .unpack s = .next t ∧ Completed t ∧ Decodes s (payloadBits s 0 s.numBits.toNat) out ∧
      t.outLen.toNat = out.length ∧ t.bufferBytes .outBuf out.length = out ∧
      KeepsAllBut [.outBuf, .outLen] s t ∧ t.toDo = s.toDo ∧ KeepsBytesOutside s t .outBuf out.length

/-- UNPACK with a one-symbol tree: zero bits each give the symbol, a 1 bit is CORRUPT_STREAM at its index, and a
symbol that does not fit in OUT_BUF is CAPACITY at its bit (44_bit_unpacker.md R145, R149). -/
def Obligations.UnpackAtALeafRoot : Prop :=
  ∀ (s : State) (x : Symbol) (w : Weight), s.params.wellFormed = true → s.treeValid = true →
    s.nodeAt s.root = .leaf x w → s.payLen.toNat ≤ s.params.payCap → s.numBits.toNat < 2 ^ 31 →
    (s.numBits.toNat ≤ 8 * s.payLen.toNat → s.numBits.toNat ≤ s.params.outCap →
      (∀ i, i < s.numBits.toNat → s.payBit i = false) →
      ∃ t, exec .unpack s = .next t ∧ Completed t ∧ t.outLen = s.numBits ∧
        t.bufferBytes .outBuf s.numBits.toNat = List.replicate s.numBits.toNat x ∧
        KeepsAllBut [.outBuf, .outLen] s t ∧ KeepsBytesOutside s t .outBuf s.numBits.toNat) ∧
    (∀ i, i < s.numBits.toNat → i < 8 * s.payLen.toNat → i ≤ s.params.outCap → s.payBit i = true →
      (∀ k, k < i → s.payBit k = false) →
      ∃ t, exec .unpack s = .next t ∧ Raised t 6 .corruptStream (BitVec.ofNat 32 i) ∧
        t.outLen = BitVec.ofNat 32 i ∧ t.bufferBytes .outBuf i = List.replicate i x ∧
        KeepsAllBut [.outBuf, .outLen] s t ∧ KeepsBytesOutside s t .outBuf i) ∧
    (s.params.outCap < s.numBits.toNat → s.params.outCap < 8 * s.payLen.toNat →
      (∀ k, k ≤ s.params.outCap → s.payBit k = false) →
      ∃ t, exec .unpack s = .next t ∧ Raised t 6 .capacity (BitVec.ofNat 32 s.params.outCap) ∧
        t.outLen = BitVec.ofNat 32 s.params.outCap ∧
        t.bufferBytes .outBuf s.params.outCap = List.replicate s.params.outCap x ∧
        KeepsAllBut [.outBuf, .outLen] s t ∧ KeepsBytesOutside s t .outBuf s.params.outCap)

/-- UNPACK's checks before the first bit: PAY_LEN above PAY_CAP, then a negative bit count; neither writes a byte
(44_bit_unpacker.md R143, R147). -/
def Obligations.UnpackRefusesBeforeTheFirstBit : Prop :=
  ∀ s : State, s.treeValid = true →
    (s.params.payCap < s.payLen.toNat →
      exec .unpack s = .next { s with
        outLen := 0, errCode := .capacity, errOp := 6, errInfo := s.payLen, seq := .idle, done := true }) ∧
    (s.payLen.toNat ≤ s.params.payCap → s.numBits.getLsbD 31 = true →
      exec .unpack s = .next { s with
        outLen := 0, errCode := .corruptStream, errOp := 6, errInfo := s.numBits, seq := .idle, done := true })

/-- When NUMBITS exceeds the bits of the payload, UNPACK decodes the bits there are and raises CORRUPT_STREAM at the
first missing bit index, keeping the output so far (44_bit_unpacker.md R146), in either kind of tree. -/
def Obligations.UnpackStopsAtTheFirstMissingBit : Prop :=
  ∀ s : State, s.params.wellFormed = true → s.treeValid = true → TreeShape s →
    s.payLen.toNat ≤ s.params.payCap → s.numBits.toNat < 2 ^ 31 → 8 * s.payLen.toNat < s.numBits.toNat →
    (s.single = false →
      (∀ out, Decodes s (payloadBits s 0 (8 * s.payLen.toNat)) out → out.length ≤ s.params.outCap) →
      ∃ t out, exec .unpack s = .next t ∧ Raised t 6 .corruptStream (BitVec.ofNat 32 (8 * s.payLen.toNat)) ∧
        Decodes s (payloadBits s 0 (8 * s.payLen.toNat)) out ∧ t.outLen.toNat = out.length ∧
        t.bufferBytes .outBuf out.length = out ∧
        KeepsAllBut [.outBuf, .outLen] s t ∧ KeepsBytesOutside s t .outBuf out.length) ∧
    (s.single = true → 8 * s.payLen.toNat ≤ s.params.outCap →
      (∀ i, i < 8 * s.payLen.toNat → s.payBit i = false) →
      ∃ t x w, s.nodeAt s.root = .leaf x w ∧ exec .unpack s = .next t ∧
        Raised t 6 .corruptStream (BitVec.ofNat 32 (8 * s.payLen.toNat)) ∧
        t.outLen.toNat = 8 * s.payLen.toNat ∧
        t.bufferBytes .outBuf (8 * s.payLen.toNat) = List.replicate (8 * s.payLen.toNat) x ∧
        KeepsAllBut [.outBuf, .outLen] s t ∧ KeepsBytesOutside s t .outBuf (8 * s.payLen.toNat))

/-- A symbol that does not fit in OUT_BUF raises CAPACITY with the index of the bit that ended its code, and the
OUT_CAP bytes already written are kept (44_bit_unpacker.md R149), in a tree of two symbols or more. -/
def Obligations.UnpackStopsWhenTheOutputIsFull : Prop :=
  ∀ (s : State) (d : Nat) (out : List Symbol) (x : Symbol), s.params.wellFormed = true → s.treeValid = true →
    TreeShape s → s.single = false → s.payLen.toNat ≤ s.params.payCap → s.numBits.toNat < 2 ^ 31 →
    d < s.numBits.toNat → d < 8 * s.payLen.toNat → out.length = s.params.outCap →
    CodeSequence s (payloadBits s 0 (d + 1)) (out ++ [x]) →
    ∃ t, exec .unpack s = .next t ∧ Raised t 6 .capacity (BitVec.ofNat 32 d) ∧
      t.outLen.toNat = s.params.outCap ∧ t.bufferBytes .outBuf s.params.outCap = out ∧
      KeepsAllBut [.outBuf, .outLen] s t ∧ KeepsBytesOutside s t .outBuf s.params.outCap

/-- UNPACK reads no payload bit at or beyond NUMBITS: two payloads that agree below it decode alike, whatever their
padding (44_bit_unpacker.md R144). -/
def Obligations.UnpackIgnoresPadding : Prop :=
  ∀ (s : State) (other : Memory), s.params.wellFormed = true →
    (∀ i, i < s.numBits.toNat → State.payBit { s with mem := other } i = s.payBit i) →
    ∃ t u, exec .unpack s = .next t ∧ exec .unpack { s with mem := other } = .next u ∧
      t.outLen = u.outLen ∧ t.errCode = u.errCode ∧ t.errInfo = u.errInfo ∧
      t.bufferBytes .outBuf t.outLen.toNat = u.bufferBytes .outBuf t.outLen.toNat

/-- PACK then UNPACK gives the input back (43_bit_packer.md R140): u is the state UNPACK runs in, with the payload,
its lengths and the tree as PACK left them. -/
def Obligations.PackThenUnpackIsTheInput : Prop :=
  ∀ s t u : State, s.Inv → exec .pack s = .next t → t.errCode = .none → s.inLen.toNat ≤ s.params.outCap →
    u.params = t.params → u.treeValid = t.treeValid → u.single = t.single → u.node = t.node → u.root = t.root →
    u.numBits = t.numBits → u.payLen = t.payLen →
    (∀ j, j < t.payLen.toNat → u.bufferByte .payBuf j = t.bufferByte .payBuf j) →
    ∃ v, exec .unpack u = .next v ∧ Completed v ∧ v.outLen = s.inLen ∧
      v.bufferBytes .outBuf s.inLen.toNat = s.bufferBytes .inBuf s.inLen.toNat

/-! ### ENCODE and the container -/

/-- ENCODE of an input of 1 to IN_CAP bytes leaves the counts, the tree and the codes of its input; where the codes fit
in PAY_BUF it completes without error, and the payload holds the codes in buffer order and zero padding. An input of
which 255 bits a byte would fit always completes so (45_entry_points.md R154, R155, R156). -/
def Obligations.EncodeCompletes : Prop :=
  ∀ s : State, s.params.wellFormed = true → 1 ≤ s.inLen.toNat → s.inLen.toNat ≤ s.params.inCap →
    ∃ t total, exec .encode s = .next t ∧ t.treeValid = true ∧ t.codesValid = true ∧
      (∀ x, (t.freqAt x).toNat =
        ((List.range s.inLen.toNat).filter fun j => decide (s.bufferByte .inBuf j = x)).length) ∧
      TreeShape t ∧ MergesLeastTwo t.nodeAt ∧ CodesMatch t ∧
      total = ((List.range s.inLen.toNat).map fun j => (t.codeLenAt (s.bufferByte .inBuf j)).toNat).sum ∧
      (255 * s.inLen.toNat ≤ 8 * s.params.payCap → total ≤ 8 * s.params.payCap) ∧
      (total ≤ 8 * s.params.payCap →
        Completed t ∧ t.numBits.toNat = total ∧ t.payLen.toNat = (total + 7) / 8 ∧
        payloadBits t 0 total = (List.range s.inLen.toNat).flatMap (fun j => t.codeOf (s.bufferByte .inBuf j)) ∧
        (∀ i, total ≤ i → i < 8 * ((total + 7) / 8) → t.payBit i = false) ∧
        KeepsBytesOutside s t .payBuf ((total + 7) / 8)) ∧
      (t.errCode = .none → total ≤ 8 * s.params.payCap) ∧
      KeepsAllBut [.freq, .node, .codeLen, .codeBits, .numSyms, .numNodes, .root, .treeValid, .codesValid, .single,
        .payBuf, .numBits, .payLen] s t ∧ t.toDo = []

/-- The errors of ENCODE: CAPACITY of COUNT where IN_LEN > IN_CAP, EMPTY_INPUT of COUNT where IN_LEN = 0, and otherwise
none but CAPACITY of PACK, exactly where the codes made for the input do not fit (45_entry_points.md R154, R155;
60_exceptions.md R166). -/
def Obligations.EncodeErrorsAreThoseOfCountAndPack : Prop :=
  ∀ s : State, s.params.wellFormed = true →
    (s.params.inCap < s.inLen.toNat →
      exec .encode s = .next { s with
        errCode := .capacity, errOp := 2, errInfo := s.inLen, seq := .idle, done := true }) ∧
    (s.inLen.toNat = 0 →
      ∃ t, exec .encode s = .next t ∧ Raised t 2 .emptyInput 0 ∧ (∀ x, t.freqAt x = 0) ∧
        t.treeValid = false ∧ t.codesValid = false ∧ t.single = false ∧
        KeepsAllBut [.freq, .treeValid, .codesValid, .single] s t ∧ t.toDo = s.toDo ∧ KeepsBytes s t) ∧
    (1 ≤ s.inLen.toNat → s.inLen.toNat ≤ s.params.inCap →
      ∃ t total, exec .encode s = .next t ∧ t.treeValid = true ∧ t.codesValid = true ∧
        total = ((List.range s.inLen.toNat).map fun j => (t.codeLenAt (s.bufferByte .inBuf j)).toNat).sum ∧
        (total ≤ 8 * s.params.payCap → Completed t) ∧
        (8 * s.params.payCap < total →
          Raised t 5 .capacity (BitVec.ofNat 32 total) ∧ t.errInfo.toNat = total ∧ t.numBits = 0 ∧ t.payLen = 0 ∧
          KeepsAllBut [.freq, .node, .codeLen, .codeBits, .numSyms, .numNodes, .root, .treeValid, .codesValid,
            .single, .numBits, .payLen] s t ∧ t.toDo = [] ∧ KeepsBytes s t))

/-- UNPACK after ENCODE gives the input back (43_bit_packer.md R140; 45_entry_points.md R157, R158). -/
def Obligations.EncodeThenUnpackIsTheInput : Prop :=
  ∀ s t : State, s.params.wellFormed = true → exec .encode s = .next t → t.errCode = .none →
    s.inLen.toNat ≤ s.params.outCap →
    ∃ u, exec .unpack t = .next u ∧ Completed u ∧ u.outLen = s.inLen ∧
      u.bufferBytes .outBuf s.inLen.toNat = s.bufferBytes .inBuf s.inLen.toNat

/-- The container is the bit count in the given byte order and then the payload bytes, 4 + ceil(NUMBITS/8) bytes in
all, and parsing it gives NUMBITS, the payload's length and its bytes back (45_entry_points.md R161, R162). The functions
are the model's form of what the host does (log 17); what the container is of a NUMBITS that neither PACK nor ENCODE
left is the model's choice (log 22). -/
def Obligations.ContainerRoundTrip : Prop :=
  ∀ (s : State) (order : ByteOrder),
    (s.container order).length = 4 + (s.numBits.toNat + 7) / 8 ∧
    (s.container order).take 4 =
      (match order with
        | .little => [s.numBits.extractLsb' 0 8, s.numBits.extractLsb' 8 8, s.numBits.extractLsb' 16 8,
            s.numBits.extractLsb' 24 8]
        | .big => [s.numBits.extractLsb' 24 8, s.numBits.extractLsb' 16 8, s.numBits.extractLsb' 8 8,
            s.numBits.extractLsb' 0 8]) ∧
    parseContainer order (s.container order) =
      some { numBits := s.numBits, payLen := BitVec.ofNat 32 ((s.numBits.toNat + 7) / 8),
             bytes := s.bufferBytes .payBuf ((s.numBits.toNat + 7) / 8) }

/-! ### Host transactions -/

/-- A read changes nothing but the model's own count of free values, and not even that while BUSY = 0 (20_memory.md
R72). -/
def Obligations.ReadsHaveNoSideEffect : Prop :=
  ∀ (s : State) (addr : Offset) (size : Size),
    { (s.transact (.read addr size)).1 with draws := s.draws } = s ∧
    (s.seq = .idle → (s.transact (.read addr size)).1 = s)

/-- An access to an unmapped offset, or beyond a buffer's capacity, gets an ERROR response and changes nothing; a
read returns 0 (20_memory.md R70). -/
def Obligations.UnmappedAccessesGetError : Prop :=
  ∀ (s : State) (addr : Offset) (size : Size),
    ((0x40 ≤ addr.toNat ∧ addr.toNat < 0x400) ∨ (0xC00 ≤ addr.toNat ∧ addr.toNat < 0x1000) ∨
      (0x3000 ≤ addr.toNat ∧ addr.toNat < 0x4000) ∨ (0x6000 ≤ addr.toNat ∧ addr.toNat < 0x01000000) ∨
      ∃ b, bufferBase b ≤ addr.toNat ∧ addr.toNat < bufferBase b + 0x01000000 ∧
        bufferBase b + capacity s.params b < addr.toNat + size.bytes) →
    s.transact (.read addr size) = (s, { resp := .error, rdata := some 0 }) ∧
    ∀ v, s.transact (.write addr size v) = (s, { resp := .error, rdata := none })

/-- A mapped access of an illegal width or alignment gets an ERROR response and changes nothing; a read returns 0
(20_memory.md R69, R63, R62). -/
def Obligations.IllegalWidthOrAlignmentGetsError : Prop :=
  ∀ (s : State) (addr : Offset) (size : Size), s.params.wellFormed = true →
    (((addr.toNat < 0x40 ∨ (0x400 ≤ addr.toNat ∧ addr.toNat < 0xC00) ∨
        (0x1000 ≤ addr.toNat ∧ addr.toNat < 0x3000) ∨ (0x4000 ≤ addr.toNat ∧ addr.toNat < 0x6000)) ∧
        (size ≠ .four ∨ addr.toNat % 4 ≠ 0)) ∨
      (∃ b, bufferBase b ≤ addr.toNat ∧ addr.toNat + size.bytes ≤ bufferBase b + capacity s.params b ∧
        (addr.toNat - bufferBase b) % size.bytes ≠ 0)) →
    s.transact (.read addr size) = (s, { resp := .error, rdata := some 0 }) ∧
    ∀ v, s.transact (.write addr size v) = (s, { resp := .error, rdata := none })

/-- What the control registers read while BUSY = 0 (10_state.md R23, R24, R25, R26, R33, R34, R35). -/
def Obligations.RegistersRead : Prop :=
  ∀ (s : State) (r : Nat), s.seq = .idle → r < 16 →
    s.transact (.read (BitVec.ofNat 26 (4 * r)) .four) =
      (s, { resp := .okay
            rdata := some (([0x48554646, BitVec.ofNat 32 s.params.inCap, BitVec.ofNat 32 s.params.payCap,
              BitVec.ofNat 32 s.params.outCap, 0, s.statusWord,
              (if s.doneIe then 1 else 0) + (if s.ovrIe then 2 else 0), s.inLen, s.numBits, s.payLen, s.outLen,
              s.errInfo, s.numSyms.setWidth 32, s.numNodes.setWidth 32, s.root.setWidth 32, 0] :
              List Word).getD r 0) })

/-- The fields of STATUS as a read gives them, the error codes by their numbers (60_exceptions.md R165), reserved bits
reading 0, and the write-1-to-clear of DONE and OVR, which is accepted whether or not BUSY = 1 (10_state.md R27). -/
def Obligations.StatusFields : Prop :=
  ∀ s : State,
    (∀ i, s.statusWord.getLsbD i =
      if i = 0 then decide (s.seq = .busy) else if i = 1 then s.done else if i = 2 then s.ovr
      else if i = 3 then s.treeValid else if i = 4 then s.codesValid else if i = 5 then s.single
      else if 12 ≤ i ∧ i < 16 then s.errOp.getLsbD (i - 12)
      else if 8 ≤ i ∧ i < 12 then
        (match s.errCode with
          | .none => 0#4
          | .emptyInput => 1#4
          | .corruptTree => 2#4
          | .corruptStream => 3#4
          | .illegalCmd => 4#4
          | .sequence => 5#4
          | .capacity => 6#4
          | .noCode => 7#4).getLsbD (i - 8)
      else false) ∧
    (s.seq = .idle → (s.transact (.read 0x14 .four)).2 = { resp := .okay, rdata := some s.statusWord }) ∧
    ∀ v : Word, s.transact (.write 0x14 .four v) =
      ({ s with
          done := if v.getLsbD 1 then false else s.done
          ovr := if v.getLsbD 2 then false else s.ovr }, { resp := .okay, rdata := none })

/-- A write to IRQ_EN sets both enables, whether or not BUSY = 1; a write to IN_LEN, NUMBITS or PAY_LEN while BUSY = 0
stores any 32-bit value (10_state.md R33, R34). -/
def Obligations.OperandRegisterWrites : Prop :=
  ∀ (s : State) (v : Word),
    s.transact (.write 0x18 .four v) =
      ({ s with doneIe := v.getLsbD 0, ovrIe := v.getLsbD 1 }, { resp := .okay, rdata := none }) ∧
    (s.seq = .idle →
      s.transact (.write 0x1C .four v) = ({ s with inLen := v }, { resp := .okay, rdata := none }) ∧
      s.transact (.write 0x20 .four v) = ({ s with numBits := v }, { resp := .okay, rdata := none }) ∧
      s.transact (.write 0x24 .four v) = ({ s with payLen := v }, { resp := .okay, rdata := none }))

/-- A host write to a FREQ entry while BUSY = 0 stores the value and invalidates the tree and the codes, whose tables
keep their contents (20_memory.md R67). -/
def Obligations.FreqWriteInvalidates : Prop :=
  ∀ (s : State) (x : Symbol) (v : Word), s.seq = .idle →
    ∃ t, s.transact (.write (BitVec.ofNat 26 (0x400 + 4 * x.toNat)) .four v) =
        (t, { resp := .okay, rdata := none }) ∧
      t.freqAt x = v ∧ (∀ y, y ≠ x → t.freqAt y = s.freqAt y) ∧
      t = { s with freq := t.freq, treeValid := false, codesValid := false, single := false }

/-- A write to a read-only register or window completes with OKAY and changes nothing while BUSY = 0, and sets OVR
while BUSY = 1 (20_memory.md R68). -/
def Obligations.ReadOnlyWritesAreIgnored : Prop :=
  ∀ (s : State) (addr : Offset) (v : Word), addr.toNat % 4 = 0 →
    (addr.toNat = 0x00 ∨ addr.toNat = 0x04 ∨ addr.toNat = 0x08 ∨ addr.toNat = 0x0C ∨ addr.toNat = 0x28 ∨
      addr.toNat = 0x2C ∨ addr.toNat = 0x30 ∨ addr.toNat = 0x34 ∨ addr.toNat = 0x38 ∨ addr.toNat = 0x3C ∨
      (0x800 ≤ addr.toNat ∧ addr.toNat < 0xC00) ∨ (0x1000 ≤ addr.toNat ∧ addr.toNat < 0x3000) ∨
      (0x4000 ≤ addr.toNat ∧ addr.toNat < 0x6000)) →
    (s.seq = .idle → s.transact (.write addr .four v) = (s, { resp := .okay, rdata := none })) ∧
    (s.seq = .busy → s.transact (.write addr .four v) = ({ s with ovr := true }, { resp := .okay, rdata := none }))

/-- While BUSY = 1 every host write but those to STATUS and IRQ_EN gets an OKAY response, changes nothing and sets
OVR, where a read of the same size there gets OKAY; where it gets an ERROR response the write does too, and does not
set OVR (70_reset_and_hazards.md R196). -/
def Obligations.BusyWritesAreDropped : Prop :=
  ∀ (s : State) (addr : Offset) (size : Size) (v : Word), s.seq = .busy →
    ¬(addr = 0x14 ∧ size = .four) → ¬(addr = 0x18 ∧ size = .four) →
    ((s.transact (.read addr size)).2.resp = .okay →
      s.transact (.write addr size v) = ({ s with ovr := true }, { resp := .okay, rdata := none })) ∧
    ((s.transact (.read addr size)).2.resp = .error →
      s.transact (.write addr size v) = (s, { resp := .error, rdata := none }))

/-- A legal buffer access while BUSY = 0: a read of any size returns the bytes that the buffer holds there,
little-endian, the upper bits 0; a write changes exactly the addressed bytes, little-endian, and a read of the same size
then returns the data (20_memory.md R62, R66, R84; 30_encoding.md R93). -/
def Obligations.BufferReadsAndWrites : Prop :=
  ∀ (s : State) (b : Buffer) (j : Nat) (size : Size), s.params.wellFormed = true → s.seq = .idle →
    j % size.bytes = 0 → j + size.bytes ≤ capacity s.params b →
    (∃ w : Word, s.transact (.read (BitVec.ofNat 26 (bufferBase b + j)) size) =
        (s, { resp := .okay, rdata := some w }) ∧
      (∀ i, i < size.bytes → w.extractLsb' (8 * i) 8 = s.bufferByte b (j + i)) ∧
      ∀ k, 8 * size.bytes ≤ k → w.getLsbD k = false) ∧
    ∀ v : Word, ∃ t,
      s.transact (.write (BitVec.ofNat 26 (bufferBase b + j)) size v) = (t, { resp := .okay, rdata := none }) ∧
      t = { s with mem := t.mem } ∧
      (∀ i, i < size.bytes → t.bufferByte b (j + i) = v.extractLsb' (8 * i) 8) ∧
      (∀ a, a < bufferBase b + j ∨ bufferBase b + j + size.bytes ≤ a → t.byteAt a = s.byteAt a) ∧
      (t.transact (.read (BitVec.ofNat 26 (bufferBase b + j)) size)).2 =
        { resp := .okay, rdata := some (v &&& size.mask) }

/-- The node window while BUSY = 0 (10_state.md R37): the descriptor, the weight, zero, and slot 511. -/
def Obligations.NodeWindowReads : Prop :=
  ∀ (s : State) (n : NodeIx), s.seq = .idle →
    let word (w : Nat) := (s.transact (.read (BitVec.ofNat 26 (0x4000 + 16 * n.toNat + 4 * w)) .four)).2
    (s.nodeAt n = .empty ∨ n.toNat = 511 → ∀ w, w < 4 → word w = { resp := .okay, rdata := some 0 }) ∧
    (∀ sym weight, s.nodeAt n = .leaf sym weight →
      word 0 = { resp := .okay, rdata := some (BitVec.ofNat 32 (0xC0000000 + sym.toNat)) } ∧
      word 1 = { resp := .okay, rdata := some (BitVec.ofNat 32 weight.toNat) } ∧
      word 2 = { resp := .okay, rdata := some (BitVec.ofNat 32 (weight.toNat / 2 ^ 32)) } ∧
      word 3 = { resp := .okay, rdata := some 0 }) ∧
    (∀ left right weight, s.nodeAt n = .internal left right weight →
      word 0 =
        { resp := .okay, rdata := some (BitVec.ofNat 32 (0x80000000 + 0x10000 * right.toNat + left.toNat)) } ∧
      word 1 = { resp := .okay, rdata := some (BitVec.ofNat 32 weight.toNat) } ∧
      word 2 = { resp := .okay, rdata := some (BitVec.ofNat 32 (weight.toNat / 2 ^ 32)) } ∧
      word 3 = { resp := .okay, rdata := some 0 })

/-- The frequency and code table's windows while BUSY = 0: FREQ[s], CODE_LEN[s], and CODE_BITS[s] with code bit t = 32w + b
in bit 31 - b of word w below CODE_LEN[s] and 0 elsewhere (10_state.md R38, R42; 20_memory.md R61). -/
def Obligations.FreqAndCodeWindowReads : Prop :=
  ∀ (s : State) (x : Symbol), s.seq = .idle →
    s.transact (.read (BitVec.ofNat 26 (0x400 + 4 * x.toNat)) .four) =
      (s, { resp := .okay, rdata := some (s.freqAt x) }) ∧
    (s.transact (.read (BitVec.ofNat 26 (0x800 + 4 * x.toNat)) .four)).2 =
      { resp := .okay, rdata := some ((s.codeLenAt x).setWidth 32) } ∧
    ∀ w, w < 8 → ∃ v : Word,
      (s.transact (.read (BitVec.ofNat 26 (0x1000 + 32 * x.toNat + 4 * w)) .four)).2 =
        { resp := .okay, rdata := some v } ∧
      ∀ b, b < 32 → v.getLsbD (31 - b) = (s.codeOf x).getD (32 * w + b) false

/-- While BUSY = 1 a legal read of state in the running command's write set (30_encoding.md R91; none of an illegal
word) gets OKAY and a free value of the read's width; every other read but that of STATUS gets what it gets while
BUSY = 0, and changes nothing (70_reset_and_hazards.md R197). How the free value is drawn is log 3; that slot 511 of the
node window, which is no entry of NODE, reads 0 throughout is log 12. -/
def Obligations.BusyReads : Prop :=
  ∀ (s : State) (addr : Offset) (size : Size), s.seq = .busy → ¬(addr = 0x14 ∧ size = .four) →
    let settled := (State.transact { s with seq := .idle } (.read addr size)).2
    let runs (is : List Instr) : Prop := ∃ i, i ∈ is ∧ decode s.curCmd = .command i
    let within (a b : Nat) : Prop := a ≤ addr.toNat ∧ addr.toNat < b
    let written : Prop :=
      (within 0x400 0x800 ∧ runs [.clear, .count, .encode]) ∨
      ((within 0x800 0xC00 ∨ within 0x1000 0x3000) ∧ runs [.clear, .gencode, .encode]) ∨
      ((within 0x4000 0x5FF0 ∨ within 0x30 0x3C) ∧ runs [.clear, .build, .encode]) ∨
      ((within 0x20 0x28 ∨ within 0x02000000 0x03000000) ∧ runs [.pack, .encode]) ∨
      ((within 0x28 0x2C ∨ within 0x03000000 0x04000000) ∧ runs [.unpack])
    (settled.resp = .okay → written →
      s.transact (.read addr size) =
        ({ s with draws := s.draws + 1 },
          { resp := .okay
            rdata := some (match size with
              | .one => Config.busyDraw s.draws &&& 0xFF
              | .two => Config.busyDraw s.draws &&& 0xFFFF
              | .four => Config.busyDraw s.draws) })) ∧
    (settled.resp = .error ∨ ¬written → s.transact (.read addr size) = (s, settled))

/-- What STATUS and ERR_INFO read while a command runs: BUSY 1, DONE 0, ERR_CODE 0, ERR_OP 0, and ERR_INFO 0; the
three validity flags are exact unless the command writes them (70_reset_and_hazards.md R197). -/
def Obligations.StatusReadsWhileBusy : Prop :=
  ∀ s : State, s.Inv → s.seq = .busy →
    (∃ v : Word, (s.transact (.read 0x14 .four)).2 = { resp := .okay, rdata := some v } ∧
      v.getLsbD 0 = true ∧ v.getLsbD 1 = false ∧ v.getLsbD 2 = s.ovr ∧ (∀ i, 6 ≤ i → v.getLsbD i = false) ∧
      (decode s.curCmd = .command .pack ∨ decode s.curCmd = .command .unpack ∨
        (∃ e, decode s.curCmd = .illegal e) →
        v.getLsbD 3 = s.treeValid ∧ v.getLsbD 4 = s.codesValid ∧ v.getLsbD 5 = s.single) ∧
      (decode s.curCmd = .command .gencode → v.getLsbD 3 = s.treeValid ∧ v.getLsbD 5 = s.single)) ∧
    (s.transact (.read 0x2C .four)).2 = { resp := .okay, rdata := some 0 }

/-! ### Reset -/

/-- Reset sets every register and table to its reset value at once, whatever the block was doing, with no DONE and no
interrupt (10_state.md R49; 70_reset_and_hazards.md R190). What reset leaves of the model's own fields is log 15. -/
def Obligations.ResetValues : Prop :=
  ∀ (s : State) (rest : List Turn), s.agenda = .reset :: rest →
    ∃ t, step s = .next t ∧ t.seq = .idle ∧ t.curCmd = 0 ∧ t.statusWord = 0 ∧ t.irqEnWord = 0 ∧
      t.inLen = 0 ∧ t.numBits = 0 ∧ t.payLen = 0 ∧ t.outLen = 0 ∧ t.errInfo = 0 ∧
      t.numSyms = 0 ∧ t.numNodes = 0 ∧ t.root = 0 ∧ (∀ x, t.freqAt x = 0) ∧ (∀ n, t.nodeAt n = .empty) ∧
      (∀ x, t.codeLenAt x = 0 ∧ t.codeBitsAt x = 0) ∧ t.toDo = [] ∧ t.irq = false ∧
      t.params = s.params ∧ t.agenda = rest

/-! ### The invariant and the whole machine -/

/-- The state after reset meets the invariant, for the block as built and for every legal parameters. -/
def Obligations.ResetMeetsTheInvariant : Prop :=
  State.reset.Inv ∧ ∀ p : Params, p.wellFormed = true → (State.resetWith p).Inv

/-- Every step keeps the invariant: with TREE_VALID = 1 the arena has the shape of 10_state.md R43, with CODES_VALID =
1 the codes are those of the tree (R44), CODES_VALID and SINGLE each imply TREE_VALID (R31), and the memory stays
canonical, in the model's own form (log 2), and inside the buffers. -/
def Obligations.EveryStepKeepsTheInvariant : Prop :=
  ∀ s t : State, s.Inv → step s = .next t → t.Inv

/-- BUSY is set by the acceptance of a command only, and cleared by that command's completion, or by reset; DONE is set
by a completion only, and cleared only by the acceptance of a command, by a W1C write, or by reset (10_state.md R28,
R29). The turns on the agenda are the model's own form of the host's transactions and of the engine's step (log 4). -/
def Obligations.BusyAndDoneChangeOnlyAsStated : Prop :=
  ∀ s t : State, step s = .next t →
    let engineTurn : Prop := s.agenda = [] ∨ ∃ rest, s.agenda = .engine :: rest
    let reset : Prop := ∃ rest, s.agenda = .reset :: rest
    (s.seq = .idle → t.seq = .busy →
      ∃ v rest, s.agenda = .bus (.write 0x10 .four v) :: rest ∧ t.curCmd = v) ∧
    (s.seq = .busy → t.seq = .idle → (engineTurn ∧ t.done = true) ∨ reset) ∧
    (s.seq = .busy → engineTurn → t.seq = .idle) ∧
    (s.done = false → t.done = true → engineTurn ∧ s.seq = .busy ∧ t.seq = .idle) ∧
    (s.done = true → t.done = false →
      (s.seq = .idle ∧ ∃ v rest, s.agenda = .bus (.write 0x10 .four v) :: rest) ∨
      (∃ v rest, s.agenda = .bus (.write 0x14 .four v) :: rest ∧ v.getLsbD 1 = true) ∨ reset)

/-- OVR is set only by a host write while BUSY = 1, and cleared only by a W1C write or reset; acceptance of a command
does not clear it (10_state.md R30). Turns: log 4. -/
def Obligations.OvrChangesOnlyAsStated : Prop :=
  ∀ s t : State, step s = .next t →
    (s.ovr = false → t.ovr = true →
      s.seq = .busy ∧ ∃ addr size v rest, s.agenda = .bus (.write addr size v) :: rest) ∧
    (s.ovr = true → t.ovr = false →
      (∃ v rest, s.agenda = .bus (.write 0x14 .four v) :: rest ∧ v.getLsbD 2 = true) ∨
      ∃ rest, s.agenda = .reset :: rest)

/-- When STATUS.TREE_VALID, CODES_VALID and SINGLE change. TREE_VALID becomes 1 only when BUILD or ENCODE completes, and
SINGLE only then and with NUM_SYMS = 1; CODES_VALID becomes 1 only when GENCODE or ENCODE completes. All three become 0
only when CLEAR, COUNT, BUILD or ENCODE completes, by a host write to FREQ while BUSY = 0, or by reset, and CODES_VALID
also when GENCODE ends with CORRUPT_TREE (10_state.md R31; 42_code_generator.md R123; 70_reset_and_hazards.md R200).
Turns: log 4. -/
def Obligations.ValidityFlagsChangeOnlyAsStated : Prop :=
  ∀ s t : State, step s = .next t →
    let completes (is : List Instr) : Prop :=
      (s.agenda = [] ∨ ∃ rest, s.agenda = .engine :: rest) ∧ s.seq = .busy ∧ t.seq = .idle ∧ t.done = true ∧
        ∃ i, i ∈ is ∧ decode s.curCmd = .command i
    let invalidated : Prop :=
      completes [.clear, .count, .build, .encode] ∨
      (s.seq = .idle ∧ ∃ x v rest,
        s.agenda = .bus (.write (BitVec.ofNat 26 (0x400 + 4 * (x : Symbol).toNat)) .four v) :: rest) ∨
      ∃ rest, s.agenda = .reset :: rest
    (s.treeValid = false → t.treeValid = true → completes [.build, .encode]) ∧
    (s.treeValid = true → t.treeValid = false → invalidated) ∧
    (s.codesValid = false → t.codesValid = true →
      completes [.encode] ∨ (completes [.gencode] ∧ t.errCode = .none)) ∧
    (s.codesValid = true → t.codesValid = false →
      invalidated ∨ (completes [.gencode] ∧ t.errCode = .corruptTree)) ∧
    (s.single = false → t.single = true → completes [.build, .encode] ∧ t.treeValid = true ∧ t.numSyms = 1) ∧
    (s.single = true → t.single = false → invalidated)

/-- IN_BUF is changed by host writes and reset only (10_state.md R40; 70_reset_and_hazards.md R204). Turns: log 4. -/
def Obligations.OnlyTheHostWritesInBuf : Prop :=
  ∀ (s t : State) (j : Nat), s.params.wellFormed = true → step s = .next t → j < s.params.inCap →
    t.bufferByte .inBuf j ≠ s.bufferByte .inBuf j →
    (s.seq = .idle ∧ ∃ addr size v rest, s.agenda = .bus (.write addr size v) :: rest) ∨
    ∃ rest, s.agenda = .reset :: rest
end

