-- ==== Sys2Proof/Laws/State.lean ====
section
/-! SUPPORT. One lemma per field and update of State, true by rfl, so that no later proof unfolds a record update. -/

namespace Sys2Proof.Machine

variable (s : State)

/-! ### acceptCommand -/

@[simp] theorem acceptCommand_params (v : Word) : (acceptCommand v s).params = s.params := rfl
@[simp] theorem acceptCommand_seq (v : Word) : (acceptCommand v s).seq = .busy := rfl
@[simp] theorem acceptCommand_curCmd (v : Word) : (acceptCommand v s).curCmd = v := rfl
@[simp] theorem acceptCommand_done (v : Word) : (acceptCommand v s).done = false := rfl
@[simp] theorem acceptCommand_ovr (v : Word) : (acceptCommand v s).ovr = s.ovr := rfl
@[simp] theorem acceptCommand_treeValid (v : Word) : (acceptCommand v s).treeValid = s.treeValid := rfl
@[simp] theorem acceptCommand_codesValid (v : Word) : (acceptCommand v s).codesValid = s.codesValid := rfl
@[simp] theorem acceptCommand_single (v : Word) : (acceptCommand v s).single = s.single := rfl
@[simp] theorem acceptCommand_errCode (v : Word) : (acceptCommand v s).errCode = .none := rfl
@[simp] theorem acceptCommand_errOp (v : Word) : (acceptCommand v s).errOp = 0 := rfl
@[simp] theorem acceptCommand_doneIe (v : Word) : (acceptCommand v s).doneIe = s.doneIe := rfl
@[simp] theorem acceptCommand_ovrIe (v : Word) : (acceptCommand v s).ovrIe = s.ovrIe := rfl
@[simp] theorem acceptCommand_inLen (v : Word) : (acceptCommand v s).inLen = s.inLen := rfl
@[simp] theorem acceptCommand_numBits (v : Word) : (acceptCommand v s).numBits = s.numBits := rfl
@[simp] theorem acceptCommand_payLen (v : Word) : (acceptCommand v s).payLen = s.payLen := rfl
@[simp] theorem acceptCommand_outLen (v : Word) : (acceptCommand v s).outLen = s.outLen := rfl
@[simp] theorem acceptCommand_errInfo (v : Word) : (acceptCommand v s).errInfo = 0 := rfl
@[simp] theorem acceptCommand_numSyms (v : Word) : (acceptCommand v s).numSyms = s.numSyms := rfl
@[simp] theorem acceptCommand_numNodes (v : Word) : (acceptCommand v s).numNodes = s.numNodes := rfl
@[simp] theorem acceptCommand_root (v : Word) : (acceptCommand v s).root = s.root := rfl
@[simp] theorem acceptCommand_freq (v : Word) : (acceptCommand v s).freq = s.freq := rfl
@[simp] theorem acceptCommand_node (v : Word) : (acceptCommand v s).node = s.node := rfl
@[simp] theorem acceptCommand_codeLen (v : Word) : (acceptCommand v s).codeLen = s.codeLen := rfl
@[simp] theorem acceptCommand_codeBits (v : Word) : (acceptCommand v s).codeBits = s.codeBits := rfl
@[simp] theorem acceptCommand_toDo (v : Word) : (acceptCommand v s).toDo = s.toDo := rfl
@[simp] theorem acceptCommand_mem (v : Word) : (acceptCommand v s).mem = s.mem := rfl
@[simp] theorem acceptCommand_agenda (v : Word) : (acceptCommand v s).agenda = s.agenda := rfl
@[simp] theorem acceptCommand_response (v : Word) : (acceptCommand v s).response = s.response := rfl
@[simp] theorem acceptCommand_draws (v : Word) : (acceptCommand v s).draws = s.draws := rfl
@[simp] theorem acceptCommand_epoch (v : Word) : (acceptCommand v s).epoch = s.epoch := rfl

/-! ### complete -/

@[simp] theorem complete_params : (complete s).params = s.params := rfl
@[simp] theorem complete_seq : (complete s).seq = .idle := rfl
@[simp] theorem complete_curCmd : (complete s).curCmd = s.curCmd := rfl
@[simp] theorem complete_done : (complete s).done = true := rfl
@[simp] theorem complete_ovr : (complete s).ovr = s.ovr := rfl
@[simp] theorem complete_treeValid : (complete s).treeValid = s.treeValid := rfl
@[simp] theorem complete_codesValid : (complete s).codesValid = s.codesValid := rfl
@[simp] theorem complete_single : (complete s).single = s.single := rfl
@[simp] theorem complete_errCode : (complete s).errCode = .none := rfl
@[simp] theorem complete_errOp : (complete s).errOp = 0 := rfl
@[simp] theorem complete_doneIe : (complete s).doneIe = s.doneIe := rfl
@[simp] theorem complete_ovrIe : (complete s).ovrIe = s.ovrIe := rfl
@[simp] theorem complete_inLen : (complete s).inLen = s.inLen := rfl
@[simp] theorem complete_numBits : (complete s).numBits = s.numBits := rfl
@[simp] theorem complete_payLen : (complete s).payLen = s.payLen := rfl
@[simp] theorem complete_outLen : (complete s).outLen = s.outLen := rfl
@[simp] theorem complete_errInfo : (complete s).errInfo = 0 := rfl
@[simp] theorem complete_numSyms : (complete s).numSyms = s.numSyms := rfl
@[simp] theorem complete_numNodes : (complete s).numNodes = s.numNodes := rfl
@[simp] theorem complete_root : (complete s).root = s.root := rfl
@[simp] theorem complete_freq : (complete s).freq = s.freq := rfl
@[simp] theorem complete_node : (complete s).node = s.node := rfl
@[simp] theorem complete_codeLen : (complete s).codeLen = s.codeLen := rfl
@[simp] theorem complete_codeBits : (complete s).codeBits = s.codeBits := rfl
@[simp] theorem complete_toDo : (complete s).toDo = s.toDo := rfl
@[simp] theorem complete_mem : (complete s).mem = s.mem := rfl
@[simp] theorem complete_agenda : (complete s).agenda = s.agenda := rfl
@[simp] theorem complete_response : (complete s).response = s.response := rfl
@[simp] theorem complete_draws : (complete s).draws = s.draws := rfl
@[simp] theorem complete_epoch : (complete s).epoch = s.epoch := rfl

/-! ### raise -/

@[simp] theorem raise_params (op : BitVec 4) (e : ErrorCode) (info : Word) : (raise op e info s).params = s.params := rfl
@[simp] theorem raise_seq (op : BitVec 4) (e : ErrorCode) (info : Word) : (raise op e info s).seq = .idle := rfl
@[simp] theorem raise_curCmd (op : BitVec 4) (e : ErrorCode) (info : Word) : (raise op e info s).curCmd = s.curCmd := rfl
@[simp] theorem raise_done (op : BitVec 4) (e : ErrorCode) (info : Word) : (raise op e info s).done = true := rfl
@[simp] theorem raise_ovr (op : BitVec 4) (e : ErrorCode) (info : Word) : (raise op e info s).ovr = s.ovr := rfl
@[simp] theorem raise_treeValid (op : BitVec 4) (e : ErrorCode) (info : Word) : (raise op e info s).treeValid = s.treeValid := rfl
@[simp] theorem raise_codesValid (op : BitVec 4) (e : ErrorCode) (info : Word) : (raise op e info s).codesValid = s.codesValid := rfl
@[simp] theorem raise_single (op : BitVec 4) (e : ErrorCode) (info : Word) : (raise op e info s).single = s.single := rfl
@[simp] theorem raise_errCode (op : BitVec 4) (e : ErrorCode) (info : Word) : (raise op e info s).errCode = e := rfl
@[simp] theorem raise_errOp (op : BitVec 4) (e : ErrorCode) (info : Word) : (raise op e info s).errOp = op := rfl
@[simp] theorem raise_doneIe (op : BitVec 4) (e : ErrorCode) (info : Word) : (raise op e info s).doneIe = s.doneIe := rfl
@[simp] theorem raise_ovrIe (op : BitVec 4) (e : ErrorCode) (info : Word) : (raise op e info s).ovrIe = s.ovrIe := rfl
@[simp] theorem raise_inLen (op : BitVec 4) (e : ErrorCode) (info : Word) : (raise op e info s).inLen = s.inLen := rfl
@[simp] theorem raise_numBits (op : BitVec 4) (e : ErrorCode) (info : Word) : (raise op e info s).numBits = s.numBits := rfl
@[simp] theorem raise_payLen (op : BitVec 4) (e : ErrorCode) (info : Word) : (raise op e info s).payLen = s.payLen := rfl
@[simp] theorem raise_outLen (op : BitVec 4) (e : ErrorCode) (info : Word) : (raise op e info s).outLen = s.outLen := rfl
@[simp] theorem raise_errInfo (op : BitVec 4) (e : ErrorCode) (info : Word) : (raise op e info s).errInfo = info := rfl
@[simp] theorem raise_numSyms (op : BitVec 4) (e : ErrorCode) (info : Word) : (raise op e info s).numSyms = s.numSyms := rfl
@[simp] theorem raise_numNodes (op : BitVec 4) (e : ErrorCode) (info : Word) : (raise op e info s).numNodes = s.numNodes := rfl
@[simp] theorem raise_root (op : BitVec 4) (e : ErrorCode) (info : Word) : (raise op e info s).root = s.root := rfl
@[simp] theorem raise_freq (op : BitVec 4) (e : ErrorCode) (info : Word) : (raise op e info s).freq = s.freq := rfl
@[simp] theorem raise_node (op : BitVec 4) (e : ErrorCode) (info : Word) : (raise op e info s).node = s.node := rfl
@[simp] theorem raise_codeLen (op : BitVec 4) (e : ErrorCode) (info : Word) : (raise op e info s).codeLen = s.codeLen := rfl
@[simp] theorem raise_codeBits (op : BitVec 4) (e : ErrorCode) (info : Word) : (raise op e info s).codeBits = s.codeBits := rfl
@[simp] theorem raise_toDo (op : BitVec 4) (e : ErrorCode) (info : Word) : (raise op e info s).toDo = s.toDo := rfl
@[simp] theorem raise_mem (op : BitVec 4) (e : ErrorCode) (info : Word) : (raise op e info s).mem = s.mem := rfl
@[simp] theorem raise_agenda (op : BitVec 4) (e : ErrorCode) (info : Word) : (raise op e info s).agenda = s.agenda := rfl
@[simp] theorem raise_response (op : BitVec 4) (e : ErrorCode) (info : Word) : (raise op e info s).response = s.response := rfl
@[simp] theorem raise_draws (op : BitVec 4) (e : ErrorCode) (info : Word) : (raise op e info s).draws = s.draws := rfl
@[simp] theorem raise_epoch (op : BitVec 4) (e : ErrorCode) (info : Word) : (raise op e info s).epoch = s.epoch := rfl

/-! ### invalidate -/

@[simp] theorem invalidate_params : (s.invalidate).params = s.params := rfl
@[simp] theorem invalidate_seq : (s.invalidate).seq = s.seq := rfl
@[simp] theorem invalidate_curCmd : (s.invalidate).curCmd = s.curCmd := rfl
@[simp] theorem invalidate_done : (s.invalidate).done = s.done := rfl
@[simp] theorem invalidate_ovr : (s.invalidate).ovr = s.ovr := rfl
@[simp] theorem invalidate_treeValid : (s.invalidate).treeValid = false := rfl
@[simp] theorem invalidate_codesValid : (s.invalidate).codesValid = false := rfl
@[simp] theorem invalidate_single : (s.invalidate).single = false := rfl
@[simp] theorem invalidate_errCode : (s.invalidate).errCode = s.errCode := rfl
@[simp] theorem invalidate_errOp : (s.invalidate).errOp = s.errOp := rfl
@[simp] theorem invalidate_doneIe : (s.invalidate).doneIe = s.doneIe := rfl
@[simp] theorem invalidate_ovrIe : (s.invalidate).ovrIe = s.ovrIe := rfl
@[simp] theorem invalidate_inLen : (s.invalidate).inLen = s.inLen := rfl
@[simp] theorem invalidate_numBits : (s.invalidate).numBits = s.numBits := rfl
@[simp] theorem invalidate_payLen : (s.invalidate).payLen = s.payLen := rfl
@[simp] theorem invalidate_outLen : (s.invalidate).outLen = s.outLen := rfl
@[simp] theorem invalidate_errInfo : (s.invalidate).errInfo = s.errInfo := rfl
@[simp] theorem invalidate_numSyms : (s.invalidate).numSyms = s.numSyms := rfl
@[simp] theorem invalidate_numNodes : (s.invalidate).numNodes = s.numNodes := rfl
@[simp] theorem invalidate_root : (s.invalidate).root = s.root := rfl
@[simp] theorem invalidate_freq : (s.invalidate).freq = s.freq := rfl
@[simp] theorem invalidate_node : (s.invalidate).node = s.node := rfl
@[simp] theorem invalidate_codeLen : (s.invalidate).codeLen = s.codeLen := rfl
@[simp] theorem invalidate_codeBits : (s.invalidate).codeBits = s.codeBits := rfl
@[simp] theorem invalidate_toDo : (s.invalidate).toDo = s.toDo := rfl
@[simp] theorem invalidate_mem : (s.invalidate).mem = s.mem := rfl
@[simp] theorem invalidate_agenda : (s.invalidate).agenda = s.agenda := rfl
@[simp] theorem invalidate_response : (s.invalidate).response = s.response := rfl
@[simp] theorem invalidate_draws : (s.invalidate).draws = s.draws := rfl
@[simp] theorem invalidate_epoch : (s.invalidate).epoch = s.epoch := rfl

/-! ### storeBytes -/

@[simp] theorem storeBytes_params (b : Buffer) (j : Nat) (bs : List Byte) : (s.storeBytes b j bs).params = s.params := rfl
@[simp] theorem storeBytes_seq (b : Buffer) (j : Nat) (bs : List Byte) : (s.storeBytes b j bs).seq = s.seq := rfl
@[simp] theorem storeBytes_curCmd (b : Buffer) (j : Nat) (bs : List Byte) : (s.storeBytes b j bs).curCmd = s.curCmd := rfl
@[simp] theorem storeBytes_done (b : Buffer) (j : Nat) (bs : List Byte) : (s.storeBytes b j bs).done = s.done := rfl
@[simp] theorem storeBytes_ovr (b : Buffer) (j : Nat) (bs : List Byte) : (s.storeBytes b j bs).ovr = s.ovr := rfl
@[simp] theorem storeBytes_treeValid (b : Buffer) (j : Nat) (bs : List Byte) : (s.storeBytes b j bs).treeValid = s.treeValid := rfl
@[simp] theorem storeBytes_codesValid (b : Buffer) (j : Nat) (bs : List Byte) : (s.storeBytes b j bs).codesValid = s.codesValid := rfl
@[simp] theorem storeBytes_single (b : Buffer) (j : Nat) (bs : List Byte) : (s.storeBytes b j bs).single = s.single := rfl
@[simp] theorem storeBytes_errCode (b : Buffer) (j : Nat) (bs : List Byte) : (s.storeBytes b j bs).errCode = s.errCode := rfl
@[simp] theorem storeBytes_errOp (b : Buffer) (j : Nat) (bs : List Byte) : (s.storeBytes b j bs).errOp = s.errOp := rfl
@[simp] theorem storeBytes_doneIe (b : Buffer) (j : Nat) (bs : List Byte) : (s.storeBytes b j bs).doneIe = s.doneIe := rfl
@[simp] theorem storeBytes_ovrIe (b : Buffer) (j : Nat) (bs : List Byte) : (s.storeBytes b j bs).ovrIe = s.ovrIe := rfl
@[simp] theorem storeBytes_inLen (b : Buffer) (j : Nat) (bs : List Byte) : (s.storeBytes b j bs).inLen = s.inLen := rfl
@[simp] theorem storeBytes_numBits (b : Buffer) (j : Nat) (bs : List Byte) : (s.storeBytes b j bs).numBits = s.numBits := rfl
@[simp] theorem storeBytes_payLen (b : Buffer) (j : Nat) (bs : List Byte) : (s.storeBytes b j bs).payLen = s.payLen := rfl
@[simp] theorem storeBytes_outLen (b : Buffer) (j : Nat) (bs : List Byte) : (s.storeBytes b j bs).outLen = s.outLen := rfl
@[simp] theorem storeBytes_errInfo (b : Buffer) (j : Nat) (bs : List Byte) : (s.storeBytes b j bs).errInfo = s.errInfo := rfl
@[simp] theorem storeBytes_numSyms (b : Buffer) (j : Nat) (bs : List Byte) : (s.storeBytes b j bs).numSyms = s.numSyms := rfl
@[simp] theorem storeBytes_numNodes (b : Buffer) (j : Nat) (bs : List Byte) : (s.storeBytes b j bs).numNodes = s.numNodes := rfl
@[simp] theorem storeBytes_root (b : Buffer) (j : Nat) (bs : List Byte) : (s.storeBytes b j bs).root = s.root := rfl
@[simp] theorem storeBytes_freq (b : Buffer) (j : Nat) (bs : List Byte) : (s.storeBytes b j bs).freq = s.freq := rfl
@[simp] theorem storeBytes_node (b : Buffer) (j : Nat) (bs : List Byte) : (s.storeBytes b j bs).node = s.node := rfl
@[simp] theorem storeBytes_codeLen (b : Buffer) (j : Nat) (bs : List Byte) : (s.storeBytes b j bs).codeLen = s.codeLen := rfl
@[simp] theorem storeBytes_codeBits (b : Buffer) (j : Nat) (bs : List Byte) : (s.storeBytes b j bs).codeBits = s.codeBits := rfl
@[simp] theorem storeBytes_toDo (b : Buffer) (j : Nat) (bs : List Byte) : (s.storeBytes b j bs).toDo = s.toDo := rfl
@[simp] theorem storeBytes_mem (b : Buffer) (j : Nat) (bs : List Byte) : (s.storeBytes b j bs).mem = s.mem.writeCells (bufferBase b + j) bs := rfl
@[simp] theorem storeBytes_agenda (b : Buffer) (j : Nat) (bs : List Byte) : (s.storeBytes b j bs).agenda = s.agenda := rfl
@[simp] theorem storeBytes_response (b : Buffer) (j : Nat) (bs : List Byte) : (s.storeBytes b j bs).response = s.response := rfl
@[simp] theorem storeBytes_draws (b : Buffer) (j : Nat) (bs : List Byte) : (s.storeBytes b j bs).draws = s.draws := rfl
@[simp] theorem storeBytes_epoch (b : Buffer) (j : Nat) (bs : List Byte) : (s.storeBytes b j bs).epoch = s.epoch := rfl

/-! ### writeStatus -/

@[simp] theorem writeStatus_params (v : Word) : (s.writeStatus v).params = s.params := rfl
@[simp] theorem writeStatus_seq (v : Word) : (s.writeStatus v).seq = s.seq := rfl
@[simp] theorem writeStatus_curCmd (v : Word) : (s.writeStatus v).curCmd = s.curCmd := rfl
@[simp] theorem writeStatus_done (v : Word) : (s.writeStatus v).done = (s.done && !v.getLsbD 1) := rfl
@[simp] theorem writeStatus_ovr (v : Word) : (s.writeStatus v).ovr = (s.ovr && !v.getLsbD 2) := rfl
@[simp] theorem writeStatus_treeValid (v : Word) : (s.writeStatus v).treeValid = s.treeValid := rfl
@[simp] theorem writeStatus_codesValid (v : Word) : (s.writeStatus v).codesValid = s.codesValid := rfl
@[simp] theorem writeStatus_single (v : Word) : (s.writeStatus v).single = s.single := rfl
@[simp] theorem writeStatus_errCode (v : Word) : (s.writeStatus v).errCode = s.errCode := rfl
@[simp] theorem writeStatus_errOp (v : Word) : (s.writeStatus v).errOp = s.errOp := rfl
@[simp] theorem writeStatus_doneIe (v : Word) : (s.writeStatus v).doneIe = s.doneIe := rfl
@[simp] theorem writeStatus_ovrIe (v : Word) : (s.writeStatus v).ovrIe = s.ovrIe := rfl
@[simp] theorem writeStatus_inLen (v : Word) : (s.writeStatus v).inLen = s.inLen := rfl
@[simp] theorem writeStatus_numBits (v : Word) : (s.writeStatus v).numBits = s.numBits := rfl
@[simp] theorem writeStatus_payLen (v : Word) : (s.writeStatus v).payLen = s.payLen := rfl
@[simp] theorem writeStatus_outLen (v : Word) : (s.writeStatus v).outLen = s.outLen := rfl
@[simp] theorem writeStatus_errInfo (v : Word) : (s.writeStatus v).errInfo = s.errInfo := rfl
@[simp] theorem writeStatus_numSyms (v : Word) : (s.writeStatus v).numSyms = s.numSyms := rfl
@[simp] theorem writeStatus_numNodes (v : Word) : (s.writeStatus v).numNodes = s.numNodes := rfl
@[simp] theorem writeStatus_root (v : Word) : (s.writeStatus v).root = s.root := rfl
@[simp] theorem writeStatus_freq (v : Word) : (s.writeStatus v).freq = s.freq := rfl
@[simp] theorem writeStatus_node (v : Word) : (s.writeStatus v).node = s.node := rfl
@[simp] theorem writeStatus_codeLen (v : Word) : (s.writeStatus v).codeLen = s.codeLen := rfl
@[simp] theorem writeStatus_codeBits (v : Word) : (s.writeStatus v).codeBits = s.codeBits := rfl
@[simp] theorem writeStatus_toDo (v : Word) : (s.writeStatus v).toDo = s.toDo := rfl
@[simp] theorem writeStatus_mem (v : Word) : (s.writeStatus v).mem = s.mem := rfl
@[simp] theorem writeStatus_agenda (v : Word) : (s.writeStatus v).agenda = s.agenda := rfl
@[simp] theorem writeStatus_response (v : Word) : (s.writeStatus v).response = s.response := rfl
@[simp] theorem writeStatus_draws (v : Word) : (s.writeStatus v).draws = s.draws := rfl
@[simp] theorem writeStatus_epoch (v : Word) : (s.writeStatus v).epoch = s.epoch := rfl

/-! ### writeIrqEn -/

@[simp] theorem writeIrqEn_params (v : Word) : (s.writeIrqEn v).params = s.params := rfl
@[simp] theorem writeIrqEn_seq (v : Word) : (s.writeIrqEn v).seq = s.seq := rfl
@[simp] theorem writeIrqEn_curCmd (v : Word) : (s.writeIrqEn v).curCmd = s.curCmd := rfl
@[simp] theorem writeIrqEn_done (v : Word) : (s.writeIrqEn v).done = s.done := rfl
@[simp] theorem writeIrqEn_ovr (v : Word) : (s.writeIrqEn v).ovr = s.ovr := rfl
@[simp] theorem writeIrqEn_treeValid (v : Word) : (s.writeIrqEn v).treeValid = s.treeValid := rfl
@[simp] theorem writeIrqEn_codesValid (v : Word) : (s.writeIrqEn v).codesValid = s.codesValid := rfl
@[simp] theorem writeIrqEn_single (v : Word) : (s.writeIrqEn v).single = s.single := rfl
@[simp] theorem writeIrqEn_errCode (v : Word) : (s.writeIrqEn v).errCode = s.errCode := rfl
@[simp] theorem writeIrqEn_errOp (v : Word) : (s.writeIrqEn v).errOp = s.errOp := rfl
@[simp] theorem writeIrqEn_doneIe (v : Word) : (s.writeIrqEn v).doneIe = v.getLsbD 0 := rfl
@[simp] theorem writeIrqEn_ovrIe (v : Word) : (s.writeIrqEn v).ovrIe = v.getLsbD 1 := rfl
@[simp] theorem writeIrqEn_inLen (v : Word) : (s.writeIrqEn v).inLen = s.inLen := rfl
@[simp] theorem writeIrqEn_numBits (v : Word) : (s.writeIrqEn v).numBits = s.numBits := rfl
@[simp] theorem writeIrqEn_payLen (v : Word) : (s.writeIrqEn v).payLen = s.payLen := rfl
@[simp] theorem writeIrqEn_outLen (v : Word) : (s.writeIrqEn v).outLen = s.outLen := rfl
@[simp] theorem writeIrqEn_errInfo (v : Word) : (s.writeIrqEn v).errInfo = s.errInfo := rfl
@[simp] theorem writeIrqEn_numSyms (v : Word) : (s.writeIrqEn v).numSyms = s.numSyms := rfl
@[simp] theorem writeIrqEn_numNodes (v : Word) : (s.writeIrqEn v).numNodes = s.numNodes := rfl
@[simp] theorem writeIrqEn_root (v : Word) : (s.writeIrqEn v).root = s.root := rfl
@[simp] theorem writeIrqEn_freq (v : Word) : (s.writeIrqEn v).freq = s.freq := rfl
@[simp] theorem writeIrqEn_node (v : Word) : (s.writeIrqEn v).node = s.node := rfl
@[simp] theorem writeIrqEn_codeLen (v : Word) : (s.writeIrqEn v).codeLen = s.codeLen := rfl
@[simp] theorem writeIrqEn_codeBits (v : Word) : (s.writeIrqEn v).codeBits = s.codeBits := rfl
@[simp] theorem writeIrqEn_toDo (v : Word) : (s.writeIrqEn v).toDo = s.toDo := rfl
@[simp] theorem writeIrqEn_mem (v : Word) : (s.writeIrqEn v).mem = s.mem := rfl
@[simp] theorem writeIrqEn_agenda (v : Word) : (s.writeIrqEn v).agenda = s.agenda := rfl
@[simp] theorem writeIrqEn_response (v : Word) : (s.writeIrqEn v).response = s.response := rfl
@[simp] theorem writeIrqEn_draws (v : Word) : (s.writeIrqEn v).draws = s.draws := rfl
@[simp] theorem writeIrqEn_epoch (v : Word) : (s.writeIrqEn v).epoch = s.epoch := rfl

/-! ### writeFreq -/

@[simp] theorem writeFreq_params (sym : Symbol) (v : Word) : (s.writeFreq sym v).params = s.params := rfl
@[simp] theorem writeFreq_seq (sym : Symbol) (v : Word) : (s.writeFreq sym v).seq = s.seq := rfl
@[simp] theorem writeFreq_curCmd (sym : Symbol) (v : Word) : (s.writeFreq sym v).curCmd = s.curCmd := rfl
@[simp] theorem writeFreq_done (sym : Symbol) (v : Word) : (s.writeFreq sym v).done = s.done := rfl
@[simp] theorem writeFreq_ovr (sym : Symbol) (v : Word) : (s.writeFreq sym v).ovr = s.ovr := rfl
@[simp] theorem writeFreq_treeValid (sym : Symbol) (v : Word) : (s.writeFreq sym v).treeValid = false := rfl
@[simp] theorem writeFreq_codesValid (sym : Symbol) (v : Word) : (s.writeFreq sym v).codesValid = false := rfl
@[simp] theorem writeFreq_single (sym : Symbol) (v : Word) : (s.writeFreq sym v).single = false := rfl
@[simp] theorem writeFreq_errCode (sym : Symbol) (v : Word) : (s.writeFreq sym v).errCode = s.errCode := rfl
@[simp] theorem writeFreq_errOp (sym : Symbol) (v : Word) : (s.writeFreq sym v).errOp = s.errOp := rfl
@[simp] theorem writeFreq_doneIe (sym : Symbol) (v : Word) : (s.writeFreq sym v).doneIe = s.doneIe := rfl
@[simp] theorem writeFreq_ovrIe (sym : Symbol) (v : Word) : (s.writeFreq sym v).ovrIe = s.ovrIe := rfl
@[simp] theorem writeFreq_inLen (sym : Symbol) (v : Word) : (s.writeFreq sym v).inLen = s.inLen := rfl
@[simp] theorem writeFreq_numBits (sym : Symbol) (v : Word) : (s.writeFreq sym v).numBits = s.numBits := rfl
@[simp] theorem writeFreq_payLen (sym : Symbol) (v : Word) : (s.writeFreq sym v).payLen = s.payLen := rfl
@[simp] theorem writeFreq_outLen (sym : Symbol) (v : Word) : (s.writeFreq sym v).outLen = s.outLen := rfl
@[simp] theorem writeFreq_errInfo (sym : Symbol) (v : Word) : (s.writeFreq sym v).errInfo = s.errInfo := rfl
@[simp] theorem writeFreq_numSyms (sym : Symbol) (v : Word) : (s.writeFreq sym v).numSyms = s.numSyms := rfl
@[simp] theorem writeFreq_numNodes (sym : Symbol) (v : Word) : (s.writeFreq sym v).numNodes = s.numNodes := rfl
@[simp] theorem writeFreq_root (sym : Symbol) (v : Word) : (s.writeFreq sym v).root = s.root := rfl
@[simp] theorem writeFreq_freq (sym : Symbol) (v : Word) : (s.writeFreq sym v).freq = s.freq.set sym.toNat v sym.isLt := rfl
@[simp] theorem writeFreq_node (sym : Symbol) (v : Word) : (s.writeFreq sym v).node = s.node := rfl
@[simp] theorem writeFreq_codeLen (sym : Symbol) (v : Word) : (s.writeFreq sym v).codeLen = s.codeLen := rfl
@[simp] theorem writeFreq_codeBits (sym : Symbol) (v : Word) : (s.writeFreq sym v).codeBits = s.codeBits := rfl
@[simp] theorem writeFreq_toDo (sym : Symbol) (v : Word) : (s.writeFreq sym v).toDo = s.toDo := rfl
@[simp] theorem writeFreq_mem (sym : Symbol) (v : Word) : (s.writeFreq sym v).mem = s.mem := rfl
@[simp] theorem writeFreq_agenda (sym : Symbol) (v : Word) : (s.writeFreq sym v).agenda = s.agenda := rfl
@[simp] theorem writeFreq_response (sym : Symbol) (v : Word) : (s.writeFreq sym v).response = s.response := rfl
@[simp] theorem writeFreq_draws (sym : Symbol) (v : Word) : (s.writeFreq sym v).draws = s.draws := rfl
@[simp] theorem writeFreq_epoch (sym : Symbol) (v : Word) : (s.writeFreq sym v).epoch = s.epoch := rfl

/-! ### Readers that an update leaves alone -/

@[simp] theorem acceptCommand_byteAt (v : Word) (a : Nat) : (acceptCommand v s).byteAt a = s.byteAt a := rfl
@[simp] theorem acceptCommand_bufferByte (v : Word) (b' : Buffer) (j' : Nat) : (acceptCommand v s).bufferByte b' j' = s.bufferByte b' j' := rfl
@[simp] theorem acceptCommand_freqAt (v : Word) (x : Symbol) : (acceptCommand v s).freqAt x = s.freqAt x := rfl
@[simp] theorem acceptCommand_codeLenAt (v : Word) (x : Symbol) : (acceptCommand v s).codeLenAt x = s.codeLenAt x := rfl
@[simp] theorem acceptCommand_codeBitsAt (v : Word) (x : Symbol) : (acceptCommand v s).codeBitsAt x = s.codeBitsAt x := rfl
@[simp] theorem acceptCommand_codeOf (v : Word) (x : Symbol) : (acceptCommand v s).codeOf x = s.codeOf x := rfl
@[simp] theorem acceptCommand_nodeAt (v : Word) (n : NodeIx) : (acceptCommand v s).nodeAt n = s.nodeAt n := rfl

@[simp] theorem complete_byteAt (a : Nat) : (complete s).byteAt a = s.byteAt a := rfl
@[simp] theorem complete_bufferByte (b' : Buffer) (j' : Nat) : (complete s).bufferByte b' j' = s.bufferByte b' j' := rfl
@[simp] theorem complete_freqAt (x : Symbol) : (complete s).freqAt x = s.freqAt x := rfl
@[simp] theorem complete_codeLenAt (x : Symbol) : (complete s).codeLenAt x = s.codeLenAt x := rfl
@[simp] theorem complete_codeBitsAt (x : Symbol) : (complete s).codeBitsAt x = s.codeBitsAt x := rfl
@[simp] theorem complete_codeOf (x : Symbol) : (complete s).codeOf x = s.codeOf x := rfl
@[simp] theorem complete_nodeAt (n : NodeIx) : (complete s).nodeAt n = s.nodeAt n := rfl

@[simp] theorem raise_byteAt (op : BitVec 4) (e : ErrorCode) (info : Word) (a : Nat) : (raise op e info s).byteAt a = s.byteAt a := rfl
@[simp] theorem raise_bufferByte (op : BitVec 4) (e : ErrorCode) (info : Word) (b' : Buffer) (j' : Nat) : (raise op e info s).bufferByte b' j' = s.bufferByte b' j' := rfl
@[simp] theorem raise_freqAt (op : BitVec 4) (e : ErrorCode) (info : Word) (x : Symbol) : (raise op e info s).freqAt x = s.freqAt x := rfl
@[simp] theorem raise_codeLenAt (op : BitVec 4) (e : ErrorCode) (info : Word) (x : Symbol) : (raise op e info s).codeLenAt x = s.codeLenAt x := rfl
@[simp] theorem raise_codeBitsAt (op : BitVec 4) (e : ErrorCode) (info : Word) (x : Symbol) : (raise op e info s).codeBitsAt x = s.codeBitsAt x := rfl
@[simp] theorem raise_codeOf (op : BitVec 4) (e : ErrorCode) (info : Word) (x : Symbol) : (raise op e info s).codeOf x = s.codeOf x := rfl
@[simp] theorem raise_nodeAt (op : BitVec 4) (e : ErrorCode) (info : Word) (n : NodeIx) : (raise op e info s).nodeAt n = s.nodeAt n := rfl

@[simp] theorem invalidate_byteAt (a : Nat) : (s.invalidate).byteAt a = s.byteAt a := rfl
@[simp] theorem invalidate_bufferByte (b' : Buffer) (j' : Nat) : (s.invalidate).bufferByte b' j' = s.bufferByte b' j' := rfl
@[simp] theorem invalidate_freqAt (x : Symbol) : (s.invalidate).freqAt x = s.freqAt x := rfl
@[simp] theorem invalidate_codeLenAt (x : Symbol) : (s.invalidate).codeLenAt x = s.codeLenAt x := rfl
@[simp] theorem invalidate_codeBitsAt (x : Symbol) : (s.invalidate).codeBitsAt x = s.codeBitsAt x := rfl
@[simp] theorem invalidate_codeOf (x : Symbol) : (s.invalidate).codeOf x = s.codeOf x := rfl
@[simp] theorem invalidate_nodeAt (n : NodeIx) : (s.invalidate).nodeAt n = s.nodeAt n := rfl

@[simp] theorem storeBytes_freqAt (b : Buffer) (j : Nat) (bs : List Byte) (x : Symbol) : (s.storeBytes b j bs).freqAt x = s.freqAt x := rfl
@[simp] theorem storeBytes_codeLenAt (b : Buffer) (j : Nat) (bs : List Byte) (x : Symbol) : (s.storeBytes b j bs).codeLenAt x = s.codeLenAt x := rfl
@[simp] theorem storeBytes_codeBitsAt (b : Buffer) (j : Nat) (bs : List Byte) (x : Symbol) : (s.storeBytes b j bs).codeBitsAt x = s.codeBitsAt x := rfl
@[simp] theorem storeBytes_codeOf (b : Buffer) (j : Nat) (bs : List Byte) (x : Symbol) : (s.storeBytes b j bs).codeOf x = s.codeOf x := rfl
@[simp] theorem storeBytes_nodeAt (b : Buffer) (j : Nat) (bs : List Byte) (n : NodeIx) : (s.storeBytes b j bs).nodeAt n = s.nodeAt n := rfl

@[simp] theorem writeStatus_byteAt (v : Word) (a : Nat) : (s.writeStatus v).byteAt a = s.byteAt a := rfl
@[simp] theorem writeStatus_bufferByte (v : Word) (b' : Buffer) (j' : Nat) : (s.writeStatus v).bufferByte b' j' = s.bufferByte b' j' := rfl
@[simp] theorem writeStatus_freqAt (v : Word) (x : Symbol) : (s.writeStatus v).freqAt x = s.freqAt x := rfl
@[simp] theorem writeStatus_codeLenAt (v : Word) (x : Symbol) : (s.writeStatus v).codeLenAt x = s.codeLenAt x := rfl
@[simp] theorem writeStatus_codeBitsAt (v : Word) (x : Symbol) : (s.writeStatus v).codeBitsAt x = s.codeBitsAt x := rfl
@[simp] theorem writeStatus_codeOf (v : Word) (x : Symbol) : (s.writeStatus v).codeOf x = s.codeOf x := rfl
@[simp] theorem writeStatus_nodeAt (v : Word) (n : NodeIx) : (s.writeStatus v).nodeAt n = s.nodeAt n := rfl

@[simp] theorem writeIrqEn_byteAt (v : Word) (a : Nat) : (s.writeIrqEn v).byteAt a = s.byteAt a := rfl
@[simp] theorem writeIrqEn_bufferByte (v : Word) (b' : Buffer) (j' : Nat) : (s.writeIrqEn v).bufferByte b' j' = s.bufferByte b' j' := rfl
@[simp] theorem writeIrqEn_freqAt (v : Word) (x : Symbol) : (s.writeIrqEn v).freqAt x = s.freqAt x := rfl
@[simp] theorem writeIrqEn_codeLenAt (v : Word) (x : Symbol) : (s.writeIrqEn v).codeLenAt x = s.codeLenAt x := rfl
@[simp] theorem writeIrqEn_codeBitsAt (v : Word) (x : Symbol) : (s.writeIrqEn v).codeBitsAt x = s.codeBitsAt x := rfl
@[simp] theorem writeIrqEn_codeOf (v : Word) (x : Symbol) : (s.writeIrqEn v).codeOf x = s.codeOf x := rfl
@[simp] theorem writeIrqEn_nodeAt (v : Word) (n : NodeIx) : (s.writeIrqEn v).nodeAt n = s.nodeAt n := rfl

@[simp] theorem writeFreq_byteAt (sym : Symbol) (v : Word) (a : Nat) : (s.writeFreq sym v).byteAt a = s.byteAt a := rfl
@[simp] theorem writeFreq_bufferByte (sym : Symbol) (v : Word) (b' : Buffer) (j' : Nat) : (s.writeFreq sym v).bufferByte b' j' = s.bufferByte b' j' := rfl
@[simp] theorem writeFreq_codeLenAt (sym : Symbol) (v : Word) (x : Symbol) : (s.writeFreq sym v).codeLenAt x = s.codeLenAt x := rfl
@[simp] theorem writeFreq_codeBitsAt (sym : Symbol) (v : Word) (x : Symbol) : (s.writeFreq sym v).codeBitsAt x = s.codeBitsAt x := rfl
@[simp] theorem writeFreq_codeOf (sym : Symbol) (v : Word) (x : Symbol) : (s.writeFreq sym v).codeOf x = s.codeOf x := rfl
@[simp] theorem writeFreq_nodeAt (sym : Symbol) (v : Word) (n : NodeIx) : (s.writeFreq sym v).nodeAt n = s.nodeAt n := rfl

/-! ### Results -/

@[simp] theorem Result.completion_ok : (Result.ok s).completion = complete s := rfl

@[simp] theorem Result.completion_err (op : BitVec 4) (e : ErrorCode) (info : Word) :
    (Result.err op e info s).completion = raise op e info s := rfl

@[simp] theorem Result.andThen_ok (f : State → Result) : (Result.ok s).andThen f = f s := rfl

@[simp] theorem Result.andThen_err (f : State → Result) (op : BitVec 4) (e : ErrorCode) (info : Word) :
    (Result.err op e info s).andThen f = .err op e info s := rfl

/-- A command's outcome is the next state that completes it, and no other outcome. -/
theorem Result.outcome_eq (r : Result) : r.outcome = .next r.completion := rfl

end Sys2Proof.Machine
end

