-- ==== Sys2Proof/Laws/Memory.lean ====
section
/-! SUPPORT. What the memory operations do: a write is read back, leaves every other byte alone and keeps the
canonical form. -/

namespace Sys2Proof.Machine

/-- Reading any offset after writing one byte. -/
theorem readCell_writeCell (m : Memory) (x y : Nat) (b : Byte) :
    (m.writeCell x b).readCell y = if y = x then some b else m.readCell y := by
  induction m with
  | nil => simp [Memory.writeCell, Memory.readCell]
  | cons c rest ih =>
    obtain ⟨a, v⟩ := c
    simp only [Memory.writeCell]
    split
    · simp only [Memory.readCell]
    · split
      · rename_i hxa
        subst hxa
        simp only [Memory.readCell]
        by_cases h : y = x <;> simp [h]
      · simp only [Memory.readCell, ih]
        by_cases h : y = a <;> by_cases h' : y = x <;> simp_all

/-- Reading any offset after writing consecutive bytes. -/
theorem readCell_writeCells (bs : List Byte) (m : Memory) (x y : Nat) :
    (m.writeCells x bs).readCell y =
      if x ≤ y ∧ y < x + bs.length then some (bs.getD (y - x) 0) else m.readCell y := by
  induction bs generalizing m x with
  | nil =>
    have h : ¬(x ≤ y ∧ y < x + 0) := by omega
    rw [Memory.writeCells, List.length_nil, if_neg h]
  | cons b rest ih =>
    rw [Memory.writeCells, ih, readCell_writeCell, List.length_cons]
    by_cases h1 : x + 1 ≤ y ∧ y < x + 1 + rest.length
    · have h2 : x ≤ y ∧ y < x + (rest.length + 1) := by omega
      have h3 : y - x = (y - (x + 1)) + 1 := by omega
      rw [if_pos h1, if_pos h2, h3, List.getD_cons_succ]
    · rw [if_neg h1]
      by_cases h4 : y = x
      · subst h4
        simp
      · have h5 : ¬(x ≤ y ∧ y < x + (rest.length + 1)) := by omega
        rw [if_neg h5, if_neg h4]

/-- The offsets listed after writing one byte. -/
theorem mem_writeCell_iff {m : Memory} (hm : m.wf = true) (x : Nat) (b : Byte) (a : Nat) (v : Byte) :
    (a, v) ∈ m.writeCell x b ↔ (a = x ∧ v = b) ∨ (a ≠ x ∧ (a, v) ∈ m) := by
  induction m with
  | nil => simp [Memory.writeCell]
  | cons c rest ih =>
    obtain ⟨a', v'⟩ := c
    simp only [Memory.wf, List.map_cons, List.pairwise_cons, decide_eq_true_eq] at hm ih
    obtain ⟨hlt, hrest⟩ := hm
    have hlt' : ∀ z w, (z, w) ∈ rest → a' < z := fun z w hz => hlt z (List.mem_map.mpr ⟨(z, w), hz, rfl⟩)
    simp only [Memory.writeCell]
    split
    · rename_i hxa
      simp only [List.mem_cons, Prod.mk.injEq]
      constructor
      · rintro (h | ⟨rfl, rfl⟩ | h)
        · exact .inl h
        · exact .inr ⟨by omega, .inl ⟨rfl, rfl⟩⟩
        · have := hlt' _ _ h
          exact .inr ⟨by omega, .inr h⟩
      · rintro (h | ⟨-, h⟩)
        · exact .inl h
        · exact .inr h
    · split
      · rename_i hxa
        subst hxa
        simp only [List.mem_cons, Prod.mk.injEq]
        constructor
        · rintro (h | h)
          · exact .inl h
          · have := hlt' _ _ h
            exact .inr ⟨by omega, .inr h⟩
        · rintro (h | ⟨hne, h | h⟩)
          · exact .inl h
          · exact absurd h.1 hne
          · exact .inr h
      · rename_i hxa hxa'
        simp only [List.mem_cons, Prod.mk.injEq, ih hrest]
        constructor
        · rintro (⟨rfl, rfl⟩ | h | ⟨hne, h⟩)
          · exact .inr ⟨by omega, .inl ⟨rfl, rfl⟩⟩
          · exact .inl h
          · exact .inr ⟨hne, .inr h⟩
        · rintro (h | ⟨hne, h | h⟩)
          · exact .inr (.inl h)
          · exact .inl h
          · exact .inr (.inr ⟨hne, h⟩)

/-- The canonical form, as a proposition. -/
theorem wf_iff (m : Memory) : m.wf = true ↔ (m.map Prod.fst).Pairwise (· < ·) := by
  simp [Memory.wf]

/-- Writing one byte keeps the canonical form. -/
theorem writeCell_wf {m : Memory} (hm : m.wf = true) (x : Nat) (b : Byte) : (m.writeCell x b).wf = true := by
  induction m with
  | nil => simp [Memory.writeCell, Memory.wf]
  | cons c rest ih =>
    obtain ⟨a', v'⟩ := c
    rw [wf_iff, List.map_cons, List.pairwise_cons] at hm
    obtain ⟨hlt, hrest⟩ := hm
    have hr : Memory.wf rest = true := (wf_iff rest).mpr hrest
    rw [Memory.writeCell, wf_iff]
    split
    · rename_i hxa
      simp only [List.map_cons, List.pairwise_cons, List.mem_cons]
      refine ⟨?_, hlt, hrest⟩
      rintro z (rfl | hz)
      · exact hxa
      · exact lt_trans hxa (hlt z hz)
    · split
      · rename_i hxa
        subst hxa
        rw [List.map_cons, List.pairwise_cons]
        exact ⟨hlt, hrest⟩
      · rename_i hxa hxa'
        rw [List.map_cons, List.pairwise_cons]
        refine ⟨?_, (wf_iff _).mp (ih hr)⟩
        intro z hz
        obtain ⟨⟨z', w⟩, hzw, rfl⟩ := List.mem_map.mp hz
        rcases (mem_writeCell_iff hr x b z' w).mp hzw with ⟨rfl, -⟩ | ⟨-, h⟩
        · exact lt_of_le_of_ne (by simpa using hxa) (fun h => hxa' h.symm)
        · exact hlt _ (List.mem_map.mpr ⟨(z', w), h, rfl⟩)

/-- Writing consecutive bytes keeps the canonical form. -/
theorem writeCells_wf (bs : List Byte) {m : Memory} (hm : m.wf = true) (x : Nat) : (m.writeCells x bs).wf = true := by
  induction bs generalizing m x with
  | nil => exact hm
  | cons b rest ih => exact ih (writeCell_wf hm x b) (x + 1)

/-- What is listed after writing consecutive bytes was written now, or was listed before. -/
theorem mem_writeCells {bs : List Byte} {m : Memory} (hm : m.wf = true) {x a : Nat} {v : Byte}
    (h : (a, v) ∈ m.writeCells x bs) : (x ≤ a ∧ a < x + bs.length) ∨ (a, v) ∈ m := by
  induction bs generalizing m x with
  | nil => exact .inr h
  | cons b rest ih =>
    rw [List.length_cons]
    rcases ih (writeCell_wf hm x b) h with h' | h'
    · exact .inl (by omega)
    · rcases (mem_writeCell_iff hm x b a v).mp h' with ⟨rfl, -⟩ | ⟨-, h''⟩
      · exact .inl (by omega)
      · exact .inr h''

/-- Any byte after a store: the stored one in the range stored to, and what it was elsewhere. -/
theorem byteAt_storeBytes (s : State) (b : Buffer) (j : Nat) (bs : List Byte) (a : Nat) :
    (s.storeBytes b j bs).byteAt a =
      if bufferBase b + j ≤ a ∧ a < bufferBase b + j + bs.length then bs.getD (a - (bufferBase b + j)) 0
      else s.byteAt a := by
  simp only [State.byteAt, storeBytes_mem, storeBytes_epoch, readCell_writeCells]
  split <;> simp

/-- A byte of the buffer stored to, with the store starting at its byte 0. -/
theorem bufferByte_storeBytes_same (s : State) (b : Buffer) (bs : List Byte) (j : Nat) :
    (s.storeBytes b 0 bs).bufferByte b j = if j < bs.length then bs.getD j 0 else s.bufferByte b j := by
  simp only [State.bufferByte, byteAt_storeBytes, Nat.add_zero]
  by_cases h : j < bs.length
  · have h1 : bufferBase b ≤ bufferBase b + j ∧ bufferBase b + j < bufferBase b + bs.length := by omega
    rw [if_pos h1, if_pos h, Nat.add_sub_cancel_left]
  · have h1 : ¬(bufferBase b ≤ bufferBase b + j ∧ bufferBase b + j < bufferBase b + bs.length) := by omega
    rw [if_neg h1, if_neg h]

/-- With legal parameters a capacity is at most 2^24 (00_scope.md R6). -/
theorem capacity_le {p : Params} (h : p.wellFormed = true) (b : Buffer) : 1 ≤ capacity p b ∧ capacity p b ≤ 16777216 := by
  simp only [Params.wellFormed, Params.legalCap, Params.maxCap, Bool.and_eq_true, decide_eq_true_eq] at h
  cases b <;> simp only [capacity] <;> omega

/-- The buffers do not overlap: a byte of one lies outside the first 2^24 bytes of another (20_memory.md R61). -/
theorem bufferBase_apart {b c : Buffer} (h : b ≠ c) {j n : Nat} (hj : j < 16777216) (hn : n ≤ 16777216) :
    ¬(bufferBase c ≤ bufferBase b + j ∧ bufferBase b + j < bufferBase c + n) := by
  cases b <;> cases c <;> first | exact absurd rfl h | (simp only [bufferBase]; omega)

/-- A store into one buffer leaves every byte of another alone. -/
theorem bufferByte_storeBytes_other (s : State) {b c : Buffer} (h : b ≠ c) (bs : List Byte)
    (hn : bs.length ≤ 16777216) {j : Nat} (hj : j < 16777216) :
    (s.storeBytes c 0 bs).bufferByte b j = s.bufferByte b j := by
  simp only [State.bufferByte, byteAt_storeBytes, Nat.add_zero]
  rw [if_neg (bufferBase_apart h hj hn)]

/-- The bytes of a buffer are those read one by one. -/
theorem bufferBytes_length (s : State) (b : Buffer) (n : Nat) : (s.bufferBytes b n).length = n := by
  simp [State.bufferBytes]

theorem bufferBytes_getD (s : State) (b : Buffer) {n j : Nat} (h : j < n) (d : Byte) :
    (s.bufferBytes b n).getD j d = s.bufferByte b j := by
  simp [State.bufferBytes, List.getD, h]

end Sys2Proof.Machine
end

