-- ==== Sys2Proof/Laws/Bits.lean ====
section
/-! SUPPORT. Bits in words and bytes: reading back what the layouts of CODE_BITS (10_state.md R42) and of the payload
(20_memory.md R74) hold; tables; bytes and words on the bus. -/

namespace Sys2Proof.Machine

/-- The bits of the number that a list of bits spells, most significant first, after the bits of acc. -/
theorem foldl_bits_testBit (bits : List Bool) (acc k : Nat) :
    (bits.foldl (fun a b => 2 * a + b.toNat) acc).testBit k =
      if k < bits.length then bits.getD (bits.length - 1 - k) false else acc.testBit (k - bits.length) := by
  induction bits generalizing acc with
  | nil => simp
  | cons b rest ih =>
    have hbit : 2 * acc + b.toNat = Nat.bit b acc := by cases b <;> simp [Nat.bit]
    rw [List.foldl_cons, ih, List.length_cons]
    by_cases h1 : k < rest.length
    · have h2 : rest.length + 1 - 1 - k = (rest.length - 1 - k) + 1 := by omega
      rw [if_pos h1, if_pos (by omega), h2, List.getD_cons_succ]
    · rw [if_neg h1, hbit]
      by_cases h3 : k = rest.length
      · subst h3
        simp
      · have h4 : k - rest.length = (k - (rest.length + 1)) + 1 := by omega
        rw [if_neg (by omega), h4, Nat.testBit_bit_succ]

/-- Bit i from the top of a word spelt by as many bits as its width. -/
theorem getMsbD_msbFirst {w : Nat} {bits : List Bool} (h : bits.length = w) (i : Nat) :
    (msbFirst w bits).getMsbD i = bits.getD i false := by
  simp only [msbFirst, BitVec.getMsbD, BitVec.getLsbD_ofNat, foldl_bits_testBit]
  by_cases hi : i < w
  · have h1 : w - 1 - i < bits.length := by omega
    have h2 : bits.length - 1 - (w - 1 - i) = i := by omega
    have h3 : w - 1 - i < w := by omega
    simp [hi, h1, h2, h3]
  · rw [List.getD_eq_default bits false (by omega : bits.length ≤ i)]
    simp [hi]

/-- Bit i of CODE_BITS is code bit i, and 0 beyond the code (10_state.md R42). -/
theorem getMsbD_codeWord {c : List Bool} (h : c.length ≤ 256) (i : Nat) :
    (codeWord c).getMsbD i = c.getD i false := by
  rw [codeWord, getMsbD_msbFirst (by simp; omega)]
  by_cases hi : i < c.length
  · simp [List.getD, List.getElem?_append_left hi]
  · simp only [List.getD, List.getElem?_append_right (Nat.le_of_not_lt hi), List.getElem?_replicate]
    rw [List.getElem?_eq_none (by omega : c.length ≤ i)]
    split <;> rfl

/-- An entry of a table made by `tabulate`. -/
@[simp] theorem getElem_tabulate {α : Type} (n : Nat) (f : Nat → α) (i : Nat) (h : i < n) :
    (tabulate n f)[i] = f i := by
  simp [tabulate]

/-- A byte of a payload holds eight of its bits, most significant first (20_memory.md R74). -/
theorem getLsbD_payloadByte (bits : List Bool) (j r : Nat) (h : r < 8) :
    (payloadByte bits j).getLsbD (7 - r) = bits.getD (8 * j + r) false := by
  have h1 := getMsbD_msbFirst (w := 8) (bits := (List.range 8).map fun b => bits.getD (8 * j + b) false) (by simp) r
  rw [BitVec.getMsbD, decide_eq_true h, Bool.true_and] at h1
  rw [payloadByte, show 7 - r = 8 - 1 - r from rfl, h1]
  simp [List.getD, h]

/-- The number of bytes of a payload (20_memory.md R75). -/
@[simp] theorem payloadBytes_length (bits : List Bool) : (payloadBytes bits).length = ceilDiv8 bits.length := by
  simp [payloadBytes]

theorem payloadBytes_getD (bits : List Bool) {j : Nat} (h : j < ceilDiv8 bits.length) :
    (payloadBytes bits).getD j 0 = payloadByte bits j := by
  simp [payloadBytes, List.getD, h]

/-- PayBit(i) of a payload stored at the start of PAY_BUF, padding included: bit i, and 0 beyond the bits
(20_memory.md R74; 43_bit_packer.md R134). -/
theorem payBit_storeBytes (s : State) (bits : List Bool) {i : Nat} (h : i < 8 * ceilDiv8 bits.length) :
    (s.storeBytes .payBuf 0 (payloadBytes bits)).payBit i = bits.getD i false := by
  have h1 : i / 8 < ceilDiv8 bits.length := by omega
  rw [State.payBit, bufferByte_storeBytes_same, payloadBytes_length, if_pos h1, payloadBytes_getD bits h1,
    getLsbD_payloadByte bits _ _ (by omega)]
  congr 1
  omega

/-- The bits of a code are as many as CODE_LEN says. -/
@[simp] theorem codeOf_length (s : State) (sym : Symbol) : (s.codeOf sym).length = (s.codeLenAt sym).toNat := by
  simp [State.codeOf]

/-- The code read back from a code table that holds it in the layout of 10_state.md R42. -/
theorem codeOf_eq {s : State} {sym : Symbol} {c : List Bool} (hc : c.length ≤ 255)
    (hl : s.codeLenAt sym = BitVec.ofNat 8 c.length) (hb : s.codeBitsAt sym = codeWord c) : s.codeOf sym = c := by
  have hlen : (s.codeLenAt sym).toNat = c.length := by rw [hl, BitVec.toNat_ofNat]; omega
  apply List.ext_getElem
  · simp [hlen]
  · intro i h1 h2
    have h3 : (codeWord c).getMsbD i = c.getD i false := getMsbD_codeWord (by omega) i
    simp only [State.codeOf, List.getElem_map, List.getElem_range, State.codeBit, hb, h3]
    simp [List.getD, h2]

/-- The total of PACK is the number of bits it emits (43_bit_packer.md R135). -/
theorem packBits_length (s : State) (input : List Byte) : (s.packBits input).length = s.packTotal input := by
  simp [State.packBits, State.packTotal, List.length_flatMap]

/-- A word is its four bytes (20_memory.md R66). -/
theorem bytesWord_wordBytes (w : Word) :
    bytesWord (w.extractLsb' 0 8) (w.extractLsb' 8 8) (w.extractLsb' 16 8) (w.extractLsb' 24 8) = w := by
  apply BitVec.eq_of_getLsbD_eq
  intro i hi
  simp only [bytesWord, BitVec.getLsbD_append, BitVec.getLsbD_extractLsb']
  rcases (by omega : i < 8 ∨ (8 ≤ i ∧ i < 16) ∨ (16 ≤ i ∧ i < 24) ∨ (24 ≤ i ∧ i < 32)) with h | h | h | h
  · simp [h]
  · have h1 : ¬i < 8 := by omega
    have h2 : i - 8 < 8 := by omega
    simp [h1, h2, show 8 + (i - 8) = i by omega]
  · have h1 : ¬i < 8 := by omega
    have h2 : ¬i - 8 < 8 := by omega
    have h3 : i - 8 - 8 < 8 := by omega
    simp [h1, h2, h3, show 16 + (i - 8 - 8) = i by omega]
  · have h1 : ¬i < 8 := by omega
    have h2 : ¬i - 8 < 8 := by omega
    have h3 : ¬i - 8 - 8 < 8 := by omega
    have h4 : i - 8 - 8 - 8 < 8 := by omega
    simp [h1, h2, h3, h4, show 24 + (i - 8 - 8 - 8) = i by omega]

end Sys2Proof.Machine
end

