-- ==== Sys2Proof/Laws/Build.lean ====
section
/-! SUPPORT. What BUILD's construction does: RemoveMin, one merge, all merges, and the shape of the finished tree
(41_tree_builder.md R111 to R119; 10_state.md R43). -/

namespace Sys2Proof.Machine

/-! ### RemoveMin -/

theorem keyBefore_iff (weight : NodeIx → Weight) (a b : NodeIx) : keyBefore weight a b = true ↔ KeyLess weight a b := by
  simp only [keyBefore, KeyLess, Bool.or_eq_true, Bool.and_eq_true, decide_eq_true_eq, beq_iff_eq, BitVec.lt_def]
  rw [BitVec.toNat_inj]

theorem KeyLess.trans {weight : NodeIx → Weight} {a b c : NodeIx} (h1 : KeyLess weight a b) (h2 : KeyLess weight b c) :
    KeyLess weight a c := by
  simp only [KeyLess] at *
  omega

theorem KeyLess.total {weight : NodeIx → Weight} {a b : NodeIx} (h1 : ¬KeyLess weight a b) (h2 : b ≠ a) :
    KeyLess weight b a := by
  have h3 : b.toNat ≠ a.toNat := fun h => h2 (BitVec.eq_of_toNat_eq h)
  simp only [KeyLess] at *
  omega

/-- The key found is one of the entries, and less than every other one. -/
theorem leastKey_spec (weight : NodeIx → Weight) (best : NodeIx) (l : List NodeIx) :
    leastKey weight best l ∈ best :: l ∧
      ∀ c ∈ best :: l, c ≠ leastKey weight best l → KeyLess weight (leastKey weight best l) c := by
  induction l generalizing best with
  | nil => simp [leastKey]
  | cons n rest ih =>
    simp only [leastKey]
    obtain ⟨hmem, hleast⟩ := ih (if keyBefore weight n best then n else best)
    by_cases hk : keyBefore weight n best = true
    · rw [if_pos hk] at *
      have hkl := (keyBefore_iff weight n best).mp hk
      refine ⟨List.mem_cons_of_mem _ hmem, ?_⟩
      intro c hc hne
      rcases List.mem_cons.mp hc with rfl | hc
      · by_cases hn : n = leastKey weight n rest
        · rw [← hn]
          exact hkl
        · exact (hleast n (List.mem_cons_self) hn).trans hkl
      · exact hleast c hc hne
    · rw [if_neg hk] at *
      have hkl : ¬KeyLess weight n best := fun h => hk ((keyBefore_iff weight n best).mpr h)
      refine ⟨?_, ?_⟩
      · rcases List.mem_cons.mp hmem with h | h
        · rw [h]
          exact List.mem_cons_self
        · exact List.mem_cons_of_mem _ (List.mem_cons_of_mem _ h)
      · intro c hc hne
        rcases List.mem_cons.mp hc with rfl | hc
        · exact hleast c (List.mem_cons_self) hne
        · rcases List.mem_cons.mp hc with rfl | hc
          · by_cases hbn : best = c
            · subst hbn
              exact hleast best (List.mem_cons_self) hne
            · have hbc : KeyLess weight best c := KeyLess.total hkl hbn
              by_cases hb : best = leastKey weight best rest
              · rw [← hb]
                exact hbc
              · exact (hleast best (List.mem_cons_self) hb).trans hbc
          · exact hleast c (List.mem_cons_of_mem _ hc) hne

/-- RemoveMin on a collection that is not empty (41_tree_builder.md R114). -/
theorem removeMin_spec (weight : NodeIx → Weight) {l : List NodeIx} (h : l ≠ []) :
    ∃ a, removeMin weight l = some (a, l.erase a) ∧ a ∈ l ∧ ∀ c ∈ l, c ≠ a → KeyLess weight a c := by
  cases l with
  | nil => exact absurd rfl h
  | cons n rest =>
    obtain ⟨h1, h2⟩ := leastKey_spec weight n rest
    exact ⟨leastKey weight n rest, rfl, h1, h2⟩

/-! ### One merge -/

/-- The arena of a tree under construction. -/
def Builder.arena (b : Builder) (n : NodeIx) : Node := b.nodes.getD n.toNat .empty

theorem Builder.weightOf_eq (b : Builder) : b.weightOf = fun n => (b.arena n).weight := rfl

/-- A merge of a collection with two entries or more (41_tree_builder.md R113). -/
theorem Builder.merge_spec {b : Builder} (hlen : 1 < b.toDo.length) (hnd : b.toDo.Nodup) :
    ∃ first second, first ∈ b.toDo ∧ second ∈ b.toDo ∧ second ≠ first ∧
      (∀ c ∈ b.toDo, c ≠ first → KeyLess b.weightOf first c) ∧
      (∀ c ∈ b.toDo, c ≠ first → c ≠ second → KeyLess b.weightOf second c) ∧
      b.merge =
        { nodes := b.nodes ++ [.internal second first (b.weightOf first + b.weightOf second)]
          toDo := (b.toDo.erase first).erase second ++ [BitVec.ofNat 9 b.nodes.length] } := by
  have h1 : b.toDo ≠ [] := by
    rintro h
    rw [h] at hlen
    simp at hlen
  obtain ⟨a, ha, ham, hal⟩ := removeMin_spec b.weightOf h1
  have h2 : b.toDo.erase a ≠ [] := by
    intro h
    have := List.length_erase_of_mem ham
    rw [h] at this
    simp at this
    omega
  obtain ⟨c, hc, hcm, hcl⟩ := removeMin_spec b.weightOf h2
  have hcm' := (hnd.mem_erase_iff).mp hcm
  refine ⟨a, c, ham, hcm'.2, hcm'.1, hal, ?_, ?_⟩
  · intro x hx hxa hxc
    exact hcl x ((hnd.mem_erase_iff).mpr ⟨hxa, hx⟩) hxc
  · simp only [Builder.merge, ha, hc]

/-- What holds of the tree under construction after every merge, k being the number of symbols present. -/
structure BuildInv (freqAt : Symbol → Word) (present : List Symbol) (b : Builder) : Prop where
  /-- Each merge makes a node and takes one entry out of toDo. -/
  count : b.nodes.length + b.toDo.length = 2 * present.length
  lower : present.length ≤ b.nodes.length
  nonempty : 1 ≤ b.toDo.length
  nodup : b.toDo.Nodup
  leaves : ∀ i, i < present.length →
    b.nodes.getD i .empty = .leaf (present.getD i 0) ((freqAt (present.getD i 0)).setWidth 40)
  internals : ∀ i, present.length ≤ i → i < b.nodes.length →
    ∃ left right w, b.nodes.getD i .empty = .internal left right w ∧ left.toNat < i ∧ right.toNat < i ∧
      left ≠ right ∧ w.toNat = (b.arena left).weight.toNat + (b.arena right).weight.toNat
  /-- toDo holds the nodes that are no node's child yet. -/
  toDo : ∀ n, n ∈ b.toDo ↔ n.toNat < b.nodes.length ∧ ∀ p, ¬IsParent b.arena p n
  /-- Every other node is a child once. -/
  oneParent : ∀ n : NodeIx, n.toNat < b.nodes.length → n ∉ b.toDo → ∃! p, IsParent b.arena p n
  /-- No weight is lost. -/
  total : ((b.toDo.map fun n => (b.weightOf n).toNat)).sum = ((present.map fun s => (freqAt s).toNat)).sum
  order : MergesLeastTwo b.arena

/-- The arena after one more node. -/
theorem Builder.arena_append (nodes : List Node) (toDo toDo' : List NodeIx) (x : Node) (n : NodeIx) :
    (Builder.mk (nodes ++ [x]) toDo').arena n =
      if n.toNat = nodes.length then x else (Builder.mk nodes toDo).arena n := by
  simp only [Builder.arena, List.getD]
  by_cases h : n.toNat = nodes.length
  · simp [h]
  · rw [if_neg h]
    rcases Nat.lt_or_gt_of_ne h with h' | h'
    · rw [List.getElem?_append_left h']
    · rw [List.getElem?_eq_none (by simp; omega), List.getElem?_eq_none (by omega)]

/-- A merge keeps the invariant, while weights fit in 40 bits (41_tree_builder.md R119). -/
theorem BuildInv.merge {freqAt : Symbol → Word} {present : List Symbol} {b : Builder}
    (hk : present.length ≤ 256) (htot : ((present.map fun s => (freqAt s).toNat)).sum < 2 ^ 40)
    (hb : BuildInv freqAt present b) (hlen : 1 < b.toDo.length) : BuildInv freqAt present b.merge := by
  obtain ⟨a, c, ha, hc, hca, hleast1, hleast2, hmerge⟩ := Builder.merge_spec hlen hb.nodup
  obtain ⟨N, hN⟩ : ∃ N, b.nodes.length = N := ⟨_, rfl⟩
  have hcount := hb.count
  have hlower := hb.lower
  rw [hN] at hcount hlower
  have hN510 : N ≤ 510 := by omega
  have hNval : (BitVec.ofNat 9 N).toNat = N := by rw [BitVec.toNat_ofNat]; omega
  have haN : a.toNat < N := hN ▸ ((hb.toDo a).mp ha).1
  have hcN : c.toNat < N := hN ▸ ((hb.toDo c).mp hc).1
  have hcea : c ∈ b.toDo.erase a := (hb.nodup.mem_erase_iff).mpr ⟨hca, hc⟩
  -- the arena before and after
  obtain ⟨x, hx⟩ : ∃ x, x = Node.internal c a (b.weightOf a + b.weightOf c) := ⟨_, rfl⟩
  rw [← hx, hN] at hmerge
  have hat : ∀ n : NodeIx, b.merge.arena n = if n.toNat = N then x else b.arena n := by
    intro n
    rw [hmerge, ← hN]
    exact Builder.arena_append b.nodes b.toDo _ x n
  have hatlt : ∀ n : NodeIx, n.toNat < N → b.merge.arena n = b.arena n := by
    intro n hn
    rw [hat, if_neg (by omega)]
  have hatN : b.merge.arena (BitVec.ofNat 9 N) = x := by rw [hat, if_pos hNval]
  have hempty : ∀ n : NodeIx, N ≤ n.toNat → b.arena n = .empty := by
    intro n hn
    simp only [Builder.arena]
    exact List.getD_eq_default _ _ (by omega)
  have hwlt : ∀ n : NodeIx, n.toNat < N → b.merge.weightOf n = b.weightOf n := by
    intro n hn
    simp only [Builder.weightOf_eq, hatlt n hn]
  -- parents before and after
  have hpar : ∀ p n : NodeIx,
      IsParent b.merge.arena p n ↔ IsParent b.arena p n ∨ (p = BitVec.ofNat 9 N ∧ (c = n ∨ a = n)) := by
    intro p n
    by_cases hp : p.toNat = N
    · have hpe : p = BitVec.ofNat 9 N := BitVec.eq_of_toNat_eq (by rw [hNval, hp])
      subst hpe
      simp only [IsParent, hatN, hempty _ (Nat.le_of_eq hNval.symm), hx]
      constructor
      · rintro ⟨l, r, w, h, hlr⟩
        injection h with h1 h2 h3
        subst h1 h2
        exact .inr ⟨trivial, hlr⟩
      · rintro (⟨l, r, w, h, -⟩ | ⟨-, h⟩)
        · exact absurd h (by simp)
        · exact ⟨c, a, _, rfl, h⟩
    · have hpe : p ≠ BitVec.ofNat 9 N := fun h => hp (by rw [h, hNval])
      simp only [IsParent, hat p, if_neg hp, hpe, false_and, or_false]
  have hparlt : ∀ p n : NodeIx, p.toNat < N → (IsParent b.merge.arena p n ↔ IsParent b.arena p n) := by
    intro p n hp
    rw [hpar]
    have : p ≠ BitVec.ofNat 9 N := fun h => by rw [h, hNval] at hp; omega
    simp [this]
  have hchild : ∀ p n : NodeIx, IsParent b.arena p n → n.toNat < p.toNat ∧ p.toNat < N := by
    rintro p n ⟨l, r, w, h, hlr⟩
    have hpN : p.toNat < N := by
      by_contra hge
      rw [hempty p (by omega)] at h
      exact absurd h (by simp)
    have hpk : present.length ≤ p.toNat := by
      by_contra hlt
      have h' := hb.leaves p.toNat (by omega)
      rw [Builder.arena, h'] at h
      exact absurd h (by simp)
    obtain ⟨l', r', w', h', hl, hr, -⟩ := hb.internals p.toNat hpk (by omega)
    rw [Builder.arena, h'] at h
    injection h with h1 h2 h3
    subst h1 h2
    rcases hlr with rfl | rfl <;> exact ⟨by assumption, hpN⟩
  have hmem : ∀ n, n ∈ b.merge.toDo ↔ (n ≠ c ∧ n ≠ a ∧ n ∈ b.toDo) ∨ n = BitVec.ofNat 9 N := by
    intro n
    rw [hmerge]
    simp only [List.mem_append, List.mem_singleton, (hb.nodup.erase a).mem_erase_iff, hb.nodup.mem_erase_iff]
  have hnotN : BitVec.ofNat 9 N ∉ b.toDo := fun h => by
    have := ((hb.toDo _).mp h).1
    rw [hNval, hN] at this
    omega
  have hnodes : b.merge.nodes.length = N + 1 := by rw [hmerge]; simp [hN]
  have htodolen : b.merge.toDo.length = b.toDo.length - 1 := by
    rw [hmerge]
    simp only [List.length_append, List.length_singleton, List.length_erase_of_mem hcea, List.length_erase_of_mem ha]
    omega
  -- the weights
  have hs1 := List.sum_map_erase (fun n => (b.weightOf n).toNat) ha
  have hs2 := List.sum_map_erase (fun n => (b.weightOf n).toNat) hcea
  have htotal := hb.total
  have hwsum : (b.weightOf a + b.weightOf c).toNat = (b.weightOf a).toNat + (b.weightOf c).toNat := by
    rw [BitVec.toNat_add, Nat.mod_eq_of_lt]
    omega
  refine ⟨?_, ?_, ?_, ?_, ?_, ?_, ?_, ?_, ?_, ?_⟩
  · omega
  · omega
  · omega
  · rw [hmerge]
    refine ((hb.nodup.erase a).erase c).append (List.nodup_singleton _) ?_
    intro n hn hn'
    rw [List.mem_singleton] at hn'
    subst hn'
    exact hnotN (List.mem_of_mem_erase (List.mem_of_mem_erase hn))
  · intro i hi
    rw [hmerge, List.getD_append _ _ _ _ (by omega)]
    exact hb.leaves i hi
  · intro i hi1 hi2
    rw [hnodes] at hi2
    by_cases hiN : i < N
    · obtain ⟨l, r, w, h, hl, hr, hlr, hw⟩ := hb.internals i hi1 (by omega)
      refine ⟨l, r, w, ?_, hl, hr, hlr, ?_⟩
      · rw [hmerge, List.getD_append _ _ _ _ (by omega)]
        exact h
      · rw [hatlt l (by omega), hatlt r (by omega)]
        exact hw
    · have hie : i = N := by omega
      subst hie
      refine ⟨c, a, b.weightOf a + b.weightOf c, ?_, hcN, haN, hca, ?_⟩
      · have h' := hatN
        rw [Builder.arena, hNval] at h'
        rw [h', hx]
      · rw [hatlt c hcN, hatlt a haN, hwsum, Nat.add_comm]
        rfl
  · intro n
    rw [hmem, hnodes]
    constructor
    · rintro (⟨hnc, hna, hn⟩ | rfl)
      · obtain ⟨h1, h2⟩ := (hb.toDo n).mp hn
        refine ⟨by omega, ?_⟩
        intro p hp
        rcases (hpar p n).mp hp with h | ⟨-, h | h⟩
        · exact h2 p h
        · exact hnc h.symm
        · exact hna h.symm
      · refine ⟨by omega, ?_⟩
        intro p hp
        rcases (hpar p _).mp hp with h | ⟨-, h | h⟩
        · have := hchild p _ h
          omega
        · rw [h, hNval] at hcN
          omega
        · rw [h, hNval] at haN
          omega
    · rintro ⟨h1, h2⟩
      by_cases hnN : n.toNat = N
      · exact .inr (BitVec.eq_of_toNat_eq (by rw [hNval, hnN]))
      · refine .inl ⟨?_, ?_, (hb.toDo n).mpr ⟨by omega, fun p hp => h2 p ((hpar p n).mpr (.inl hp))⟩⟩
        · rintro rfl
          exact h2 _ ((hpar _ _).mpr (.inr ⟨rfl, .inl rfl⟩))
        · rintro rfl
          exact h2 _ ((hpar _ _).mpr (.inr ⟨rfl, .inr rfl⟩))
  · intro n hn hnt
    rw [hnodes] at hn
    rw [hmem] at hnt
    push Not at hnt
    obtain ⟨hnt1, hnt2⟩ := hnt
    have hnN : n.toNat < N := by
      have : n.toNat ≠ N := fun h => hnt2 (BitVec.eq_of_toNat_eq (by rw [hNval, h]))
      omega
    by_cases hnew : c = n ∨ a = n
    · have hin : n ∈ b.toDo := by rcases hnew with rfl | rfl <;> assumption
      refine ⟨BitVec.ofNat 9 N, (hpar _ _).mpr (.inr ⟨rfl, hnew⟩), ?_⟩
      intro p hp
      rcases (hpar p n).mp hp with h | ⟨h, -⟩
      · exact absurd h (((hb.toDo n).mp hin).2 p)
      · exact h
    · push Not at hnew
      have hnin : n ∉ b.toDo := hnt1 hnew.1.symm hnew.2.symm
      obtain ⟨p, hp, huniq⟩ := hb.oneParent n (by omega) hnin
      refine ⟨p, (hpar p n).mpr (.inl hp), ?_⟩
      intro q hq
      rcases (hpar q n).mp hq with h | ⟨-, h | h⟩
      · exact huniq q h
      · exact absurd h hnew.1
      · exact absurd h hnew.2
  · have hsame : ((b.toDo.erase a).erase c).map (fun n => (b.merge.weightOf n).toNat) =
        ((b.toDo.erase a).erase c).map (fun n => (b.weightOf n).toNat) := by
      apply List.map_congr_left
      intro n hn
      rw [hwlt n (hN ▸ ((hb.toDo n).mp (List.mem_of_mem_erase (List.mem_of_mem_erase hn))).1)]
    have hwN : b.merge.weightOf (BitVec.ofNat 9 N) = b.weightOf a + b.weightOf c := by
      rw [Builder.weightOf_eq]
      simp only [hatN, hx, Node.weight]
    have htodo : b.merge.toDo = (b.toDo.erase a).erase c ++ [BitVec.ofNat 9 N] := by rw [hmerge]
    rw [htodo, List.map_append, List.sum_append, hsame]
    simp only [List.map_cons, List.map_nil, List.sum_cons, List.sum_nil, Nat.add_zero, hwN, hwsum]
    omega
  · intro m l r w hm
    have hPend : ∀ n, m.toNat ≤ N → (Pending b.merge.arena m n ↔ Pending b.arena m n) := by
      intro n hmN
      simp only [Pending]
      constructor
      · rintro ⟨h1, h2⟩
        exact ⟨h1, fun p hp h => h2 p hp ((hparlt p n (by omega)).mpr h)⟩
      · rintro ⟨h1, h2⟩
        exact ⟨h1, fun p hp h => h2 p hp ((hparlt p n (by omega)).mp h)⟩
    have hKey : ∀ p q : NodeIx, p.toNat < N → q.toNat < N →
        (KeyLess (fun y => (b.merge.arena y).weight) p q ↔ KeyLess (fun y => (b.arena y).weight) p q) := by
      intro p q hp hq
      simp only [KeyLess, hatlt p hp, hatlt q hq]
    by_cases hmN : m.toNat = N
    · have hme : m = BitVec.ofNat 9 N := BitVec.eq_of_toNat_eq (by rw [hNval, hmN])
      have hm' := hm
      rw [hme, hatN, hx] at hm'
      injection hm' with h1 h2 h3
      subst h1 h2
      have hpt : ∀ n, Pending b.merge.arena m n ↔ n ∈ b.toDo := by
        intro n
        rw [hPend n (by omega), hb.toDo n]
        simp only [Pending, hmN, hN]
        constructor
        · rintro ⟨h1, h2⟩
          exact ⟨h1, fun p hp => h2 p (hchild p n hp).2 hp⟩
        · rintro ⟨h1, h2⟩
          exact ⟨h1, fun p _ => h2 p⟩
      have hlt : ∀ n, n ∈ b.toDo → n.toNat < N := fun n hn => hN ▸ ((hb.toDo n).mp hn).1
      refine ⟨(hpt _).mpr ha, ?_, (hpt _).mpr hc, hca, ?_⟩
      · intro n hn hne
        have hn' := (hpt n).mp hn
        exact (hKey _ _ haN (hlt n hn')).mpr (hleast1 n hn' hne)
      · intro n hn hne hne'
        have hn' := (hpt n).mp hn
        exact (hKey _ _ hcN (hlt n hn')).mpr (hleast2 n hn' hne hne')
    · have hm' := hm
      rw [hat, if_neg hmN] at hm'
      have hmlt : m.toNat < N := by
        by_contra hge
        rw [hempty m (by omega)] at hm'
        exact absurd hm' (by simp)
      obtain ⟨h1, h2, h3, h4, h5⟩ := hb.order m l r w hm'
      have hltm : ∀ n, Pending b.arena m n → n.toNat < N := fun n hn => by
        have := hn.1
        omega
      refine ⟨(hPend r (by omega)).mpr h1, ?_, (hPend l (by omega)).mpr h3, h4, ?_⟩
      · intro n hn hne
        have hn' := (hPend n (by omega)).mp hn
        exact (hKey _ _ (hltm r h1) (hltm n hn')).mpr (h2 n hn' hne)
      · intro n hn hne hne'
        have hn' := (hPend n (by omega)).mp hn
        exact (hKey _ _ (hltm l h3) (hltm n hn')).mpr (h5 n hn' hne hne')

/-! ### Seeding and merging to the end -/

/-- The seeded tree meets the invariant (41_tree_builder.md R112). -/
theorem seedTree_inv (freqAt : Symbol → Word) {present : List Symbol} (h1 : 1 ≤ present.length)
    (h2 : present.length ≤ 256) : BuildInv freqAt present (seedTree freqAt present) := by
  obtain ⟨k, hk⟩ : ∃ k, present.length = k := ⟨_, rfl⟩
  have hmem : ∀ n : NodeIx, n ∈ (seedTree freqAt present).toDo ↔ n.toNat < k := by
    intro n
    simp only [seedTree, List.mem_map, List.mem_range, hk]
    constructor
    · rintro ⟨i, hi, rfl⟩
      rw [BitVec.toNat_ofNat]
      omega
    · intro h
      exact ⟨n.toNat, h, by simp⟩
  have hleaf : ∀ i, i < k → (seedTree freqAt present).nodes.getD i .empty =
      .leaf (present.getD i 0) ((freqAt (present.getD i 0)).setWidth 40) := by
    intro i hi
    have hi' : i < present.length := by omega
    simp [seedTree, List.getD, hi']
  have hlenN : (seedTree freqAt present).nodes.length = k := by simp [seedTree, hk]
  have hnopar : ∀ p n : NodeIx, ¬IsParent (seedTree freqAt present).arena p n := by
    rintro p n ⟨l, r, w, h, -⟩
    rw [Builder.arena] at h
    by_cases hp : p.toNat < k
    · rw [hleaf _ hp] at h
      exact absurd h (by simp)
    · rw [List.getD_eq_default _ _ (by omega)] at h
      exact absurd h (by simp)
  have hlenT : (seedTree freqAt present).toDo.length = k := by simp [seedTree, hk]
  refine ⟨by omega, by omega, by omega, ?_, fun i hi => hleaf i (by omega), ?_, ?_, ?_, ?_, ?_⟩
  · simp only [seedTree]
    refine List.Nodup.map_on ?_ List.nodup_range
    intro x hx y hy hxy
    rw [List.mem_range] at hx hy
    have := congrArg BitVec.toNat hxy
    rw [BitVec.toNat_ofNat, BitVec.toNat_ofNat] at this
    omega
  · intro i hi hi'
    omega
  · intro n
    rw [hmem, hlenN]
    exact ⟨fun h => ⟨h, fun p => hnopar p n⟩, fun h => h.1⟩
  · intro n hn hn'
    rw [hmem] at hn'
    omega
  · have h3 : ((seedTree freqAt present).toDo.map fun n => ((seedTree freqAt present).weightOf n).toNat) =
        present.map fun s => (freqAt s).toNat := by
      apply List.ext_getElem
      · simp [hlenT, hk]
      · intro i hi hi'
        have hik : i < k := by simpa [hlenT] using hi
        have hik' : i < present.length := by omega
        have hval : (BitVec.ofNat 9 i).toNat = i := by rw [BitVec.toNat_ofNat]; omega
        have hn : (seedTree freqAt present).toDo[i]'(by omega) = BitVec.ofNat 9 i := by simp [seedTree]
        rw [List.getElem_map, List.getElem_map, hn, Builder.weightOf, hval, hleaf i hik]
        simp only [Node.weight, BitVec.toNat_setWidth, List.getD, List.getElem?_eq_getElem hik', Option.getD_some]
        exact Nat.mod_eq_of_lt (lt_of_lt_of_le (freqAt present[i]).isLt (by norm_num))
    rw [h3]
  · intro m l r w h
    exact absurd ⟨l, r, w, h, .inl rfl⟩ (hnopar m l)

/-- Merging keeps the invariant. -/
theorem mergeAll_inv {freqAt : Symbol → Word} {present : List Symbol} (hk : present.length ≤ 256)
    (htot : ((present.map fun s => (freqAt s).toNat)).sum < 2 ^ 40) (rounds : Nat) {b : Builder}
    (hb : BuildInv freqAt present b) : BuildInv freqAt present (b.mergeAll rounds) := by
  induction rounds generalizing b with
  | zero => exact hb
  | succ n ih =>
    rw [Builder.mergeAll]
    split
    · exact ih (hb.merge hk htot ‹_›)
    · exact hb

/-- The loop ends with one entry in toDo, after as many rounds as there are entries but one (41_tree_builder.md
R115). -/
theorem mergeAll_one {freqAt : Symbol → Word} {present : List Symbol} (hk : present.length ≤ 256)
    (htot : ((present.map fun s => (freqAt s).toNat)).sum < 2 ^ 40) (rounds : Nat) {b : Builder}
    (hb : BuildInv freqAt present b) (hr : b.toDo.length ≤ rounds + 1) : (b.mergeAll rounds).toDo.length = 1 := by
  induction rounds generalizing b with
  | zero =>
    have := hb.nonempty
    rw [Builder.mergeAll]
    omega
  | succ n ih =>
    rw [Builder.mergeAll]
    split
    · rename_i hlen
      refine ih (hb.merge hk htot hlen) ?_
      have h1 := hb.count
      have h2 := (hb.merge hk htot hlen).count
      obtain ⟨a, c, -, -, -, -, -, hm⟩ := Builder.merge_spec hlen hb.nodup
      have h3 : b.merge.nodes.length = b.nodes.length + 1 := by rw [hm]; simp
      omega
    · have := hb.nonempty
      omega

/-- The sum of all counts fits in 40 bits (41_tree_builder.md R119). -/
theorem total_lt (freqAt : Symbol → Word) {present : List Symbol} (h : present.length ≤ 256) :
    ((present.map fun s => (freqAt s).toNat)).sum < 2 ^ 40 := by
  have h1 : ((present.map fun s => (freqAt s).toNat)).sum ≤ present.length * (2 ^ 32 - 1) := by
    have := List.sum_le_card_nsmul (present.map fun s => (freqAt s).toNat) (2 ^ 32 - 1) (by
      intro x hx
      obtain ⟨s, -, rfl⟩ := List.mem_map.mp hx
      have := (freqAt s).isLt
      omega)
    simpa using this
  have h2 : present.length * (2 ^ 32 - 1) ≤ 256 * (2 ^ 32 - 1) := Nat.mul_le_mul_right _ h
  omega

/-- The finished tree: the invariant holds, one entry is left in toDo, and it is the last node made
(41_tree_builder.md R111, R115). -/
theorem buildTree_spec (freqAt : Symbol → Word) {present : List Symbol} (h1 : 1 ≤ present.length)
    (h2 : present.length ≤ 256) :
    BuildInv freqAt present (buildTree freqAt present) ∧
      (buildTree freqAt present).nodes.length = 2 * present.length - 1 ∧
      (buildTree freqAt present).toDo = [BitVec.ofNat 9 (2 * present.length - 2)] := by
  have htot := total_lt freqAt h2
  have hseed := seedTree_inv freqAt h1 h2
  have hinv : BuildInv freqAt present (buildTree freqAt present) := mergeAll_inv h2 htot present.length hseed
  have hone : (buildTree freqAt present).toDo.length = 1 :=
    mergeAll_one h2 htot present.length hseed (by simp [seedTree])
  have hcount := hinv.count
  have hlen : (buildTree freqAt present).nodes.length = 2 * present.length - 1 := by omega
  refine ⟨hinv, hlen, ?_⟩
  obtain ⟨r, hr⟩ := List.length_eq_one_iff.mp hone
  have hval : (BitVec.ofNat 9 (2 * present.length - 2)).toNat = 2 * present.length - 2 := by
    rw [BitVec.toNat_ofNat]
    omega
  have hlast : BitVec.ofNat 9 (2 * present.length - 2) ∈ (buildTree freqAt present).toDo := by
    refine (hinv.toDo _).mpr ⟨by omega, ?_⟩
    rintro p ⟨l, r, w, h, hlr⟩
    have hpN : p.toNat < (buildTree freqAt present).nodes.length := by
      by_contra hge
      rw [Builder.arena, List.getD_eq_default _ _ (by omega)] at h
      exact absurd h (by simp)
    have hpk : present.length ≤ p.toNat := by
      by_contra hlt
      rw [Builder.arena, hinv.leaves p.toNat (by omega)] at h
      exact absurd h (by simp)
    obtain ⟨l', r', w', h', hl, hr', -⟩ := hinv.internals p.toNat hpk hpN
    rw [Builder.arena, h'] at h
    injection h with e1 e2 e3
    subst e1 e2
    rcases hlr with e | e
    · have := congrArg BitVec.toNat e
      rw [hval] at this
      omega
    · have := congrArg BitVec.toNat e
      rw [hval] at this
      omega
  rw [hr, List.mem_singleton] at hlast
  rw [hr, hlast]

/-! ### The symbols present -/

theorem allSymbols_length : allSymbols.length = 256 := by simp [allSymbols]

theorem mem_allSymbols (x : Symbol) : x ∈ allSymbols := by
  simp only [allSymbols, List.mem_map, List.mem_range]
  exact ⟨x.toNat, x.isLt, by simp⟩

/-- The symbols are listed in ascending order. -/
theorem allSymbols_sorted : allSymbols.Pairwise fun x y => x.toNat < y.toNat := by
  rw [allSymbols, List.pairwise_map]
  refine List.Pairwise.imp_of_mem ?_ List.pairwise_lt_range
  intro a b ha hb hab
  rw [List.mem_range] at ha hb
  rw [BitVec.toNat_ofNat, BitVec.toNat_ofNat]
  omega

theorem mem_presentSymbols (s : State) (x : Symbol) : x ∈ s.presentSymbols ↔ s.freqAt x ≠ 0 := by
  simp [State.presentSymbols, mem_allSymbols]

theorem presentSymbols_length_le (s : State) : s.presentSymbols.length ≤ 256 :=
  (List.length_filter_le _ _).trans allSymbols_length.le

theorem presentSymbols_sorted (s : State) : s.presentSymbols.Pairwise fun x y => x.toNat < y.toNat :=
  allSymbols_sorted.filter _

/-! ### The state after BUILD -/

/-- An entry of the finished arena. -/
theorem arenaAt_arenaOf {nodes : List Node} (h : nodes.length ≤ 511) (n : NodeIx) :
    arenaAt (arenaOf nodes) n = nodes.getD n.toNat .empty := by
  rw [arenaAt]
  split
  · rw [arenaOf, getElem_tabulate]
  · rw [List.getD_eq_default _ _ (by omega)]

/-- What BUILD leaves when a symbol is present: a tree of the shape of 10_state.md R43, made by merging the least two
entries each time. -/
theorem buildStage_tree (s : State) (h : s.presentSymbols ≠ []) :
    ∃ t, buildStage s = .ok t ∧ t =
        { s with
          treeValid := true
          codesValid := false
          single := t.single
          node := t.node
          root := t.root
          toDo := []
          numSyms := t.numSyms
          numNodes := t.numNodes } ∧
      TreeShape t ∧ MergesLeastTwo t.nodeAt := by
  have h1 : 1 ≤ s.presentSymbols.length := List.length_pos_iff.mpr h
  have h2 := presentSymbols_length_le s
  obtain ⟨hinv, hlen, htodo⟩ := buildTree_spec s.freqAt h1 h2
  obtain ⟨k, hk⟩ : ∃ k, s.presentSymbols.length = k := ⟨_, rfl⟩
  rw [hk] at h1 h2 hlen htodo
  obtain ⟨b, hb⟩ : ∃ b, buildTree s.freqAt s.presentSymbols = b := ⟨_, rfl⟩
  rw [hb] at hinv hlen htodo
  obtain ⟨t, ht⟩ : ∃ t : State, t = { s with
      treeValid := true
      codesValid := false
      single := decide (k = 1)
      node := arenaOf b.nodes
      root := b.toDo.headD 0
      toDo := []
      numSyms := BitVec.ofNat 9 k
      numNodes := BitVec.ofNat 9 b.nodes.length } := ⟨_, rfl⟩
  have hstage : buildStage s = .ok t := by
    simp only [buildStage, hk, hb, if_neg (by omega : ¬k = 0), ht]
    rfl
  have hval : ∀ i, i ≤ 511 → (BitVec.ofNat 9 i).toNat = i := by
    intro i hi
    rw [BitVec.toNat_ofNat]
    omega
  have hnode : t.nodeAt = b.arena := by
    rw [ht]
    exact funext fun n => arenaAt_arenaOf (by omega) n
  have hfreq : t.freqAt = s.freqAt := by rw [ht]; rfl
  have hsyms : t.numSyms.toNat = k := by rw [ht]; exact hval k (by omega)
  have hnodes : t.numNodes.toNat = b.nodes.length := by rw [ht]; exact hval _ (by omega)
  have hroot : t.root = BitVec.ofNat 9 (2 * k - 2) := by rw [ht, htodo]; rfl
  refine ⟨t, hstage, by rw [ht], ?_, by rw [hnode]; exact hinv.order⟩
  have hleaf : ∀ n : NodeIx, n.toNat < k →
      b.arena n = .leaf (s.presentSymbols.getD n.toNat 0) ((s.freqAt (s.presentSymbols.getD n.toNat 0)).setWidth 40) :=
    fun n hn => hinv.leaves n.toNat (by omega)
  have hint : ∀ n : NodeIx, k ≤ n.toNat → n.toNat < b.nodes.length →
      ∃ left right w, b.arena n = .internal left right w ∧ left.toNat < n.toNat ∧ right.toNat < n.toNat ∧
        left ≠ right ∧ w.toNat = (b.arena left).weight.toNat + (b.arena right).weight.toNat :=
    fun n hn hn' => hinv.internals n.toNat (by omega) hn'
  have hemp : ∀ n : NodeIx, b.nodes.length ≤ n.toNat → b.arena n = .empty := by
    intro n hn
    rw [Builder.arena, List.getD_eq_default _ _ hn]
  have hleafIx : ∀ (n : NodeIx) x w, b.arena n = .leaf x w → n.toNat < k := by
    intro n x w hn
    by_contra hge
    by_cases hl : n.toNat < b.nodes.length
    · obtain ⟨l, r, w', h', -⟩ := hint n (by omega) hl
      rw [h'] at hn
      exact absurd hn (by simp)
    · rw [hemp n (by omega)] at hn
      exact absurd hn (by simp)
  constructor
  case symbols => omega
  case nodes => omega
  case root =>
    rw [hroot, hval _ (by omega), hnodes]
    omega
  case single => rw [hsyms, ht]
  case filled =>
    intro n
    rw [hnode, hnodes]
    constructor
    · intro hn
      by_contra hlt
      by_cases hnk : n.toNat < k
      · rw [hleaf n hnk] at hn
        exact absurd hn (by simp)
      · obtain ⟨l, r, w', h', -⟩ := hint n (by omega) (by omega)
        rw [h'] at hn
        exact absurd hn (by simp)
    · exact hemp n
  case leaves =>
    intro n hn
    rw [hsyms] at hn
    rw [hnode, hfreq]
    exact ⟨_, hleaf n hn⟩
  case ascending =>
    intro m n x y v w hm hn hmn
    rw [hnode] at hm hn
    have hm' := hleafIx m x v hm
    have hn' := hleafIx n y w hn
    rw [hleaf m hm'] at hm
    rw [hleaf n hn'] at hn
    injection hm with hx _
    injection hn with hy _
    have hsorted := List.pairwise_iff_getElem.mp (presentSymbols_sorted s) m.toNat n.toNat (by omega) (by omega) hmn
    rw [← hx, ← hy]
    simpa [List.getD, hk, hm', hn'] using hsorted
  case present =>
    intro sym
    rw [hnode, hfreq, ← mem_presentSymbols]
    constructor
    · intro hs
      obtain ⟨i, hi, hget⟩ := List.mem_iff_getElem.mp hs
      have hi' := hval i (by omega)
      refine ⟨BitVec.ofNat 9 i, (s.freqAt sym).setWidth 40, ?_⟩
      rw [hleaf _ (by omega), hi']
      simp [List.getD, hi, hget]
    · rintro ⟨n, w, hn⟩
      have hn' := hleafIx n sym w hn
      rw [hleaf n hn'] at hn
      injection hn with hx _
      rw [← hx]
      have : n.toNat < s.presentSymbols.length := by omega
      simp [List.getD, this]
  case internals =>
    rw [hnode, hsyms, hnodes]
    exact hint
  case oneParent =>
    intro n hn hne
    rw [hnodes] at hn
    rw [hroot] at hne
    rw [hnode]
    refine hinv.oneParent n hn ?_
    rw [htodo, List.mem_singleton]
    exact hne
  case rootTop =>
    intro p
    rw [hroot, hnode]
    exact ((hinv.toDo _).mp (by rw [htodo]; exact List.mem_singleton.mpr rfl)).2 p

end Sys2Proof.Machine
end

