-- ==== Sys2Proof/Laws/Codes.lean ====
section
/-! SUPPORT. What the walks of GENCODE do, and the code table of a well-shaped tree (42_code_generator.md R123 to
R130; 10_state.md R44). -/

namespace Sys2Proof.Machine

/-! ### Following a code -/

theorem follow_append (arena : NodeIx → Node) (n : NodeIx) (c d : List Bool) :
    follow arena n (c ++ d) = (follow arena n c).bind fun m => follow arena m d := by
  induction c generalizing n with
  | nil => rfl
  | cons b rest ih =>
    rw [List.cons_append, follow, follow]
    split
    · exact ih _
    · rfl
    · rfl

/-- A code ends at a LEAF: no bit can be taken there. -/
theorem follow_leaf {arena : NodeIx → Node} {n m : NodeIx} {x : Symbol} {w : Weight} {c : List Bool}
    (hn : arena n = .leaf x w) (h : follow arena n c = some m) : c = [] ∧ m = n := by
  cases c with
  | nil =>
    rw [follow, Option.some.injEq] at h
    exact ⟨rfl, h.symm⟩
  | cons b rest =>
    rw [follow, hn] at h
    exact absurd h (by simp)

/-! ### Membership in the symbols of a node -/

/-- A symbol found at or below a node is that of a leaf some code leads to. -/
theorem symsContain_sound (arena : NodeIx → Node) (sym : Symbol) (fuel : Nat) (n : NodeIx)
    (h : symsContain arena sym fuel n = true) : ∃ c m w, follow arena n c = some m ∧ arena m = .leaf sym w := by
  induction fuel generalizing n with
  | zero => exact absurd h (by simp [symsContain])
  | succ f ih =>
    rw [symsContain] at h
    cases hn : arena n with
    | empty =>
      rw [hn] at h
      exact absurd h (by simp)
    | leaf x w =>
      rw [hn] at h
      exact ⟨[], n, w, rfl, by rw [hn, show x = sym by simpa using h]⟩
    | internal l r w =>
      simp only [hn, Bool.or_eq_true] at h
      rcases h with h | h
      · obtain ⟨c, m, w', hc, hm⟩ := ih l h
        exact ⟨false :: c, m, w', by rw [follow, hn]; exact hc, hm⟩
      · obtain ⟨c, m, w', hc, hm⟩ := ih r h
        exact ⟨true :: c, m, w', by rw [follow, hn]; exact hc, hm⟩

/-- A leaf that a code leads to is found, with more fuel than the code has bits. -/
theorem symsContain_complete (arena : NodeIx → Node) (sym : Symbol) (c : List Bool) (n m : NodeIx) (w : Weight)
    (hc : follow arena n c = some m) (hm : arena m = .leaf sym w) (fuel : Nat) (hf : c.length < fuel) :
    symsContain arena sym fuel n = true := by
  induction c generalizing n fuel with
  | nil =>
    obtain ⟨f, rfl⟩ : ∃ f, fuel = f + 1 := ⟨fuel - 1, by simp at hf; omega⟩
    rw [follow, Option.some.injEq] at hc
    subst hc
    rw [symsContain, hm]
    simp
  | cons b rest ih =>
    rw [List.length_cons] at hf
    obtain ⟨f, rfl⟩ : ∃ f, fuel = f + 1 := ⟨fuel - 1, by omega⟩
    rw [follow] at hc
    cases hn : arena n with
    | empty => rw [hn] at hc; exact absurd hc (by simp)
    | leaf x v => rw [hn] at hc; exact absurd hc (by simp)
    | internal l r v =>
      rw [hn] at hc
      have h := ih _ hc f (by omega)
      simp only [symsContain, hn, Bool.or_eq_true]
      cases b
      · exact .inl h
      · exact .inr h

/-- More fuel finds no less. -/
theorem symsContain_mono (arena : NodeIx → Node) (sym : Symbol) (fuel : Nat) (n : NodeIx)
    (h : symsContain arena sym fuel n = true) : symsContain arena sym (fuel + 1) n = true := by
  induction fuel generalizing n with
  | zero => exact absurd h (by simp [symsContain])
  | succ f ih =>
    rw [symsContain] at h ⊢
    cases hn : arena n with
    | empty => rw [hn] at h; exact absurd h (by simp)
    | leaf x v => rw [hn] at h; exact h
    | internal l r v =>
      simp only [hn, Bool.or_eq_true] at h
      simp only [Bool.or_eq_true]
      exact h.imp (ih l) (ih r)

/-! ### The walk for one symbol -/

/-- The code of a walk leads to the symbol's leaf, and fits. -/
theorem walkCode_sound (arena : NodeIx → Node) (sym : Symbol) (room : Nat) (n : NodeIx) (c : List Bool)
    (h : walkCode arena sym room n = some c) :
    c.length ≤ room ∧ ∃ m w, follow arena n c = some m ∧ arena m = .leaf sym w := by
  induction room generalizing n c with
  | zero =>
    rw [walkCode] at h
    cases hn : arena n with
    | empty => rw [hn] at h; exact absurd h (by simp)
    | internal l r v => rw [hn] at h; exact absurd h (by simp)
    | leaf x v =>
      simp only [hn] at h
      split at h
      · rw [Option.some.injEq] at h
        subst h
        exact ⟨le_refl _, n, v, rfl, by rw [hn, ‹x = sym›]⟩
      · exact absurd h (by simp)
  | succ r ih =>
    rw [walkCode] at h
    cases hn : arena n with
    | empty => rw [hn] at h; exact absurd h (by simp)
    | leaf x v =>
      simp only [hn] at h
      split at h
      · rw [Option.some.injEq] at h
        subst h
        exact ⟨Nat.zero_le _, n, v, rfl, by rw [hn, ‹x = sym›]⟩
      · exact absurd h (by simp)
    | internal l rr v =>
      simp only [hn] at h
      split at h
      · obtain ⟨d, hd, rfl⟩ := Option.map_eq_some_iff.mp h
        obtain ⟨hlen, m, w, hf, hm⟩ := ih l d hd
        exact ⟨by simpa using hlen, m, w, by rw [follow, hn]; exact hf, hm⟩
      · split at h
        · obtain ⟨d, hd, rfl⟩ := Option.map_eq_some_iff.mp h
          obtain ⟨hlen, m, w, hf, hm⟩ := ih rr d hd
          exact ⟨by simpa using hlen, m, w, by rw [follow, hn]; exact hf, hm⟩
        · exact absurd h (by simp)

/-- In a well-shaped tree the walk for a symbol of a node finds its code (42_code_generator.md R130). -/
theorem walkCode_complete {s : State} (ht : TreeShape s) (sym : Symbol) (room : Nat) (n : NodeIx)
    (h : symsContain s.nodeAt sym arenaSize n = true) (hroom : n.toNat < s.numSyms.toNat + room) :
    ∃ c, walkCode s.nodeAt sym room n = some c := by
  induction room generalizing n with
  | zero =>
    obtain ⟨x, hx⟩ := ht.leaves n (by omega)
    rw [arenaSize, symsContain, hx] at h
    refine ⟨[], ?_⟩
    rw [walkCode, hx]
    simpa using h
  | succ r ih =>
    rw [walkCode]
    cases hn : s.nodeAt n with
    | empty =>
      rw [arenaSize, symsContain, hn] at h
      exact absurd h (by simp)
    | leaf x v =>
      rw [arenaSize, symsContain, hn] at h
      exact ⟨[], by simpa using h⟩
    | internal l rr v =>
      have hk : s.numSyms.toNat ≤ n.toNat := by
        by_contra hlt
        obtain ⟨x, hx⟩ := ht.leaves n (by omega)
        rw [hx] at hn
        exact absurd hn (by simp)
      have hN : n.toNat < s.numNodes.toNat := by
        by_contra hge
        rw [(ht.filled n).mpr (by omega)] at hn
        exact absurd hn (by simp)
      obtain ⟨l', r', w', hn', hl, hr, -⟩ := ht.internals n hk hN
      rw [hn] at hn'
      injection hn' with e1 e2 e3
      subst e1 e2
      rw [arenaSize, symsContain] at h
      simp only [hn, Bool.or_eq_true] at h
      by_cases hcl : symsContain s.nodeAt sym arenaSize l = true
      · obtain ⟨c, hc⟩ := ih l hcl (by omega)
        exact ⟨false :: c, by simp [hcl, hc]⟩
      · rcases h with h | h
        · exact absurd (symsContain_mono _ _ _ _ h) hcl
        · have hcr : symsContain s.nodeAt sym arenaSize rr = true := symsContain_mono _ _ _ _ h
          obtain ⟨c, hc⟩ := ih rr hcr (by omega)
          exact ⟨true :: c, by simp [hcl, hcr, hc]⟩

/-! ### Every node is below the root -/

/-- A child has a lower index than its parent. -/
theorem TreeShape.child_lt {s : State} (ht : TreeShape s) {p n : NodeIx} (h : IsParent s.nodeAt p n) :
    n.toNat < p.toNat ∧ p.toNat < s.numNodes.toNat := by
  obtain ⟨l, r, w, hp, hlr⟩ := h
  have hN : p.toNat < s.numNodes.toNat := by
    by_contra hge
    rw [(ht.filled p).mpr (by omega)] at hp
    exact absurd hp (by simp)
  have hk : s.numSyms.toNat ≤ p.toNat := by
    by_contra hlt
    obtain ⟨x, hx⟩ := ht.leaves p (by omega)
    rw [hx] at hp
    exact absurd hp (by simp)
  obtain ⟨l', r', w', hp', hl, hr, -⟩ := ht.internals p hk hN
  rw [hp] at hp'
  injection hp' with e1 e2 e3
  subst e1 e2
  rcases hlr with rfl | rfl
  · exact ⟨hl, hN⟩
  · exact ⟨hr, hN⟩

/-- Every node of a well-shaped tree is reached from the root. -/
theorem TreeShape.reached {s : State} (ht : TreeShape s) (d : Nat) :
    ∀ n : NodeIx, n.toNat + d = s.root.toNat → ∃ c, follow s.nodeAt s.root c = some n ∧ c.length ≤ d := by
  induction d using Nat.strong_induction_on with
  | _ d ih =>
    intro n hn
    by_cases hr : n = s.root
    · exact ⟨[], by rw [hr, follow], Nat.zero_le _⟩
    · have hroot := ht.root
      have hsyms := ht.symbols
      have hnodes := ht.nodes
      obtain ⟨p, hp, -⟩ := ht.oneParent n (by omega) hr
      obtain ⟨hlt, hpN⟩ := ht.child_lt hp
      obtain ⟨c, hc, hlen⟩ := ih (s.root.toNat - p.toNat) (by omega) p (by omega)
      obtain ⟨l, r, w, hpn, hlr⟩ := hp
      rcases hlr with rfl | rfl
      · refine ⟨c ++ [false], ?_, ?_⟩
        · rw [follow_append, hc, Option.bind_some, follow, hpn]
          rfl
        · rw [List.length_append, List.length_singleton]
          omega
      · refine ⟨c ++ [true], ?_, ?_⟩
        · rw [follow_append, hc, Option.bind_some, follow, hpn]
          rfl
        · rw [List.length_append, List.length_singleton]
          omega

/-- A leaf has an index below NUM_SYMS. -/
theorem TreeShape.leaf_lt {s : State} (ht : TreeShape s) {n : NodeIx} {x : Symbol} {w : Weight}
    (h : s.nodeAt n = .leaf x w) : n.toNat < s.numSyms.toNat := by
  by_contra hge
  by_cases hN : n.toNat < s.numNodes.toNat
  · obtain ⟨l, r, w', hn, -⟩ := ht.internals n (by omega) hN
    rw [hn] at h
    exact absurd h (by simp)
  · rw [(ht.filled n).mpr (by omega)] at h
    exact absurd h (by simp)

/-- A symbol has one leaf. -/
theorem TreeShape.leaf_unique {s : State} (ht : TreeShape s) {m n : NodeIx} {x : Symbol} {v w : Weight}
    (hm : s.nodeAt m = .leaf x v) (hn : s.nodeAt n = .leaf x w) : m = n := by
  by_contra hne
  have : m.toNat ≠ n.toNat := fun h => hne (BitVec.eq_of_toNat_eq h)
  rcases Nat.lt_or_gt_of_ne this with h | h
  · have := ht.ascending m n x x v w hm hn h
    omega
  · have := ht.ascending n m x x w v hn hm h
    omega

/-- With one symbol the root is its LEAF (41_tree_builder.md R116). -/
theorem TreeShape.root_leaf {s : State} (ht : TreeShape s) (h : s.single = true) :
    ∃ x w, s.nodeAt s.root = .leaf x w := by
  have h1 := ht.single
  rw [h, eq_comm, decide_eq_true_eq] at h1
  have h2 := ht.root
  have h3 := ht.nodes
  obtain ⟨x, hx⟩ := ht.leaves s.root (by omega)
  exact ⟨x, _, hx⟩

/-- With two symbols or more the root is INTERNAL. -/
theorem TreeShape.root_internal {s : State} (ht : TreeShape s) (h : s.single = false) :
    ∃ l r w, s.nodeAt s.root = .internal l r w := by
  have h1 := ht.single
  rw [h, eq_comm, decide_eq_false_iff_not] at h1
  have h2 := ht.root
  have h3 := ht.nodes
  have h4 := ht.symbols
  obtain ⟨l, r, w, hr, -⟩ := ht.internals s.root (by omega) (by omega)
  exact ⟨l, r, w, hr⟩

/-- An INTERNAL node's children are there (44_bit_unpacker.md R150). -/
theorem TreeShape.child_nonempty {s : State} (ht : TreeShape s) {p l r : NodeIx} {w : Weight}
    (hp : s.nodeAt p = .internal l r w) : s.nodeAt l ≠ .empty ∧ s.nodeAt r ≠ .empty := by
  have hl := ht.child_lt ⟨l, r, w, hp, .inl rfl⟩
  have hr := ht.child_lt ⟨l, r, w, hp, .inr rfl⟩
  constructor
  · intro h
    have := (ht.filled l).mp h
    omega
  · intro h
    have := (ht.filled r).mp h
    omega

/-! ### The code table -/

theorem isLeafSymbol_iff (s : State) (sym : Symbol) :
    s.isLeafSymbol sym = true ↔ ∃ n : NodeIx, n.toNat < s.numSyms.toNat ∧ ∃ w, s.nodeAt n = .leaf sym w := by
  simp only [State.isLeafSymbol, List.any_eq_true, List.mem_range]
  constructor
  · rintro ⟨i, hi, h⟩
    have hv : (BitVec.ofNat 9 i).toNat = i := by
      have := s.numSyms.isLt
      rw [BitVec.toNat_ofNat]
      omega
    refine ⟨BitVec.ofNat 9 i, by omega, ?_⟩
    cases hn : s.nodeAt (BitVec.ofNat 9 i) with
    | empty => rw [hn] at h; exact absurd h (by simp)
    | internal l r w => rw [hn] at h; exact absurd h (by simp)
    | leaf x w =>
      rw [hn] at h
      exact ⟨w, by rw [show x = sym by simpa using h]⟩
  · rintro ⟨n, hn, w, h⟩
    refine ⟨n.toNat, hn, ?_⟩
    rw [BitVec.ofNat_toNat, BitVec.setWidth_eq, h]
    simp

/-- The walks of a list of symbols that can all be placed. -/
theorem walkAll_codes (s : State) (syms : List Symbol) (table : Symbol → List Bool)
    (h : ∀ x ∈ syms, s.isLeafSymbol x = true → ∃ c, walkCode s.nodeAt x 255 s.root = some c) :
    walkAll s syms table = .codes fun x =>
      if x ∈ syms ∧ s.isLeafSymbol x = true then (walkCode s.nodeAt x 255 s.root).getD [] else table x := by
  induction syms generalizing table with
  | nil => simp [walkAll]
  | cons y rest ih =>
    have hrest := fun t => ih t fun x hx => h x (List.mem_cons_of_mem _ hx)
    rw [walkAll]
    by_cases hy : s.isLeafSymbol y = true
    · obtain ⟨c, hc⟩ := h y List.mem_cons_self hy
      rw [if_pos hy, hc]
      simp only [hrest, List.mem_cons]
      congr 1
      funext x
      by_cases hxy : x = y
      · subst hxy
        by_cases hx : x ∈ rest <;> simp [hx, hy, hc]
      · simp [hxy]
    · rw [if_neg hy, hrest]
      congr 1
      funext x
      by_cases hxy : x = y
      · subst hxy
        simp [hy]
      · simp [hxy]

/-- In a well-shaped tree the walk for every leaf's symbol succeeds. -/
theorem TreeShape.walk {s : State} (ht : TreeShape s) {sym : Symbol} (h : s.isLeafSymbol sym = true) :
    ∃ c, walkCode s.nodeAt sym 255 s.root = some c := by
  obtain ⟨n, hn, w, hleaf⟩ := (isLeafSymbol_iff s sym).mp h
  have h1 := ht.root
  have h2 := ht.nodes
  have h3 := ht.symbols
  obtain ⟨c, hc, hlen⟩ := ht.reached (s.root.toNat - n.toNat) n (by omega)
  have hcont := symsContain_complete s.nodeAt sym c s.root n w hc hleaf arenaSize (by
    have := s.root.isLt
    rw [arenaSize]
    omega)
  exact walkCode_complete ht sym 255 s.root hcont (by omega)

/-- The codes GENCODE finds in a well-shaped tree (42_code_generator.md R123 to R125). -/
theorem findCodes_spec {s : State} (ht : TreeShape s) :
    ∃ table, findCodes s = .codes table ∧ (∀ x, (table x).length ≤ 255) ∧
      (∀ x, table x ≠ [] ↔ ∃ n w, s.nodeAt n = .leaf x w) ∧
      (s.single = true → ∀ x, table x ≠ [] → table x = [false]) ∧
      (s.single = false → ∀ x, table x ≠ [] → LeadsTo s (table x) x) := by
  by_cases hs : s.single = true
  · obtain ⟨x, w, hx⟩ := ht.root_leaf hs
    refine ⟨fun y => if y = x then [false] else [], ?_, ?_, ?_, ?_, ?_⟩
    · simp [findCodes, hs, hx]
    · intro y
      dsimp only
      split <;> simp
    · intro y
      constructor
      · intro hy
        by_cases hyx : y = x
        · exact ⟨s.root, w, by rw [hx, hyx]⟩
        · simp [hyx] at hy
      · rintro ⟨n, v, hn⟩
        have h1 := ht.single
        rw [hs, eq_comm, decide_eq_true_eq] at h1
        have h2 := ht.leaf_lt hn
        have h3 := ht.leaf_lt hx
        have hne : n = s.root := BitVec.eq_of_toNat_eq (by omega)
        rw [hne, hx] at hn
        injection hn with e _
        simp [e]
    · intro _ y hy
      by_cases hyx : y = x
      · simp [hyx]
      · simp [hyx] at hy
    · intro h
      rw [hs] at h
      exact absurd h (by simp)
  · have hs' : s.single = false := by simpa using hs
    have hleaf : ∀ x, s.isLeafSymbol x = true ↔ ∃ n w, s.nodeAt n = .leaf x w := by
      intro x
      rw [isLeafSymbol_iff]
      constructor
      · rintro ⟨n, -, w, h⟩
        exact ⟨n, w, h⟩
      · rintro ⟨n, w, h⟩
        exact ⟨n, ht.leaf_lt h, w, h⟩
    have hcode : ∀ x, s.isLeafSymbol x = true →
        ∃ c, walkCode s.nodeAt x 255 s.root = some c ∧ c ≠ [] ∧ c.length ≤ 255 ∧ LeadsTo s c x := by
      intro x hx
      obtain ⟨c, hc⟩ := ht.walk hx
      obtain ⟨hlen, m, w, hf, hm⟩ := walkCode_sound _ _ _ _ _ hc
      refine ⟨c, hc, ?_, hlen, m, w, hf, hm⟩
      rintro rfl
      rw [follow, Option.some.injEq] at hf
      obtain ⟨l, r, v, hr⟩ := ht.root_internal hs'
      rw [← hf, hr] at hm
      exact absurd hm (by simp)
    have hfind : findCodes s = .codes fun x =>
        if x ∈ allSymbols ∧ s.isLeafSymbol x = true then (walkCode s.nodeAt x 255 s.root).getD [] else [] := by
      rw [findCodes, if_neg hs]
      exact walkAll_codes s allSymbols _ fun x _ hx => ht.walk hx
    refine ⟨_, hfind, ?_, ?_, ?_, ?_⟩
    · intro x
      simp only [mem_allSymbols, true_and]
      split
      · obtain ⟨c, hc, -, hlen, -⟩ := hcode x ‹_›
        rw [hc]
        exact hlen
      · simp
    · intro x
      simp only [mem_allSymbols, true_and]
      rw [← hleaf]
      by_cases hx : s.isLeafSymbol x = true
      · obtain ⟨c, hc, hne, -⟩ := hcode x hx
        simp [hx, hc, hne]
      · simp [hx]
    · intro h
      exact absurd h hs
    · intro _ x
      simp only [mem_allSymbols, true_and]
      split
      · obtain ⟨c, hc, -, -, hl⟩ := hcode x ‹_›
        rw [hc]
        exact fun _ => hl
      · simp

/-- The shape of a tree is a matter of the tree, the frequency table and SINGLE. -/
theorem TreeShape.congr {s t : State} (ht : TreeShape s) (h1 : t.numSyms = s.numSyms) (h2 : t.numNodes = s.numNodes)
    (h3 : t.root = s.root) (h4 : t.single = s.single) (h5 : t.node = s.node) (h6 : t.freq = s.freq) : TreeShape t := by
  have hn : t.nodeAt = s.nodeAt := by
    funext n
    simp only [State.nodeAt, h5]
  have hf : t.freqAt = s.freqAt := by
    funext x
    simp only [State.freqAt, h6]
  constructor
  case symbols => rw [h1]; exact ht.symbols
  case nodes => rw [h1, h2]; exact ht.nodes
  case root => rw [h2, h3]; exact ht.root
  case single => rw [h1, h4]; exact ht.single
  case filled => rw [hn, h2]; exact ht.filled
  case leaves => rw [hn, hf, h1]; exact ht.leaves
  case ascending => rw [hn]; exact ht.ascending
  case present => rw [hn, hf]; exact ht.present
  case internals => rw [hn, h1, h2]; exact ht.internals
  case oneParent => rw [hn, h2, h3]; exact ht.oneParent
  case rootTop => rw [hn, h3]; exact ht.rootTop

/-- Whether codes match is a matter of the code table, the tree and SINGLE. -/
theorem CodesMatch.congr {s t : State} (hc : CodesMatch s) (h1 : t.codeLen = s.codeLen) (h2 : t.codeBits = s.codeBits)
    (h3 : t.root = s.root) (h4 : t.single = s.single) (h5 : t.node = s.node) : CodesMatch t := by
  have hn : t.nodeAt = s.nodeAt := by
    funext n
    simp only [State.nodeAt, h5]
  have hl : t.codeLenAt = s.codeLenAt := by
    funext x
    simp only [State.codeLenAt, h1]
  have ho : t.codeOf = s.codeOf := by
    funext x
    have hb : t.codeBit x = s.codeBit x := by
      funext i
      simp only [State.codeBit, State.codeBitsAt, h2]
    rw [State.codeOf, State.codeOf, hl, hb]
  constructor
  case defined => rw [hl, hn]; exact hc.defined
  case oneSymbol => rw [h4, hl, ho]; exact hc.oneSymbol
  case paths =>
    simp only [LeadsTo, h4, hl, ho, hn, h3]
    exact hc.paths

/-- What a successful run of walks gives: every symbol of the list that is a LEAF's got its walk's code, and no other
entry changed (42_code_generator.md R123). -/
theorem walkAll_inv (s : State) (syms : List Symbol) (table tbl : Symbol → List Bool) (hnd : syms.Nodup)
    (h : walkAll s syms table = .codes tbl) (x : Symbol) :
    if x ∈ syms ∧ s.isLeafSymbol x = true then walkCode s.nodeAt x 255 s.root = some (tbl x) else tbl x = table x := by
  induction syms generalizing table with
  | nil =>
    rw [walkAll] at h
    injection h with h
    simp [h]
  | cons y rest ih =>
    rw [List.nodup_cons] at hnd
    rw [walkAll] at h
    by_cases hy : s.isLeafSymbol y = true
    · rw [if_pos hy] at h
      cases hc : walkCode s.nodeAt y 255 s.root with
      | none =>
        rw [hc] at h
        exact absurd h (by simp)
      | some c =>
        rw [hc] at h
        have hr := ih _ hnd.2 h
        by_cases hxy : x = y
        · subst hxy
          simp only [hnd.1, false_and, if_false, if_true] at hr
          simp [hy, hc, hr]
        · simpa [hxy] using hr
    · rw [if_neg hy] at h
      have hr := ih _ hnd.2 h
      by_cases hxy : x = y
      · subst hxy
        simpa [hy] using hr
      · simpa [hxy] using hr

/-- What a table of codes of at most 255 bits reads as once it is stored (10_state.md R41, R42). -/
theorem stored_codes {s : State} {table : Symbol → List Bool} (hlen : ∀ x, (table x).length ≤ 255)
    (h1 : s.codeLen = tabulate 256 fun i => BitVec.ofNat 8 (table (BitVec.ofNat 8 i)).length)
    (h2 : s.codeBits = tabulate 256 fun i => codeWord (table (BitVec.ofNat 8 i))) (x : Symbol) :
    s.codeOf x = table x ∧ (s.codeLenAt x = 0 ↔ table x = []) := by
  have ho : s.codeOf x = table x :=
    codeOf_eq (hlen x) (by simp [State.codeLenAt, h1]) (by simp [State.codeBitsAt, h2])
  have hl := codeOf_length s x
  rw [ho] at hl
  refine ⟨ho, fun h => ?_, fun h => ?_⟩
  · rw [h] at hl
    exact List.length_eq_zero_iff.mp hl
  · rw [h] at hl
    exact BitVec.eq_of_toNat_eq hl.symm

/-- GENCODE on a valid, well-shaped tree commits the codes of the tree (42_code_generator.md R123, R127). -/
theorem gencodeStage_codes {s : State} (hv : s.treeValid = true) (ht : TreeShape s) :
    ∃ t, gencodeStage s = .ok t ∧
      t = { s with codeLen := t.codeLen, codeBits := t.codeBits, codesValid := true } ∧ CodesMatch t := by
  obtain ⟨table, htab, hlen, hdef, hone, hpath⟩ := findCodes_spec ht
  obtain ⟨t, hteq⟩ : ∃ t : State, t = { s with
      codeLen := tabulate 256 fun i => BitVec.ofNat 8 (table (BitVec.ofNat 8 i)).length
      codeBits := tabulate 256 fun i => codeWord (table (BitVec.ofNat 8 i))
      codesValid := true } := ⟨_, rfl⟩
  have hst := stored_codes (s := t) hlen (by rw [hteq]) (by rw [hteq])
  have ho : ∀ x, t.codeOf x = table x := fun x => (hst x).1
  have hnz : ∀ x, t.codeLenAt x ≠ 0 ↔ table x ≠ [] := fun x => not_congr (hst x).2
  have hn : t.nodeAt = s.nodeAt := by rw [hteq]; rfl
  have hr : t.root = s.root := by rw [hteq]
  have hsg : t.single = s.single := by rw [hteq]
  refine ⟨t, ?_, by rw [hteq], ?_⟩
  · simp only [gencodeStage, hv, if_true, htab, hteq]
  · constructor
    case defined => intro x; rw [hnz, hn]; exact hdef x
    case oneSymbol =>
      intro h x hx
      rw [ho]
      exact hone (hsg ▸ h) x ((hnz x).mp hx)
    case paths =>
      intro h x hx
      have := hpath (hsg ▸ h) x ((hnz x).mp hx)
      simp only [LeadsTo, hn, hr, ho] at this ⊢
      exact this

end Sys2Proof.Machine
end

