-- ==== Sys2Proof/Laws/Unpack.lean ====
section
/-! SUPPORT. What the walk of UNPACK does (44_bit_unpacker.md R143 to R149). -/

namespace Sys2Proof.Machine

theorem payloadBits_zero (s : State) (i : Nat) : payloadBits s i 0 = [] := rfl

theorem payloadBits_succ (s : State) (i n : Nat) : payloadBits s i (n + 1) = s.payBit i :: payloadBits s (i + 1) n := by
  simp only [payloadBits, List.range_succ_eq_map, List.map_cons, List.map_map, Nat.add_zero]
  congr 1
  apply List.map_congr_left
  intro t _
  simp only [Function.comp]
  congr 1
  omega

@[simp] theorem payloadBits_length (s : State) (i n : Nat) : (payloadBits s i n).length = n := by simp [payloadBits]

theorem Decodes.code {s : State} {c rest : List Bool} {x : Symbol} {out : List Symbol} (hc : LeadsTo s c x)
    (h : Decodes s rest out) : Decodes s (c ++ rest) (x :: out) := by
  obtain ⟨front, tail, rfl, hf, ht⟩ := h
  exact ⟨c ++ front, tail, by rw [List.append_assoc], .code hc hf, ht⟩

/-! ### Decoding is possible and unique -/

/-- A code that leads to a leaf is no prefix of another, or of an incomplete code's continuation: at the leaf no bit
can be taken. -/
theorem LeadsTo.eq_of_append {s : State} {c d : List Bool} {x y : Symbol} (hc : LeadsTo s c x) (hd : LeadsTo s (c ++ d) y) :
    d = [] ∧ x = y := by
  obtain ⟨n, w, hn, hx⟩ := hc
  obtain ⟨m, v, hm, hy⟩ := hd
  rw [follow_append, hn, Option.bind_some] at hm
  obtain ⟨h1, h2⟩ := follow_leaf hx hm
  rw [h2, hx] at hy
  injection hy with h _
  exact ⟨h1, h⟩

/-- Where the root is no leaf a code has a bit, so a payload decodes to no more symbols than it has bits. -/
theorem CodeSequence.length_le {s : State} (ht : TreeShape s) (hs : s.single = false) {bits : List Bool}
    {out : List Symbol} (h : CodeSequence s bits out) : out.length ≤ bits.length := by
  induction h with
  | none => exact Nat.le_refl _
  | @code c rest sym out hcode _ ih =>
    have hc : c ≠ [] := by
      rintro rfl
      obtain ⟨n, w, hn, hx⟩ := hcode
      obtain ⟨l, r, v, hroot⟩ := ht.root_internal hs
      injection hn with hn
      rw [← hn, hroot] at hx
      exact absurd hx (by simp)
    have hpos := List.length_pos_iff.mpr hc
    rw [List.length_append, List.length_cons]
    omega

theorem Decodes.length_le {s : State} (ht : TreeShape s) (hs : s.single = false) {bits : List Bool}
    {out : List Symbol} (h : Decodes s bits out) : out.length ≤ bits.length := by
  obtain ⟨front, tail, rfl, hf, -⟩ := h
  have := hf.length_le ht hs
  rw [List.length_append]
  omega

/-- An incomplete code does not begin with a code. -/
theorem Incomplete.not_code {s : State} {c d : List Bool} {x : Symbol} (hc : LeadsTo s c x) : ¬Incomplete s (c ++ d) := by
  rintro ⟨m, l, r, v, hm, hi⟩
  obtain ⟨n, w, hn, hx⟩ := hc
  rw [follow_append, hn, Option.bind_some] at hm
  obtain ⟨-, h2⟩ := follow_leaf hx hm
  rw [h2, hx] at hi
  exact absurd hi (by simp)

/-- Decoding is unique: where codes stand at the head of codes and an incomplete code, they are the first of those. -/
theorem CodeSequence.split {s : State} {a r f t : List Bool} {o p : List Symbol} (ha : CodeSequence s a o)
    (hf : CodeSequence s f p) (ht : Incomplete s t) (h : a ++ r = f ++ t) :
    ∃ f' p', f = a ++ f' ∧ p = o ++ p' ∧ CodeSequence s f' p' := by
  induction ha generalizing f p with
  | none => exact ⟨f, p, rfl, rfl, hf⟩
  | code hc _ ih =>
    rename_i c rest x out _
    cases hf with
    | none =>
      rw [List.nil_append, List.append_assoc] at h
      rw [← h] at ht
      exact absurd ht (Incomplete.not_code hc)
    | code hc' hrest' =>
      rename_i c' rest' y out'
      rw [List.append_assoc, List.append_assoc] at h
      have hcc : c = c' ∧ x = y := by
        rcases List.append_eq_append_iff.mp h with ⟨d, hd, -⟩ | ⟨d, hd, -⟩
        · rw [hd] at hc'
          obtain ⟨h1, h2⟩ := LeadsTo.eq_of_append hc hc'
          exact ⟨by rw [hd, h1, List.append_nil], h2⟩
        · rw [hd] at hc
          obtain ⟨h1, h2⟩ := LeadsTo.eq_of_append hc' hc
          exact ⟨by rw [hd, h1, List.append_nil], h2.symm⟩
      obtain ⟨rfl, rfl⟩ := hcc
      rw [List.append_cancel_left_eq] at h
      obtain ⟨f', p', h1, h2, h3⟩ := ih hrest' h
      exact ⟨f', p', by rw [h1, List.append_assoc], by rw [h2]; rfl, h3⟩

/-- Codes and then bits that decode, decode. -/
theorem CodeSequence.append_decodes {s : State} {a b : List Bool} {o p : List Symbol} (ha : CodeSequence s a o)
    (hb : Decodes s b p) : Decodes s (a ++ b) (o ++ p) := by
  induction ha with
  | none => exact hb
  | code hc _ ih =>
    rw [List.append_assoc]
    exact Decodes.code hc ih

/-- Every bit string decodes in a tree of two symbols or more (44_bit_unpacker.md R148, R150). -/
theorem decodes_exists {s : State} (ht : TreeShape s) (hs : s.single = false) (bits pre : List Bool)
    (hpre : Incomplete s pre) : ∃ out, Decodes s (pre ++ bits) out := by
  induction bits generalizing pre with
  | nil => exact ⟨[], [], pre, by simp, .none, hpre⟩
  | cons b rest ih =>
    obtain ⟨cur, l, r, w, hf, hc⟩ := hpre
    have hf' : follow s.nodeAt s.root (pre ++ [b]) = some (if b then r else l) := by
      rw [follow_append, hf, Option.bind_some, follow, hc]
      rfl
    have hne : s.nodeAt (if b then r else l) ≠ .empty := by
      obtain ⟨h1, h2⟩ := ht.child_nonempty hc
      split <;> assumption
    have happ : pre ++ b :: rest = (pre ++ [b]) ++ rest := by simp
    cases hn : s.nodeAt (if b then r else l) with
    | empty => exact absurd hn hne
    | internal l' r' w' =>
      rw [happ]
      exact ih _ ⟨_, l', r', w', hf', hn⟩
    | leaf x v =>
      obtain ⟨l0, r0, w0, hr⟩ := ht.root_internal hs
      obtain ⟨out, hout⟩ := ih [] ⟨s.root, l0, r0, w0, rfl, hr⟩
      exact ⟨x :: out, by rw [happ]; exact Decodes.code ⟨_, v, hf', hn⟩ hout⟩

/-! ### The walk -/

/-- How the walk of UNPACK ends in a tree with two symbols or more, from bit index i at node cur, which the bits pre
lead to from the root: without error, at the first bit beyond the payload (44_bit_unpacker.md R146), or at the bit
that ended a code whose symbol did not fit (R149). -/
inductive UnpackEnd (s : State) (more i : Nat) (emitted : List Byte) (pre : List Bool) (r : Unpacked) : Prop
  | complete (out : List Symbol) (herr : r.error = none) (hout : r.out = emitted.reverse ++ out)
      (hfit : emitted.length + out.length ≤ s.params.outCap) (hlen : i + more ≤ 8 * s.payLen.toNat)
      (hdec : Decodes s (pre ++ payloadBits s i more) out)
  | missing (out : List Symbol) (herr : r.error = some (.corruptStream, BitVec.ofNat 32 (8 * s.payLen.toNat)))
      (hout : r.out = emitted.reverse ++ out) (hfit : emitted.length + out.length ≤ s.params.outCap)
      (hlen : 8 * s.payLen.toNat < i + more)
      (hdec : Decodes s (pre ++ payloadBits s i (8 * s.payLen.toNat - i)) out)
  | full (out : List Symbol) (x : Symbol) (d : Nat) (herr : r.error = some (.capacity, BitVec.ofNat 32 (i + d)))
      (hout : r.out = emitted.reverse ++ out) (hfit : emitted.length + out.length = s.params.outCap)
      (hd : d < more) (hlen : i + d < 8 * s.payLen.toNat)
      (hdec : CodeSequence s (pre ++ payloadBits s i (d + 1)) (out ++ [x]))

/-- The walk of UNPACK in a tree with two symbols or more. -/
theorem unpackFrom_spec {s : State} (ht : TreeShape s) (hs : s.single = false) (more i : Nat) (cur : NodeIx)
    (emitted : List Byte) (pre : List Bool) (hi : i ≤ 8 * s.payLen.toNat) (he : emitted.length ≤ s.params.outCap)
    (hpre : follow s.nodeAt s.root pre = some cur) (hcur : ∃ l r w, s.nodeAt cur = .internal l r w) :
    UnpackEnd s more i emitted pre (unpackFrom s more i cur emitted) := by
  induction more generalizing i cur emitted pre with
  | zero =>
    obtain ⟨l, r, w, hc⟩ := hcur
    refine .complete [] rfl (by simp [unpackFrom]) (by simpa using he) (by simpa using hi) ?_
    rw [payloadBits_zero, List.append_nil]
    exact ⟨[], pre, rfl, .none, cur, l, r, w, hpre, hc⟩
  | succ n ih =>
    obtain ⟨l, r, w, hc⟩ := hcur
    rw [unpackFrom]
    by_cases hlen : 8 * s.payLen.toNat ≤ i
    · have hie : i = 8 * s.payLen.toNat := by omega
      simp only [if_pos hlen]
      refine .missing [] (by simp [hie]) (by simp) (by simpa using he) (by omega) ?_
      rw [show 8 * s.payLen.toNat - i = 0 by omega, payloadBits_zero, List.append_nil]
      exact ⟨[], pre, rfl, .none, cur, l, r, w, hpre, hc⟩
    · simp only [if_neg hlen, hc]
      obtain ⟨child, hchild⟩ : ∃ child, child = if s.payBit i then r else l := ⟨_, rfl⟩
      have hpre' : follow s.nodeAt s.root (pre ++ [s.payBit i]) = some child := by
        rw [follow_append, hpre, Option.bind_some, follow, hc, hchild]
        rfl
      have hne : s.nodeAt child ≠ .empty := by
        obtain ⟨h1, h2⟩ := ht.child_nonempty hc
        rw [hchild]
        split <;> assumption
      rw [← hchild]
      have happ : ∀ m, pre ++ payloadBits s i (m + 1) = (pre ++ [s.payBit i]) ++ payloadBits s (i + 1) m := by
        intro m
        rw [payloadBits_succ, List.append_assoc, List.singleton_append]
      cases hn : s.nodeAt child with
      | empty => exact absurd hn hne
      | leaf x v =>
        have hx : LeadsTo s (pre ++ [s.payBit i]) x := ⟨child, v, hpre', hn⟩
        simp only
        by_cases hfull : s.params.outCap ≤ emitted.length
        · rw [if_pos hfull]
          refine .full [] x 0 rfl (by simp) (by simp; omega) (by omega) (by omega) ?_
          rw [happ 0, payloadBits_zero]
          exact .code hx .none
        · rw [if_neg hfull]
          have h := ih (i + 1) s.root (x :: emitted) [] (by omega) (by simp; omega) rfl (ht.root_internal hs)
          rcases h with ⟨out, h1, h2, h3, h4, h5⟩ | ⟨out, h1, h2, h3, h4, h5⟩ | ⟨out, y, d, h1, h2, h3, h4, h5, h6⟩
          · refine .complete (x :: out) h1 (by simpa using h2) (by simp at h3 ⊢; omega) (by omega) ?_
            rw [happ n]
            exact Decodes.code hx h5
          · refine .missing (x :: out) h1 (by simpa using h2) (by simp at h3 ⊢; omega) (by omega) ?_
            rw [show 8 * s.payLen.toNat - i = (8 * s.payLen.toNat - (i + 1)) + 1 by omega, happ]
            exact Decodes.code hx h5
          · refine .full (x :: out) y (d + 1) (by rw [h1]; congr 3; omega) (by simpa using h2)
              (by simp at h3 ⊢; omega) (by omega) (by omega) ?_
            rw [happ (d + 1), List.cons_append]
            exact .code hx h6
      | internal l' r' v =>
        have h := ih (i + 1) child emitted (pre ++ [s.payBit i]) (by omega) he hpre' ⟨l', r', v, hn⟩
        rcases h with ⟨out, h1, h2, h3, h4, h5⟩ | ⟨out, h1, h2, h3, h4, h5⟩ | ⟨out, y, d, h1, h2, h3, h4, h5, h6⟩
        · exact .complete out h1 h2 h3 (by omega) (by rw [happ n]; exact h5)
        · refine .missing out h1 h2 h3 (by omega) ?_
          rw [show 8 * s.payLen.toNat - i = (8 * s.payLen.toNat - (i + 1)) + 1 by omega, happ]
          exact h5
        · exact .full out y (d + 1) (by rw [h1]; congr 3; omega) h2 h3 (by omega) (by omega)
            (by rw [happ (d + 1)]; exact h6)

/-- How the walk ends at a leaf root (44_bit_unpacker.md R145): without error, at a 1 bit, at the first bit beyond
the payload, or with the output full. -/
inductive UnpackLeafEnd (s : State) (x : Symbol) (more i : Nat) (emitted : List Byte) (r : Unpacked) : Prop
  | complete (herr : r.error = none) (hout : r.out = emitted.reverse ++ List.replicate more x)
      (hfit : emitted.length + more ≤ s.params.outCap) (hlen : i + more ≤ 8 * s.payLen.toNat)
      (hzero : ∀ t, t < more → s.payBit (i + t) = false)
  | stopped (d : Nat) (e : ErrorCode) (herr : r.error = some (e, BitVec.ofNat 32 (i + d))) (hd : d < more)
      (hout : r.out = emitted.reverse ++ List.replicate d x) (hzero : ∀ t, t < d → s.payBit (i + t) = false)
      (hfit : emitted.length + d ≤ s.params.outCap) (hlen : i + d ≤ 8 * s.payLen.toNat)
      (hwhy : (e = .corruptStream ∧ 8 * s.payLen.toNat = i + d) ∨
        (e = .corruptStream ∧ i + d < 8 * s.payLen.toNat ∧ s.payBit (i + d) = true) ∨
        (e = .capacity ∧ i + d < 8 * s.payLen.toNat ∧ s.payBit (i + d) = false ∧
          emitted.length + d = s.params.outCap))

/-- The walk of UNPACK at a leaf root. -/
theorem unpackFrom_leaf {s : State} {x : Symbol} {w : Weight} (hroot : s.nodeAt s.root = .leaf x w) (more i : Nat)
    (emitted : List Byte) (hi : i ≤ 8 * s.payLen.toNat) (he : emitted.length ≤ s.params.outCap) :
    UnpackLeafEnd s x more i emitted (unpackFrom s more i s.root emitted) := by
  induction more generalizing i emitted with
  | zero => exact .complete rfl (by simp [unpackFrom]) (by simpa using he) (by simpa using hi) (by simp)
  | succ n ih =>
    rw [unpackFrom]
    by_cases hlen : 8 * s.payLen.toNat ≤ i
    · simp only [if_pos hlen]
      exact .stopped 0 .corruptStream rfl (by omega) (by simp) (by simp) (by omega) (by omega) (.inl ⟨rfl, by omega⟩)
    · simp only [if_neg hlen, hroot]
      by_cases hbit : s.payBit i = true
      · rw [if_pos hbit]
        exact .stopped 0 .corruptStream rfl (by omega) (by simp) (by simp) (by omega) (by omega)
          (.inr (.inl ⟨rfl, by omega, hbit⟩))
      · have hbit' : s.payBit i = false := by simpa using hbit
        rw [if_neg hbit]
        by_cases hfull : s.params.outCap ≤ emitted.length
        · rw [if_pos hfull]
          exact .stopped 0 .capacity rfl (by omega) (by simp) (by simp) (by omega) (by omega)
            (.inr (.inr ⟨rfl, by omega, hbit', by omega⟩))
        · rw [if_neg hfull]
          have hz : ∀ m, (∀ t, t < m → s.payBit (i + 1 + t) = false) → ∀ t, t < m + 1 → s.payBit (i + t) = false := by
            intro m hm t ht
            cases t with
            | zero => exact hbit'
            | succ t' =>
              rw [show i + (t' + 1) = i + 1 + t' by omega]
              exact hm t' (by omega)
          rcases ih (i + 1) (x :: emitted) (by omega) (by simp; omega) with
            ⟨h1, h2, h3, h4, h5⟩ | ⟨d, e, h1, h2, h3, h4, h5, h6, h7⟩
          · refine .complete h1 ?_ (by simp at h3; omega) (by omega) (hz n h5)
            rw [h2, List.reverse_cons, List.append_assoc]
            rfl
          · have hid : i + 1 + d = i + (d + 1) := by omega
            rw [hid] at h1 h6 h7
            refine .stopped (d + 1) e h1 (by omega) ?_ (hz d h4) (by simp at h5; omega) h6 ?_
            · rw [h3, List.reverse_cons, List.append_assoc]
              rfl
            · rw [List.length_cons, show emitted.length + 1 + d = emitted.length + (d + 1) by omega] at h7
              exact h7

/-- Codes of the code table, one after another, walk to their symbols (43_bit_packer.md R140). -/
theorem unpackFrom_path {s : State} (c : List Bool) (more i : Nat) (cur m : NodeIx) (x : Symbol) (w : Weight)
    (emitted : List Byte) (hc : c ≠ []) (hf : follow s.nodeAt cur c = some m) (hm : s.nodeAt m = .leaf x w)
    (hbits : ∀ t, t < c.length → s.payBit (i + t) = c.getD t false) (hlen : i + c.length ≤ 8 * s.payLen.toNat)
    (hfit : emitted.length < s.params.outCap) :
    unpackFrom s (c.length + more) i cur emitted = unpackFrom s more (i + c.length) s.root (x :: emitted) := by
  induction c generalizing i cur with
  | nil => exact absurd rfl hc
  | cons b rest ih =>
    rw [List.length_cons] at hlen hbits ⊢
    have hb : s.payBit i = b := by simpa using hbits 0 (by omega)
    have hrest : ∀ t, t < rest.length → s.payBit (i + 1 + t) = rest.getD t false := by
      intro t ht
      have := hbits (t + 1) (by omega)
      rw [List.getD_cons_succ] at this
      rw [← this]
      congr 1
      omega
    rw [follow] at hf
    cases hn : s.nodeAt cur with
    | empty => rw [hn] at hf; exact absurd hf (by simp)
    | leaf y v => rw [hn] at hf; exact absurd hf (by simp)
    | internal l r v =>
      rw [hn] at hf
      rw [show rest.length + 1 + more = rest.length + more + 1 by omega, unpackFrom]
      simp only [if_neg (by omega : ¬8 * s.payLen.toNat ≤ i), hn, hb]
      obtain ⟨child, hchild⟩ : ∃ child, child = if b = true then r else l := ⟨_, rfl⟩
      rw [← hchild]
      have hf' : follow s.nodeAt child rest = some m := by rw [hchild]; exact hf
      rw [show i + (rest.length + 1) = i + 1 + rest.length by omega]
      cases hr : rest with
      | nil =>
        rw [hr, follow, Option.some.injEq] at hf'
        rw [hf', hm]
        simp only [if_neg (by omega : ¬s.params.outCap ≤ emitted.length), List.length_nil, Nat.zero_add, Nat.add_zero]
      | cons b' rest' =>
        have h := ih (i + 1) child (by rw [hr]; simp) hf' hrest (by omega)
        cases hcn : s.nodeAt child with
        | empty => rw [hr, follow, hcn] at hf'; exact absurd hf' (by simp)
        | leaf y v' => rw [hr, follow, hcn] at hf'; exact absurd hf' (by simp)
        | internal l' r' v' =>
          rw [← hr]
          exact h

end Sys2Proof.Machine
end

