-- ==== Sys2Proof/Laws/Stages.lean ====
section
/-! SUPPORT. What each command's stage can do, said once: which fields it writes, and how it ends (30_encoding.md
R91). -/

namespace Sys2Proof.Machine

/-- The state a stage leaves, before the completion fields. -/
def Result.state : Result → State
  | .ok s => s
  | .err _ _ _ s => s

@[simp] theorem Result.state_ok (s : State) : (Result.ok s).state = s := rfl

@[simp] theorem Result.state_err (op : BitVec 4) (e : ErrorCode) (info : Word) (s : State) :
    (Result.err op e info s).state = s := rfl

/-- A command completes: SEQ is IDLE and DONE is set, and but for the completion fields the state is the stage's
(60_exceptions.md R167, R168). -/
theorem Result.completion_eq (r : Result) :
    r.completion = { r.state with
      seq := .idle
      done := true
      errCode := r.completion.errCode
      errOp := r.completion.errOp
      errInfo := r.completion.errInfo } := by
  cases r <;> rfl

/-! ### CLEAR and COUNT -/

/-- An entry of the counts (40_frequency_table.md R105). -/
theorem foldl_increment (bytes : List Byte) (freq : Vector Word 256) (x : Symbol) :
    (bytes.foldl increment freq)[x.toNat]'x.isLt = freq[x.toNat]'x.isLt + BitVec.ofNat 32 (bytes.count x) := by
  induction bytes generalizing freq with
  | nil => simp
  | cons b rest ih =>
    rw [List.foldl_cons, ih, List.count_cons, increment, Vector.getElem_set]
    by_cases h : b = x
    · subst h
      rw [if_pos rfl, if_pos (by simp), Nat.add_comm (rest.count b) 1, BitVec.ofNat_add, BitVec.add_assoc]
      rfl
    · have h' : b.toNat ≠ x.toNat := fun he => h (BitVec.eq_of_toNat_eq he)
      rw [if_neg h', if_neg (by simpa using h), Nat.add_zero]

/-- FREQ after counting, as a number (40_frequency_table.md R105). -/
theorem countBytes_toNat {bytes : List Byte} (h : bytes.length < 2 ^ 32) (x : Symbol) :
    ((countBytes bytes)[x.toNat]'x.isLt).toNat = bytes.count x := by
  rw [countBytes, foldl_increment]
  have hc : bytes.count x ≤ bytes.length := List.count_le_length
  rw [Vector.getElem_replicate, show (0 : Word) = 0#32 from rfl, BitVec.zero_add, BitVec.toNat_ofNat]
  omega

/-- The fields COUNT writes. -/
theorem countStage_frame (s : State) :
    (countStage s).state = { s with
      freq := (countStage s).state.freq
      treeValid := (countStage s).state.treeValid
      codesValid := (countStage s).state.codesValid
      single := (countStage s).state.single } := by
  simp only [countStage]
  split
  · rfl
  · split <;> rfl

/-- How COUNT ends (40_frequency_table.md R103, R106). -/
theorem countStage_cases (s : State) :
    (s.params.inCap < s.inLen.toNat ∧ countStage s = .err 0x2 .capacity s.inLen s) ∨
    (s.inLen.toNat = 0 ∧ countStage s = .err 0x2 .emptyInput 0 { s.invalidate with freq := Vector.replicate 256 0 }) ∨
    (1 ≤ s.inLen.toNat ∧ s.inLen.toNat ≤ s.params.inCap ∧
      countStage s = .ok { s.invalidate with freq := countBytes (s.bufferBytes .inBuf s.inLen.toNat) }) := by
  simp only [countStage]
  by_cases h1 : s.params.inCap < s.inLen.toNat
  · exact .inl ⟨h1, if_pos h1⟩
  · rw [if_neg h1]
    by_cases h2 : s.inLen.toNat = 0
    · exact .inr (.inl ⟨h2, if_pos h2⟩)
    · exact .inr (.inr ⟨by omega, by omega, if_neg h2⟩)

/-! ### BUILD -/

/-- The fields BUILD writes. -/
theorem buildStage_frame (s : State) :
    (buildStage s).state = { s with
      node := (buildStage s).state.node
      toDo := (buildStage s).state.toDo
      root := (buildStage s).state.root
      numSyms := (buildStage s).state.numSyms
      numNodes := (buildStage s).state.numNodes
      treeValid := (buildStage s).state.treeValid
      codesValid := (buildStage s).state.codesValid
      single := (buildStage s).state.single } := by
  simp only [buildStage]
  split <;> rfl

/-- BUILD without a symbol (41_tree_builder.md R117). -/
theorem buildStage_empty {s : State} (h : s.presentSymbols = []) :
    buildStage s = .err 0x3 .emptyInput 0 { s.invalidate with
      node := Vector.replicate 511 .empty
      numSyms := 0
      numNodes := 0
      root := 0 } := by
  simp [buildStage, h]

/-! ### GENCODE -/

/-- The fields GENCODE writes. -/
theorem gencodeStage_frame (s : State) :
    (gencodeStage s).state = { s with
      codeLen := (gencodeStage s).state.codeLen
      codeBits := (gencodeStage s).state.codeBits
      codesValid := (gencodeStage s).state.codesValid } := by
  simp only [gencodeStage]
  split
  · split <;> rfl
  · rfl

/-! ### PACK -/

/-- How PACK ends: it fails and leaves the payload alone, or it stores the whole payload (43_bit_packer.md R133,
R137). -/
theorem packStage_cases (s : State) :
    (∃ e info, packStage s = packFail e info s) ∨
    (s.codesValid = true ∧ 1 ≤ s.inLen.toNat ∧ s.inLen.toNat ≤ s.params.inCap ∧
      (∀ j, j < s.inLen.toNat → s.codeLenAt (s.bufferByte .inBuf j) ≠ 0) ∧
      s.packTotal (s.bufferBytes .inBuf s.inLen.toNat) ≤ 8 * s.params.payCap ∧
      packStage s =
        .ok { s.storeBytes .payBuf 0 (payloadBytes (s.packBits (s.bufferBytes .inBuf s.inLen.toNat))) with
          numBits := BitVec.ofNat 32 (s.packTotal (s.bufferBytes .inBuf s.inLen.toNat))
          payLen := BitVec.ofNat 32 (ceilDiv8 (s.packTotal (s.bufferBytes .inBuf s.inLen.toNat))) }) := by
  by_cases h1 : s.codesValid = true
  case neg =>
    refine .inl ⟨.sequence, 0, ?_⟩
    have h1' : s.codesValid = false := by simpa using h1
    simp [packStage, h1']
  by_cases h2 : s.params.inCap < s.inLen.toNat
  · refine .inl ⟨.capacity, s.inLen, ?_⟩
    simp [packStage, h1, h2]
  by_cases h3 : s.inLen.toNat = 0
  · refine .inl ⟨.emptyInput, 0, ?_⟩
    have h3' : s.inLen = 0#32 := BitVec.eq_of_toNat_eq h3
    simp [packStage, h1, h3']
  cases h4 : s.firstWithoutCode (s.bufferBytes .inBuf s.inLen.toNat) with
  | some j =>
    refine .inl ⟨.noCode, BitVec.ofNat 32 j, ?_⟩
    simp only [packStage, h1, h2, h3, h4]
    rfl
  | none =>
    by_cases h5 : 8 * s.params.payCap < s.packTotal (s.bufferBytes .inBuf s.inLen.toNat)
    · refine .inl ⟨.capacity, BitVec.ofNat 32 (s.packTotal (s.bufferBytes .inBuf s.inLen.toNat)), ?_⟩
      simp only [packStage, h1, h2, h3, h4, if_pos h5]
      rfl
    · refine .inr ⟨h1, by omega, by omega, ?_, by omega, ?_⟩
      · intro j hj
        rw [State.firstWithoutCode, List.findIdx?_eq_none_iff] at h4
        have := h4 (s.bufferByte .inBuf j) (List.mem_map.mpr ⟨j, List.mem_range.mpr hj, rfl⟩)
        simpa using this
      · simp only [packStage, h1, h2, h3, h4, if_neg h5]
        rfl

/-- No input byte is the first without a code when each has one (43_bit_packer.md R138). -/
theorem firstWithoutCode_none {s : State} {n : Nat}
    (h : ∀ j, j < n → s.codeLenAt (s.bufferByte .inBuf j) ≠ 0) :
    s.firstWithoutCode (s.bufferBytes .inBuf n) = none := by
  rw [State.firstWithoutCode, List.findIdx?_eq_none_iff]
  intro x hx
  obtain ⟨j, hj, rfl⟩ := List.mem_map.mp hx
  have := h j (List.mem_range.mp hj)
  simpa using this

/-- PACK of an input whose bytes all have codes: it fails with CAPACITY where the payload does not fit, and stores it
where it does (43_bit_packer.md R133, R137). -/
theorem packStage_coded {s : State} (h1 : s.codesValid = true) (h2 : 1 ≤ s.inLen.toNat)
    (h3 : s.inLen.toNat ≤ s.params.inCap)
    (h4 : ∀ j, j < s.inLen.toNat → s.codeLenAt (s.bufferByte .inBuf j) ≠ 0) :
    packStage s =
      if 8 * s.params.payCap < s.packTotal (s.bufferBytes .inBuf s.inLen.toNat) then
        packFail .capacity (BitVec.ofNat 32 (s.packTotal (s.bufferBytes .inBuf s.inLen.toNat))) s
      else
        .ok { s.storeBytes .payBuf 0 (payloadBytes (s.packBits (s.bufferBytes .inBuf s.inLen.toNat))) with
          numBits := BitVec.ofNat 32 (s.packTotal (s.bufferBytes .inBuf s.inLen.toNat))
          payLen := BitVec.ofNat 32 (ceilDiv8 (s.packTotal (s.bufferBytes .inBuf s.inLen.toNat))) } := by
  simp only [packStage, h1, if_neg (by omega : ¬s.params.inCap < s.inLen.toNat),
    if_neg (by omega : ¬s.inLen.toNat = 0), firstWithoutCode_none h4]
  rfl

/-- Each byte adds at most 255 bits (43_bit_packer.md R135). -/
theorem packTotal_le (s : State) (input : List Byte) : s.packTotal input ≤ 255 * input.length := by
  have h := List.sum_le_card_nsmul (input.map fun sym => (s.codeLenAt sym).toNat) 255 (by
    intro x hx
    obtain ⟨y, -, rfl⟩ := List.mem_map.mp hx
    have := (s.codeLenAt y).isLt
    omega)
  rw [State.packTotal]
  simp only [List.length_map, smul_eq_mul] at h
  omega

/-! ### UNPACK -/

/-- How UNPACK ends: refused before the first bit with OUT_LEN = 0, or with what the walk gave (44_bit_unpacker.md
R143). -/
theorem unpackStage_cases (s : State) :
    (s.treeValid = false ∧ unpackStage s = .err 0x6 .sequence 0 { s with outLen := 0 }) ∨
    (s.treeValid = true ∧ s.params.payCap < s.payLen.toNat ∧
      unpackStage s = .err 0x6 .capacity s.payLen { s with outLen := 0 }) ∨
    (s.treeValid = true ∧ s.payLen.toNat ≤ s.params.payCap ∧ sint32 s.numBits < 0 ∧
      unpackStage s = .err 0x6 .corruptStream s.numBits { s with outLen := 0 }) ∨
    (s.treeValid = true ∧ s.payLen.toNat ≤ s.params.payCap ∧ 0 ≤ sint32 s.numBits ∧
      ∃ r t, r = unpackFrom s s.numBits.toNat 0 s.root [] ∧
        t = { s.storeBytes .outBuf 0 r.out with outLen := BitVec.ofNat 32 r.out.length } ∧
        ((r.error = none ∧ unpackStage s = .ok t) ∨
          ∃ e info, r.error = some (e, info) ∧ unpackStage s = .err 0x6 e info t)) := by
  by_cases h1 : s.treeValid = true
  case neg =>
    have h1' : s.treeValid = false := by simpa using h1
    exact .inl ⟨h1', by simp [unpackStage, h1']⟩
  by_cases h2 : s.params.payCap < s.payLen.toNat
  · exact .inr (.inl ⟨h1, h2, by simp [unpackStage, h1, h2]⟩)
  by_cases h3 : sint32 s.numBits < 0
  · exact .inr (.inr (.inl ⟨h1, by omega, h3, by simp [unpackStage, h1, h2, h3]⟩))
  · refine .inr (.inr (.inr ⟨h1, by omega, by omega, _, _, rfl, rfl, ?_⟩))
    cases h4 : (unpackFrom s s.numBits.toNat 0 s.root []).error with
    | none => exact .inl ⟨rfl, by simp [unpackStage, h1, h2, h3, h4]⟩
    | some p => exact .inr ⟨p.1, p.2, rfl, by simp [unpackStage, h1, h2, h3, h4]⟩

/-- UNPACK emits at most OUT_CAP bytes, in any arena (44_bit_unpacker.md R149; 20_memory.md R76). -/
theorem unpackFrom_out_le (s : State) (more i : Nat) (cur : NodeIx) (emitted : List Byte)
    (he : emitted.length ≤ s.params.outCap) : (unpackFrom s more i cur emitted).out.length ≤ s.params.outCap := by
  induction more generalizing i cur emitted with
  | zero => simpa [unpackFrom] using he
  | succ n ih =>
    rw [unpackFrom]
    dsimp only
    split
    · simpa using he
    · split
      · split
        · simpa using he
        · split
          · simpa using he
          · exact ih _ _ _ (by simp; omega)
      · split
        · split
          · simpa using he
          · exact ih _ _ _ (by simp; omega)
        · exact ih _ _ _ he
        · exact ih _ _ _ he
      · simpa using he

/-! ### PACK then UNPACK -/

/-- The walk of UNPACK over the packed codes of an input gives the input back, in a tree with two symbols or more
(43_bit_packer.md R140). -/
theorem unpackFrom_packBits {s : State} (hc : CodesMatch s) (hs : s.single = false) (input : List Byte) (i : Nat)
    (emitted : List Byte) (hcode : ∀ x ∈ input, s.codeLenAt x ≠ 0)
    (hbits : ∀ t, t < (s.packBits input).length → s.payBit (i + t) = (s.packBits input).getD t false)
    (hlen : i + (s.packBits input).length ≤ 8 * s.payLen.toNat)
    (hfit : emitted.length + input.length ≤ s.params.outCap) :
    unpackFrom s (s.packBits input).length i s.root emitted = { out := emitted.reverse ++ input, error := none } := by
  induction input generalizing i emitted with
  | nil => simp [State.packBits, unpackFrom]
  | cons x rest ih =>
    have happ : s.packBits (x :: rest) = s.codeOf x ++ s.packBits rest := by simp [State.packBits]
    rw [happ] at hbits hlen ⊢
    rw [List.length_append] at hbits hlen ⊢
    rw [List.length_cons] at hfit
    have hx := hcode x List.mem_cons_self
    obtain ⟨m, w, hf, hm⟩ := hc.paths hs x hx
    have hne : s.codeOf x ≠ [] := by
      intro h
      have := codeOf_length s x
      rw [h] at this
      exact hx (BitVec.eq_of_toNat_eq this.symm)
    rw [unpackFrom_path (s.codeOf x) _ i s.root m x w emitted hne hf hm ?_ (by omega) (by omega)]
    · rw [ih (i + (s.codeOf x).length) (x :: emitted) (fun y hy => hcode y (List.mem_cons_of_mem _ hy)) ?_ (by omega)
        (by rw [List.length_cons]; omega)]
      · rw [List.reverse_cons, List.append_assoc]
        rfl
      · intro t ht
        have := hbits ((s.codeOf x).length + t) (by omega)
        rw [show i + ((s.codeOf x).length + t) = i + (s.codeOf x).length + t by omega] at this
        rw [this]
        simp [List.getD, List.getElem?_append_right]
    · intro t ht
      rw [hbits t (by omega)]
      simp [List.getD, List.getElem?_append_left ht]

/-! ### ENCODE -/

/-- What holds between the stages of ENCODE once COUNT accepts the input: the tree and the codes are made, every input
byte has a code, and ENCODE ends as PACK does (45_entry_points.md R154, R155). -/
theorem encodeStage_tables {s : State} (h1 : 1 ≤ s.inLen.toNat) (h2 : s.inLen.toNat ≤ s.params.inCap) :
    ∃ c b g, countStage s = .ok c ∧ buildStage c = .ok b ∧ gencodeStage b = .ok g ∧ encodeStage s = packStage g ∧
      TreeShape b ∧ MergesLeastTwo b.nodeAt ∧ b.toDo = [] ∧ CodesMatch g ∧ g.treeValid = true ∧ g.codesValid = true ∧
      g.mem = s.mem ∧ g.epoch = s.epoch ∧ g.inLen = s.inLen ∧ g.params = s.params ∧
      ∀ j, j < s.inLen.toNat → g.codeLenAt (s.bufferByte .inBuf j) ≠ 0 := by
  rcases countStage_cases s with ⟨h, -⟩ | ⟨h, -⟩ | ⟨-, -, hc⟩
  · omega
  · omega
  obtain ⟨c, hceq⟩ : ∃ c : State, c = { s.invalidate with freq := countBytes (s.bufferBytes .inBuf s.inLen.toNat) } :=
    ⟨_, rfl⟩
  rw [← hceq] at hc
  have hin : ∀ j, j < s.inLen.toNat → c.freqAt (s.bufferByte .inBuf j) ≠ 0 := by
    intro j hj h0
    have h4 : (c.freqAt (s.bufferByte .inBuf j)).toNat =
        (s.bufferBytes .inBuf s.inLen.toNat).count (s.bufferByte .inBuf j) := by
      rw [hceq]
      exact countBytes_toNat (by rw [bufferBytes_length]; exact s.inLen.isLt) (s.bufferByte .inBuf j)
    rw [h0] at h4
    have h5 : s.bufferByte .inBuf j ∈ s.bufferBytes .inBuf s.inLen.toNat :=
      List.mem_map.mpr ⟨j, List.mem_range.mpr hj, rfl⟩
    have h6 := List.count_pos_iff.mpr h5
    rw [← h4] at h6
    simp at h6
  have hpres : c.presentSymbols ≠ [] := by
    intro h
    have h4 := (mem_presentSymbols c _).mpr (hin 0 (by omega))
    rw [h] at h4
    simp at h4
  obtain ⟨b, hb, hbeq, hshape, hmerges⟩ := buildStage_tree c hpres
  have hbv : b.treeValid = true := by rw [hbeq]
  obtain ⟨g, hg, hgeq, hcodes⟩ := gencodeStage_codes hbv hshape
  have hbf : b.freqAt = c.freqAt := by rw [hbeq]; rfl
  have hgn : g.nodeAt = b.nodeAt := by rw [hgeq]; rfl
  refine ⟨c, b, g, hc, hb, hg, ?_, hshape, hmerges, by rw [hbeq], hcodes, by rw [hgeq]; exact hbv, by rw [hgeq],
    by rw [hgeq, hbeq, hceq]; rfl, by rw [hgeq, hbeq, hceq]; rfl, by rw [hgeq, hbeq, hceq]; rfl,
    by rw [hgeq, hbeq, hceq]; rfl, fun j hj => (hcodes.defined _).mpr ?_⟩
  · rw [encodeStage, hc, Result.andThen_ok, hb, Result.andThen_ok, hg, Result.andThen_ok]
  · rw [hgn]
    exact (hshape.present _).mp (by rw [hbf]; exact hin j hj)

/-- ENCODE of an input that fits with any codes completes (45_entry_points.md R154). -/
theorem encodeStage_ok {s : State} (h1 : 1 ≤ s.inLen.toNat) (h2 : s.inLen.toNat ≤ s.params.inCap)
    (h3 : 255 * s.inLen.toNat ≤ 8 * s.params.payCap) : ∃ t, encodeStage s = .ok t := by
  obtain ⟨c, b, g, -, -, -, he, -, -, -, -, -, hcv, hm, hep, hi, hp, hdef⟩ := encodeStage_tables h1 h2
  rw [he]
  rw [packStage_coded hcv (by rw [hi]; exact h1) (by rw [hi, hp]; exact h2), if_neg]
  · exact ⟨_, rfl⟩
  · have := packTotal_le g (g.bufferBytes .inBuf g.inLen.toNat)
    rw [bufferBytes_length, hi] at this
    rw [hi, hp]
    omega
  · intro j hj
    rw [State.bufferByte, State.byteAt, hm, hep]
    exact hdef j (by rw [← hi]; exact hj)

end Sys2Proof.Machine
end

