-- ==== Sys2Proof/Laws/Bus.lean ====
section
/-! SUPPORT. What a host transaction can do (20_memory.md R64, R65) and what a step can do (10_state.md R20). -/

namespace Sys2Proof.Machine

/-- What an if answered. -/
theorem ite_cases {α : Type} {c : Prop} [Decidable c] {a b x : α} (h : (if c then a else b) = x) :
    (c ∧ a = x) ∨ (¬c ∧ b = x) := by
  by_cases hc : c
  · exact .inl ⟨hc, by rw [← h, if_pos hc]⟩
  · exact .inr ⟨hc, by rw [← h, if_neg hc]⟩

/-- A 4-byte access at a multiple of 4 goes to its location (20_memory.md R63). -/
theorem wordAccess_four {offset : Nat} (l : Loc) (h : offset % 4 = 0) : wordAccess offset 4 l = .at l :=
  if_pos ⟨rfl, h⟩

/-- A legal buffer access lies below the capacity and is aligned (20_memory.md R62). -/
theorem locate_buffer {p : Params} {offset n : Nat} {b : Buffer} {j : Nat} (h : locate p offset n = .at (.buffer b j)) :
    offset = bufferBase b + j ∧ j + n ≤ capacity p b ∧ j % n = 0 := by
  have hword : ∀ {l : Loc}, wordAccess offset n l = .at (.buffer b j) → l = .buffer b j := by
    intro l hl
    rw [wordAccess] at hl
    split at hl
    · injection hl
    · exact absurd hl (by simp)
  have hbuf : ∀ {c : Buffer} {k : Nat}, bufferAccess p c k n = .at (.buffer b j) →
      c = b ∧ k = j ∧ j + n ≤ capacity p b ∧ j % n = 0 := by
    intro c k hl
    rw [bufferAccess] at hl
    split at hl
    · exact absurd hl (by simp)
    · split at hl
      · injection hl with hl
        injection hl with h1 h2
        subst h1 h2
        exact ⟨rfl, rfl, by omega, ‹_›⟩
      · exact absurd hl (by simp)
  rw [locate] at h
  repeat
    rcases ite_cases h with ⟨hlt, hat⟩ | ⟨hge, h⟩
    · first
        | exact absurd (hword hat) (by simp)
        | exact absurd hat (by simp)
        | obtain ⟨rfl, hk, hcap⟩ := hbuf hat
          simp only [bufferBase]
          exact ⟨by omega, hcap⟩
  exact absurd h (by simp)

/-- A control register's transaction goes to the register (10_state.md R23; 20_memory.md R61). -/
theorem locate_reg (p : Params) {r : Nat} (h : r < 16) : locate p (4 * r) 4 = .at (.reg (regTable.getD r .reserved)) := by
  simp (disch := omega) only [locate, if_pos, wordAccess_four]
  rw [Nat.mul_div_cancel_left r (by decide)]

/-- A FREQ entry's transaction goes to it (20_memory.md R61). -/
theorem locate_freq (p : Params) (sym : Symbol) : locate p (0x400 + 4 * sym.toNat) 4 = .at (.freq sym) := by
  have h := sym.isLt
  simp (disch := omega) only [locate, if_neg, if_pos, wordAccess_four]
  rw [show (0x400 + 4 * sym.toNat - 0x400) / 4 = sym.toNat by omega, BitVec.ofNat_toNat, BitVec.setWidth_eq]

/-- A CODE_LEN entry's transaction goes to it (20_memory.md R61). -/
theorem locate_codeLen (p : Params) (sym : Symbol) : locate p (0x800 + 4 * sym.toNat) 4 = .at (.codeLen sym) := by
  have h := sym.isLt
  simp (disch := omega) only [locate, if_neg, if_pos, wordAccess_four]
  rw [show (0x800 + 4 * sym.toNat - 0x800) / 4 = sym.toNat by omega, BitVec.ofNat_toNat, BitVec.setWidth_eq]

/-- The transaction of word w of a CODE_BITS entry goes to it (20_memory.md R61; 10_state.md R42). -/
theorem locate_codeBits (p : Params) (sym : Symbol) {w : Nat} (hw : w < 8) :
    locate p (0x1000 + 32 * sym.toNat + 4 * w) 4 = .at (.codeBits sym w) := by
  have h := sym.isLt
  simp (disch := omega) only [locate, if_neg, if_pos, wordAccess_four]
  rw [show (0x1000 + 32 * sym.toNat + 4 * w - 0x1000) / 32 = sym.toNat by omega,
    show (0x1000 + 32 * sym.toNat + 4 * w - 0x1000) / 4 % 8 = w by omega, BitVec.ofNat_toNat, BitVec.setWidth_eq]

/-- The transaction of word w of a slot of the node window goes to it (20_memory.md R61; 10_state.md R37). -/
theorem locate_node (p : Params) (n : NodeIx) {w : Nat} (hw : w < 4) :
    locate p (0x4000 + 16 * n.toNat + 4 * w) 4 = .at (.node n w) := by
  have h := n.isLt
  simp (disch := omega) only [locate, if_neg, if_pos, wordAccess_four]
  rw [show (0x4000 + 16 * n.toNat + 4 * w - 0x4000) / 16 = n.toNat by omega,
    show (0x4000 + 16 * n.toNat + 4 * w - 0x4000) / 4 % 4 = w by omega, BitVec.ofNat_toNat, BitVec.setWidth_eq]

/-- In the 2^24 offsets from a buffer's base a transaction is an access of that buffer (20_memory.md R61). -/
theorem locate_region (p : Params) (b : Buffer) {j : Nat} (n : Nat) (h : j < 0x01000000) :
    locate p (bufferBase b + j) n = bufferAccess p b j n := by
  cases b <;> rw [locate, bufferBase] <;> (repeat rw [if_neg (by omega)]) <;>
    rw [if_pos (by omega), Nat.add_sub_cancel_left]

/-- A buffer transaction in bounds and aligned goes to the buffer (20_memory.md R62). -/
theorem locate_buffer_of {p : Params} (hp : p.wellFormed = true) (b : Buffer) {j n : Nat} (h1 : 1 ≤ n)
    (h2 : j + n ≤ capacity p b) (h3 : j % n = 0) : locate p (bufferBase b + j) n = .at (.buffer b j) := by
  have hc := (capacity_le hp b).2
  rw [locate_region p b n (by omega), bufferAccess, if_neg (by omega), if_pos h3]

/-- The number of bytes a write stores (20_memory.md R66). -/
theorem writeBytesOf_length (v : Word) (size : Size) : (writeBytesOf v size).length = size.bytes := by
  cases size <;> simp [writeBytesOf, wordBytes, Size.bytes]

/-- Everything a host transaction can do to the state (20_memory.md R64, R65, R73). -/
inductive TransactEffect (s : State) : State → Prop
  /-- Reads of settled state, ERROR responses, and writes to read-only locations. -/
  | nothing : TransactEffect s s
  /-- A read of a running command's write set takes one free value. -/
  | draw : TransactEffect s { s with draws := s.draws + 1 }
  | status (v : Word) : TransactEffect s (s.writeStatus v)
  | irqEn (v : Word) : TransactEffect s (s.writeIrqEn v)
  | dropped (hbusy : s.seq = .busy) : TransactEffect s { s with ovr := true }
  | accept (hidle : s.seq = .idle) (v : Word) : TransactEffect s (acceptCommand v s)
  | inLen (hidle : s.seq = .idle) (v : Word) : TransactEffect s { s with inLen := v }
  | numBits (hidle : s.seq = .idle) (v : Word) : TransactEffect s { s with numBits := v }
  | payLen (hidle : s.seq = .idle) (v : Word) : TransactEffect s { s with payLen := v }
  | freq (hidle : s.seq = .idle) (sym : Symbol) (v : Word) : TransactEffect s (s.writeFreq sym v)
  | store (hidle : s.seq = .idle) (b : Buffer) (j : Nat) (bs : List Byte)
      (hcap : j + bs.length ≤ capacity s.params b) : TransactEffect s (s.storeBytes b j bs)

theorem isBusy_iff (s : State) : s.isBusy = true ↔ s.seq = .busy := by simp [State.isBusy]

theorem isBusy_false_iff (s : State) : s.isBusy = false ↔ s.seq = .idle := by
  cases h : s.seq <;> simp [State.isBusy, h]

/-- A host transaction has one of these effects. -/
theorem transact_effect (s : State) (tx : BusTx) : TransactEffect s (s.transact tx).1 := by
  cases tx with
  | read addr size =>
    simp only [State.transact, State.memRead]
    split
    · exact .nothing
    · dsimp only
      split
      · exact .nothing
      · exact .draw
  | write addr size v =>
    simp only [State.transact, State.memWrite]
    split
    · exact .nothing
    · rename_i l hl
      dsimp only
      rw [State.writeLoc.eq_def]
      split
      · exact .status v
      · exact .irqEn v
      · by_cases hb : s.isBusy = true
        · rw [if_pos hb]
          exact .dropped ((isBusy_iff s).mp hb)
        · have hidle : s.seq = .idle := (isBusy_false_iff s).mp (by simpa using hb)
          rw [if_neg hb]
          rw [State.writeIdle.eq_def]
          split <;> first
            | exact .nothing
            | exact .accept hidle v
            | exact .inLen hidle v
            | exact .numBits hidle v
            | exact .payLen hidle v
            | exact .freq hidle _ v
            | skip
          obtain ⟨-, hcap, -⟩ := locate_buffer hl
          exact .store hidle _ _ _ (by rw [writeBytesOf_length]; exact hcap)

/-- A read whose bits are all exact returns the state's value and changes nothing (20_memory.md R64, R72). -/
theorem transact_read_exact {s : State} {addr : Offset} {size : Size} {l : Loc} (hl : s.locateTx addr size = .at l)
    (hany : s.anyBitsNow size l = 0) :
    s.transact (.read addr size) = (s, { resp := .okay, rdata := some (s.readLoc size l) }) := by
  have hdata : s.readData size l = s.readLoc size l := by
    simp only [State.readData, hany]
    rw [show ~~~(0 : Word) = BitVec.allOnes 32 by decide, BitVec.and_allOnes, show (0 : Word) = 0#32 from rfl,
      BitVec.and_zero, BitVec.or_zero]
  simp only [State.transact, State.memRead, hl, hany, hdata]
  rfl

/-- While BUSY = 0 every bit of a read is exact (20_memory.md R64). -/
theorem transact_read_idle {s : State} {addr : Offset} {size : Size} {l : Loc} (hidle : s.seq = .idle)
    (hl : s.locateTx addr size = .at l) :
    s.transact (.read addr size) = (s, { resp := .okay, rdata := some (s.readLoc size l) }) :=
  transact_read_exact hl (by rw [State.anyBitsNow, (isBusy_false_iff s).mpr hidle]; rfl)

/-- A transaction that goes nowhere gets an ERROR response and changes nothing (20_memory.md R69, R70). -/
theorem transact_error {s : State} {addr : Offset} {size : Size} {e : BusError}
    (hl : s.locateTx addr size = .error e) :
    s.transact (.read addr size) = (s, { resp := .error, rdata := some 0 }) ∧
      ∀ v, s.transact (.write addr size v) = (s, { resp := .error, rdata := none }) := by
  simp only [State.transact, State.memRead, State.memWrite, hl, implies_true, and_self]

/-- A write that goes somewhere gets an OKAY response (20_memory.md R65). -/
theorem transact_write {s : State} {addr : Offset} {size : Size} {l : Loc} (hl : s.locateTx addr size = .at l)
    (v : Word) : s.transact (.write addr size v) = (s.writeLoc size v l, { resp := .okay, rdata := none }) := by
  simp only [State.transact, State.memWrite, hl]

/-- A legal write while BUSY = 0 (20_memory.md R65). -/
theorem writeLoc_idle {s : State} (hidle : s.seq = .idle) (size : Size) (v : Word) {l : Loc}
    (h1 : l ≠ .reg .status) (h2 : l ≠ .reg .irqEn) : s.writeLoc size v l = s.writeIdle size v l := by
  have hb := (isBusy_false_iff s).mpr hidle
  rw [State.writeLoc.eq_def]
  split
  · exact absurd rfl h1
  · exact absurd rfl h2
  · rw [hb]
    rfl

/-- A legal write while BUSY = 1, other than to STATUS and IRQ_EN, is dropped (70_reset_and_hazards.md R196). -/
theorem writeLoc_busy {s : State} (hbusy : s.seq = .busy) (size : Size) (v : Word) {l : Loc}
    (h1 : l ≠ .reg .status) (h2 : l ≠ .reg .irqEn) : s.writeLoc size v l = { s with ovr := true } := by
  have hb := (isBusy_iff s).mpr hbusy
  rw [State.writeLoc.eq_def]
  split
  · exact absurd rfl h1
  · exact absurd rfl h2
  · rw [if_pos hb]

/-- The outcome of a command is the completion of its stage, whichever command it is. -/
def stageOf : Instr → State → Result
  | .clear => clearStage
  | .count => countStage
  | .build => buildStage
  | .gencode => gencodeStage
  | .pack => packStage
  | .unpack => unpackStage
  | .encode => encodeStage

/-- Every command completes (70_reset_and_hazards.md R205). -/
theorem exec_eq (i : Instr) (s : State) : exec i s = .next (stageOf i s).completion := by
  cases i <;> rfl

/-- Everything a step can do: a completion, a transaction, a poll, a reset, or nothing (10_state.md R20). -/
inductive StepEffect (s : State) : State → Prop
  | idle (rest : List Turn) (hidle : s.seq = .idle) : StepEffect s { s with agenda := rest }
  | command (rest : List Turn) (i : Instr) (hbusy : s.seq = .busy) (hdec : decode s.curCmd = .command i) :
      StepEffect s (stageOf i { s with agenda := rest }).completion
  | illegal (rest : List Turn) (e : DecodeError) (hbusy : s.seq = .busy) (hdec : decode s.curCmd = .illegal e) :
      StepEffect s (illegalCompletion { s with agenda := rest })
  | bus (rest : List Turn) (tx : BusTx) : StepEffect s (State.busTurn { s with agenda := rest } tx)
  | wait (rest : List Turn) : StepEffect s (waitTurn { s with agenda := rest })
  | reset (rest : List Turn) : StepEffect s (resetTurn { s with agenda := rest })

/-- What the engine's turn does (10_state.md R20; 30_encoding.md R89, R90). -/
theorem engineTurn_cases (s : State) :
    (s.seq = .idle ∧ engineTurn s = .next s) ∨
    (s.seq = .busy ∧
      ((∃ i, decode s.curCmd = .command i ∧ engineTurn s = .next (stageOf i s).completion) ∨
        ∃ e, decode s.curCmd = .illegal e ∧ engineTurn s = .next (illegalCompletion s))) := by
  cases hb : s.seq with
  | idle =>
    refine .inl ⟨rfl, ?_⟩
    rw [engineTurn, (isBusy_false_iff s).mpr hb]
    rfl
  | busy =>
    refine .inr ⟨rfl, ?_⟩
    rw [engineTurn, if_pos ((isBusy_iff s).mpr hb), completionStep]
    cases hd : decode s.curCmd with
    | command i => exact .inl ⟨i, rfl, exec_eq i s⟩
    | illegal e => exact .inr ⟨e, rfl, rfl⟩

/-- With no turn left on the agenda the engine has its turn (70_reset_and_hazards.md R205; log 4). -/
theorem step_nil {s : State} (h : s.agenda = []) : step s = engineTurn s := by rw [step, h]

/-- The next turn is taken off the agenda. -/
theorem step_cons {s : State} {turn : Turn} {rest : List Turn} (h : s.agenda = turn :: rest) :
    step s = takeTurn turn { s with agenda := rest } := by rw [step, h]

/-- The engine's turn has one of the effects of a step. -/
theorem engineTurn_effect (s : State) (rest : List Turn) :
    ∃ t, engineTurn { s with agenda := rest } = .next t ∧ StepEffect s t := by
  rcases engineTurn_cases { s with agenda := rest } with ⟨hi, h⟩ | ⟨hb, ⟨i, hd, h⟩ | ⟨e, hd, h⟩⟩
  · exact ⟨_, h, .idle rest hi⟩
  · exact ⟨_, h, .command rest i hb hd⟩
  · exact ⟨_, h, .illegal rest e hb hd⟩

/-- A step always has a next state, reached by one of these effects. -/
theorem step_effect (s : State) : ∃ t, step s = .next t ∧ StepEffect s t := by
  rw [step]
  split
  · rename_i h
    have hs : s = { s with agenda := [] } := by rw [← h]
    have := engineTurn_effect s []
    rw [← hs] at this
    exact this
  · rename_i turn rest h
    cases turn with
    | engine => exact engineTurn_effect s rest
    | bus tx => exact ⟨_, rfl, .bus rest tx⟩
    | wait => exact ⟨_, rfl, .wait rest⟩
    | reset => exact ⟨_, rfl, .reset rest⟩

end Sys2Proof.Machine
end

