-- ==== Sys2Proof/Laws/Frames.lean ====
section
/-! SUPPORT. The frame of every stage and of every completion (30_encoding.md R91): what is as it was before. -/

namespace Sys2Proof.Machine

/-! ### Completions write nothing but the completion fields -/

theorem Result.completion_same {r : Result} {s : State} (i : Item) (h : i.Same s r.state) : i.Same s r.completion := by
  cases r <;> cases i <;> exact h

theorem Result.completion_keepsAllBut {r : Result} {s : State} {w : List Item} (h : KeepsAllBut w s r.state) :
    KeepsAllBut w s r.completion := by
  refine ⟨?_, fun i hi => Result.completion_same i (h.items i hi)⟩
  cases r <;>
    exact ⟨h.1.params, h.1.curCmd, h.1.ovr, h.1.doneIe, h.1.ovrIe, h.1.inLen, h.1.agenda, h.1.response, h.1.draws,
      h.1.epoch⟩

@[simp] theorem Result.completion_seq (r : Result) : r.completion.seq = .idle := by cases r <;> rfl
@[simp] theorem Result.completion_done (r : Result) : r.completion.done = true := by cases r <;> rfl
@[simp] theorem Result.completion_byteAt (r : Result) : r.completion.byteAt = r.state.byteAt := by cases r <;> rfl
@[simp] theorem Result.completion_toDo (r : Result) : r.completion.toDo = r.state.toDo := by cases r <;> rfl

@[simp] theorem Result.completion_bufferByte (r : Result) : r.completion.bufferByte = r.state.bufferByte := by
  cases r <;> rfl

/-! ### Frames compose -/

/-- What a stage of ENCODE leaves alone, beside what it does not list. -/
structure StageFrame (w : List Item) (s t : State) : Prop where
  items : KeepsAllBut w s t
  toDo : s.toDo = [] → t.toDo = []
  inBuf : ∀ j, j < s.params.inCap → t.bufferByte .inBuf j = s.bufferByte .inBuf j
  bytes : KeepsBytesOutside s t .payBuf s.params.payCap

theorem StageFrame.refl (w : List Item) (s : State) : StageFrame w s s := by
  refine ⟨⟨⟨rfl, rfl, rfl, rfl, rfl, rfl, rfl, rfl, rfl, rfl⟩, ?_⟩, id, fun _ _ => rfl, fun _ _ => rfl⟩
  intro i _
  cases i <;> first | rfl | (intro j _; rfl)

theorem KeepsAllBut.trans {w w' : List Item} {s t u : State} (h : KeepsAllBut w s t) (h' : KeepsAllBut w' t u) :
    KeepsAllBut (w ++ w') s u := by
  obtain ⟨⟨a1, a2, a3, a4, a5, a6, a7, a8, a9, a10⟩, hi⟩ := h
  obtain ⟨⟨b1, b2, b3, b4, b5, b6, b7, b8, b9, b10⟩, hi'⟩ := h'
  constructor
  · exact ⟨b1.trans a1, b2.trans a2, b3.trans a3, b4.trans a4, b5.trans a5, b6.trans a6, b7.trans a7, b8.trans a8,
      b9.trans a9, b10.trans a10⟩
  · intro i hm
    rw [List.mem_append, not_or] at hm
    have h1 := hi i hm.1
    have h2 := hi' i hm.2
    cases i <;> simp only [Item.Same] at * <;>
      first | exact h2.trans h1 | (intro j hj; rw [h2 j (a1 ▸ hj), h1 j hj])

theorem KeepsAllBut.mono {w w' : List Item} {s t : State} (h : KeepsAllBut w s t) (hw : ∀ i, i ∈ w → i ∈ w') :
    KeepsAllBut w' s t :=
  ⟨h.1, fun i hi => h.2 i fun h' => hi (hw i h')⟩

theorem StageFrame.trans {w w' : List Item} {s t u : State} (h : StageFrame w s t) (h' : StageFrame w' t u) :
    StageFrame (w ++ w') s u := by
  have hp := h.items.hostState.params
  refine ⟨h.items.trans h'.items, fun x => h'.toDo (h.toDo x), fun j hj => ?_, fun a ha => ?_⟩
  · rw [h'.inBuf j (hp ▸ hj), h.inBuf j hj]
  · rw [h'.bytes a (hp ▸ ha), h.bytes a ha]

theorem StageFrame.andThen {w w' : List Item} {s : State} {r : Result} {f : State → Result}
    (h : StageFrame w s r.state) (hf : ∀ t, StageFrame w s t → StageFrame w' t (f t).state) :
    StageFrame (w ++ w') s (r.andThen f).state := by
  cases r with
  | ok t => exact h.trans (hf t h)
  | err => exact h.trans (StageFrame.refl w' _)

/-! ### The frame of each stage -/

theorem clearStage_keeps (s : State) : KeepsAllBut (commandWrites .clear) s (clearStage s).state := by
  constructor
  · constructor <;> rfl
  · intro i hi
    cases i <;> first | rfl | (exact absurd hi (by decide)) | (intro j _; rfl)

theorem countStage_stageFrame (s : State) : StageFrame countWrites s (countStage s).state := by
  have h := countStage_frame s
  refine ⟨?_, fun hx => by rw [h]; exact hx, fun j _ => by rw [h]; rfl, fun a _ => by rw [h]; rfl⟩
  rw [h]
  constructor
  · constructor <;> rfl
  · intro i hi
    cases i <;> first | rfl | (exact absurd hi (by decide)) | (intro j _; rfl)

theorem buildStage_stageFrame (s : State) : StageFrame buildWrites s (buildStage s).state := by
  have h := buildStage_frame s
  refine ⟨?_, ?_, fun j _ => by rw [h]; rfl, fun a _ => by rw [h]; rfl⟩
  · rw [h]
    constructor
    · constructor <;> rfl
    · intro i hi
      cases i <;> first | rfl | (exact absurd hi (by decide)) | (intro j _; rfl)
  · intro hx
    by_cases hp : s.presentSymbols = []
    · rw [buildStage_empty hp]
      exact hx
    · obtain ⟨t, ht, he, -⟩ := buildStage_tree s hp
      rw [ht, Result.state_ok, he]

theorem gencodeStage_stageFrame (s : State) : StageFrame gencodeWrites s (gencodeStage s).state := by
  have h := gencodeStage_frame s
  refine ⟨?_, fun hx => by rw [h]; exact hx, fun j _ => by rw [h]; rfl, fun a _ => by rw [h]; rfl⟩
  rw [h]
  constructor
  · constructor <;> rfl
  · intro i hi
    cases i <;> first | rfl | (exact absurd hi (by decide)) | (intro j _; rfl)

/-- PACK leaves toDo alone. -/
theorem packStage_toDo (s : State) : (packStage s).state.toDo = s.toDo := by
  rcases packStage_cases s with ⟨e, info, h⟩ | ⟨-, -, -, -, -, h⟩ <;> rw [h] <;> rfl

theorem packStage_stageFrame {s : State} (hp : s.params.wellFormed = true) :
    StageFrame packWrites s (packStage s).state := by
  have ho := capacity_le hp .outBuf
  have hq := capacity_le hp .payBuf
  have hin := capacity_le hp .inBuf
  simp only [capacity] at ho hq hin
  rcases packStage_cases s with ⟨e, info, h⟩ | ⟨-, -, -, -, htot, h⟩
  · rw [h]
    refine ⟨⟨by constructor <;> rfl, ?_⟩, id, fun _ _ => rfl, fun a _ => rfl⟩
    intro i hi
    cases i <;> first | rfl | (exact absurd hi (by decide)) | (intro j _; rfl)
  · rw [h]
    simp only [Result.state_ok]
    have hlen : (payloadBytes (s.packBits (s.bufferBytes .inBuf s.inLen.toNat))).length ≤ s.params.payCap := by
      rw [payloadBytes_length, packBits_length, ceilDiv8]
      omega
    refine ⟨⟨by constructor <;> rfl, ?_⟩, id, ?_, ?_⟩
    · intro i hi
      cases i with
      | outBuf =>
        intro j hj
        exact bufferByte_storeBytes_other s (by decide) _ (by omega) (by omega)
      | _ => first | rfl | (exact absurd hi (by decide))
    · intro j hj
      exact bufferByte_storeBytes_other s (by decide) _ (by omega) (by omega)
    · intro a ha
      show (s.storeBytes _ _ _).byteAt a = _
      rw [byteAt_storeBytes, if_neg (by omega)]

/-- The frame of UNPACK: what it stores lies in the first OUT_CAP bytes of OUT_BUF (44_bit_unpacker.md R143). -/
theorem unpackStage_keeps {s : State} (hp : s.params.wellFormed = true) :
    KeepsAllBut [.outBuf, .outLen] s (unpackStage s).state ∧ (unpackStage s).state.toDo = s.toDo ∧
      (∀ j, j < s.params.inCap → (unpackStage s).state.bufferByte .inBuf j = s.bufferByte .inBuf j) ∧
      KeepsBytesOutside s (unpackStage s).state .outBuf s.params.outCap := by
  have ho := capacity_le hp .outBuf
  have hq := capacity_le hp .payBuf
  have hin := capacity_le hp .inBuf
  simp only [capacity] at ho hq hin
  have key : (∃ v, (unpackStage s).state = { s with outLen := v }) ∨
      ∃ bs v, bs.length ≤ s.params.outCap ∧
        (unpackStage s).state = { s.storeBytes .outBuf 0 bs with outLen := v } := by
    rcases unpackStage_cases s with ⟨-, h⟩ | ⟨-, -, h⟩ | ⟨-, -, -, h⟩ | ⟨-, -, -, r, t, hr, ht, h⟩
    iterate 3 exact .inl ⟨_, by rw [h]; rfl⟩
    · refine .inr ⟨r.out, BitVec.ofNat 32 r.out.length, ?_, ?_⟩
      · rw [hr]
        exact unpackFrom_out_le s _ _ _ _ (by simp)
      · rcases h with ⟨-, h⟩ | ⟨e, i, -, h⟩ <;> rw [h, ht] <;> rfl
  rcases key with ⟨v, h⟩ | ⟨bs, v, hlen, h⟩
  · rw [h]
    refine ⟨⟨by constructor <;> rfl, ?_⟩, rfl, fun _ _ => rfl, fun a _ => rfl⟩
    intro i hi
    cases i <;> first | rfl | (exact absurd hi (by decide)) | (intro j _; rfl)
  · rw [h]
    refine ⟨⟨by constructor <;> rfl, ?_⟩, rfl, ?_, ?_⟩
    · intro i hi
      cases i with
      | payBuf =>
        intro j hj
        exact bufferByte_storeBytes_other s (by decide) _ (by omega) (by omega)
      | _ => first | rfl | (exact absurd hi (by decide))
    · intro j hj
      exact bufferByte_storeBytes_other s (by decide) _ (by omega) (by omega)
    · intro a ha
      show (s.storeBytes _ _ _).byteAt a = _
      rw [byteAt_storeBytes, if_neg (by omega)]

theorem encodeStage_stageFrame {s : State} (hp : s.params.wellFormed = true) :
    StageFrame (commandWrites .encode) s (encodeStage s).state := by
  refine ((((countStage_stageFrame s).andThen fun t _ => buildStage_stageFrame t).andThen fun t _ =>
    gencodeStage_stageFrame t).andThen fun t ht => packStage_stageFrame ?_)
  rw [ht.items.hostState.params]
  exact hp

end Sys2Proof.Machine
end

