-- ==== Sys2Proof/Laws/PerInstr.lean ====
section
/-! SUPPORT. Laws about every command as syntax, one lemma per constructor. -/

namespace Sys2Proof.Laws.CommandWord

/-- A command is well formed, and its word is its opcode with RSVD zero (30_encoding.md R86, R87). -/
def Statement (i : Instr) : Prop :=
  i.wellFormed = true ∧ reservedField (encode i) = 0 ∧ opcodeField (encode i) = opcodeOf i

theorem clear : Statement .clear := by unfold Statement; decide
theorem count : Statement .count := by unfold Statement; decide
theorem build : Statement .build := by unfold Statement; decide
theorem gencode : Statement .gencode := by unfold Statement; decide
theorem pack : Statement .pack := by unfold Statement; decide
theorem unpack : Statement .unpack := by unfold Statement; decide
theorem encode : Statement .encode := by unfold Statement; decide

end Sys2Proof.Laws.CommandWord
end

