-- ==== Sys2Proof/Tests/Slice0.lean ====
section
/-! SUPPORT. The model's own tests, with values of 95_test_vectors.md, and for every statement with hypotheses a
witness that meets them. -/

namespace Sys2Proof.Tests

open Sys2Proof.Machine

-- One theorem at a time: checked side by side, these kernel evaluations take a thread each.
set_option Elab.async false

/-! ### What is not well formed -/

theorem test_base_unaligned_refused : Params.legalBase 1 = false ∧ Params.legalBase 0x4000000 = true := by decide
theorem test_capacity_bounds : Params.legalCap 0 = false ∧ Params.legalCap 1 = true ∧
    Params.legalCap 16777216 = true ∧ Params.legalCap 16777217 = false := by decide
theorem test_ill_formed_base :
    Params.wellFormed { base := 4096, inCap := 64, payCap := 64, outCap := 64 } = false := by decide
theorem test_ill_formed_in_cap :
    Params.wellFormed { base := 0, inCap := 0, payCap := 64, outCap := 64 } = false := by decide
theorem test_ill_formed_pay_cap :
    Params.wellFormed { base := 0, inCap := 64, payCap := 16777217, outCap := 64 } = false := by decide
theorem test_ill_formed_out_cap :
    Params.wellFormed { base := 0, inCap := 64, payCap := 64, outCap := 0 } = false := by decide
theorem test_ill_formed_container :
    containerWellFormed [0x17, 0, 0] = false ∧ containerWellFormed [0x17, 0, 0, 0] = true := by decide
theorem test_every_command_well_formed : ([.clear, .count, .build, .gencode, .pack, .unpack, .encode] :
    List Instr).all Instr.wellFormed = true := by decide

/-! ### Words written out from the encoding (30_encoding.md R86, R87, R90) -/

theorem test_decode_clear : decode 0b00000000000000000000000000000001#32 = .command .clear := by decide
theorem test_decode_count : decode 0b00000000000000000000000000000010#32 = .command .count := by decide
theorem test_decode_build : decode 0b00000000000000000000000000000011#32 = .command .build := by decide
theorem test_decode_gencode : decode 0b00000000000000000000000000000100#32 = .command .gencode := by decide
theorem test_decode_pack : decode 0b00000000000000000000000000000101#32 = .command .pack := by decide
theorem test_decode_unpack : decode 0b00000000000000000000000000000110#32 = .command .unpack := by decide
theorem test_decode_encode : decode 0b00000000000000000000000000000111#32 = .command .encode := by decide
theorem test_decode_reserved : decode 0#32 = .illegal .reservedOpcode ∧ decode 0x8#32 = .illegal .reservedOpcode ∧
    decode 0xF#32 = .illegal .reservedOpcode ∧ decode 0x12#32 = .illegal .reservedBits ∧
    decode 0x80000001#32 = .illegal .reservedBits := by decide
theorem test_decode_bytes : decodeBytes [0x05, 0x00, 0x00, 0x00, 0xAA] = (.command .pack, [0xAA]) ∧
    decodeBytes [0x05, 0x00, 0x00] = (.illegal .truncated, [0x05, 0x00, 0x00]) := by decide
theorem test_table_words : (List.range 9).map (decodeTableWord 32) =
    [none, some .clear, some .count, some .build, some .gencode, some .pack, some .unpack, some .encode, none] := by
  decide

/-! ### Small states -/

/-- Small capacities. -/
def caps (i p o : Nat) : Params := { base := 0, inCap := i, payCap := p, outCap := o }

/-- The state after reset with an input of these bytes. -/
def holding (p : Params) (bytes : List Byte) : State :=
  { (State.resetWith p).storeBytes .inBuf 0 bytes with inLen := BitVec.ofNat 32 bytes.length }

/-- The state a command leaves. -/
def after (i : Instr) (s : State) : State :=
  match exec i s with
  | .next t => t
  | .fault _ => s
  | .refused _ => s

/-- The state a step leaves. -/
def afterStep (s : State) : State :=
  match step s with
  | .next t => t
  | .fault _ => s
  | .refused _ => s

/-- A payload as the host submits it (45_entry_points.md R162). -/
def submitted (s : State) (numBits payLen : Word) (bytes : List Byte) : State :=
  { s.storeBytes .payBuf 0 bytes with numBits := numBits, payLen := payLen }

/-- The state in which the command has just been accepted and the engine is next. -/
def running (i : Instr) (s : State) : State := acceptCommand (encode i) s

/-- The entry of a key in a list of pairs. -/
def entry {α : Type} (d : α) : List (Nat × α) → Nat → α
  | [], _ => d
  | (k, v) :: rest, i => if i = k then v else entry d rest i

/-- A state with these counts. -/
def counted (s : State) (counts : List (Nat × Word)) : State := { s with freq := tabulate 256 (entry 0 counts) }

/-- A state with this tree. -/
def treed (s : State) (nodes : List Node) (k : Nat) : State :=
  { s with
    node := arenaOf nodes
    numSyms := BitVec.ofNat 9 k
    numNodes := BitVec.ofNat 9 nodes.length
    root := BitVec.ofNat 9 (nodes.length - 1)
    treeValid := true
    single := decide (k = 1) }

/-- A state with these codes. -/
def coded (s : State) (codes : List (Nat × List Bool)) : State :=
  { s with
    codeLen := tabulate 256 fun i => BitVec.ofNat 8 (entry [] codes i).length
    codeBits := tabulate 256 fun i => codeWord (entry [] codes i)
    codesValid := true }

/-! "aab" (95_test_vectors.md V-BUILD 1, V-GENCODE 1). -/

def aab : State := counted (holding (caps 64 64 64) [0x61, 0x61, 0x62]) [(0x61, 2), (0x62, 1)]

def aabTree : State := treed aab [.leaf 0x61 2, .leaf 0x62 1, .internal 0 1 3] 2

def aabCoded : State := (gencodeStage aabTree).state

/-! "zzzz" (V-BUILD 2, V-GENCODE 2). -/

def zzzz : State := counted (holding (caps 64 64 64) [0x7A, 0x7A, 0x7A, 0x7A]) [(0x7A, 4)]

def zzzzTree : State := treed zzzz [.leaf 0x7A 4] 1

def zzzzCoded : State := (gencodeStage zzzzTree).state

/-! "abracadabra" (V-BUILD 6, V-GENCODE 5). -/

def abra : State :=
  counted (holding (caps 64 64 64) [0x61, 0x62, 0x72, 0x61, 0x63, 0x61, 0x64, 0x61, 0x62, 0x72, 0x61])
    [(0x61, 5), (0x62, 2), (0x63, 1), (0x64, 1), (0x72, 2)]

def abraTree : State :=
  treed abra [.leaf 0x61 5, .leaf 0x62 2, .leaf 0x63 1, .leaf 0x64 1, .leaf 0x72 2, .internal 3 2 2, .internal 4 1 4,
    .internal 6 5 6, .internal 7 0 11] 5

def abraCoded : State :=
  coded abraTree [(0x61, [true]), (0x62, [false, false, true]), (0x63, [false, true, true]),
    (0x64, [false, true, false]), (0x72, [false, false, false])]

/-! ### One step of each command (95_test_vectors.md, Parts 1 and 2) -/

/-- V-CLEAR 1. -/
theorem test_clear : let t := afterStep (running .clear (submitted aabCoded 3 1 [0x20]))
    t.statusWord = 0x00000002 ∧ t.freqAt 0x61 = 0 ∧ t.nodeAt 2 = .empty ∧ t.codeLenAt 0x61 = 0 ∧ t.root = 0 ∧
      t.numBits = 3 ∧ t.payLen = 1 ∧ t.bufferByte .payBuf 0 = 0x20 ∧ t.inLen = 3 := by decide +kernel

/-- V-COUNT 2. -/
theorem test_count :
    let t := afterStep (running .count { aab.storeBytes .inBuf 0 [0x7A, 0x7A] with inLen := 2 })
    t.statusWord = 0x00000002 ∧ t.freqAt 0x7A = 2 ∧ t.freqAt 0x61 = 0 ∧ t.freqAt 0x62 = 0 := by decide +kernel

/-- V-COUNT 5. -/
theorem test_count_capacity : let t := afterStep (running .count { aabCoded with inLen := 65 })
    t.statusWord = 0x0000261A ∧ t.errInfo = 65 ∧ t.freqAt 0x61 = 2 := by decide +kernel

theorem counted_freqAt (s : State) (counts : List (Nat × Word)) (x : Symbol) :
    (counted s counts).freqAt x = entry 0 counts x.toNat := by
  simp [counted, State.freqAt]

theorem counted_present (s : State) (counts : List (Nat × Word)) :
    (counted s counts).presentSymbols = allSymbols.filter fun x => entry 0 counts x.toNat != 0 := by
  simp only [State.presentSymbols, counted_freqAt]

/-- BUILD whose symbols and finished tree are known. -/
theorem buildStage_of {s : State} {syms : List Symbol} {nodes : List Node} {r : NodeIx} (h1 : s.presentSymbols = syms)
    (h2 : syms ≠ []) (h3 : buildTree s.freqAt syms = { nodes := nodes, toDo := [r] }) :
    buildStage s = .ok { s.invalidate with
      node := arenaOf nodes
      root := r
      toDo := []
      numSyms := BitVec.ofNat 9 syms.length
      numNodes := BitVec.ofNat 9 nodes.length
      treeValid := true
      single := decide (syms.length = 1) } := by
  have h4 : ¬syms.length = 0 := fun h => h2 (List.length_eq_zero_iff.mp h)
  simp only [buildStage, h1, h3, if_neg h4]
  rfl

theorem abra_symbols : abra.presentSymbols = [0x61, 0x62, 0x63, 0x64, 0x72] := by
  rw [abra, counted_present]
  decide +kernel

/-- V-BUILD 6. -/
theorem test_build : buildStage abra = .ok abraTree :=
  buildStage_of (r := 8) (nodes := [.leaf 0x61 5, .leaf 0x62 2, .leaf 0x63 1, .leaf 0x64 1, .leaf 0x72 2,
    .internal 3 2 2, .internal 4 1 4, .internal 6 5 6, .internal 7 0 11]) abra_symbols (by simp) (by decide +kernel)

/-- V-BUILD 3. -/
theorem test_build_empty : (after .build (counted (State.resetWith (caps 64 64 64)) [])).statusWord = 0x00003102 := by
  rw [after, exec_eq, stageOf, buildStage_empty (by rw [counted_present]; decide +kernel)]
  decide +kernel

/-- V-GENCODE 5. -/
theorem test_gencode : let t := afterStep (running .gencode abraTree)
    t.statusWord = 0x0000001A ∧ t.codeOf 0x61 = [true] ∧ t.codeOf 0x62 = [false, false, true] ∧
      t.codeOf 0x63 = [false, true, true] ∧ t.codeOf 0x64 = [false, true, false] ∧
      t.codeOf 0x72 = [false, false, false] ∧ t.codeOf 0x65 = [] := by decide +kernel

/-- V-GENCODE 9. -/
theorem test_gencode_sequence : (afterStep (running .gencode aab)).statusWord = 0x00004502 := by decide +kernel

/-- V-PACK 4. -/
theorem test_pack : let t := afterStep (running .pack abraCoded)
    t.statusWord = 0x0000001A ∧ t.numBits = 23 ∧ t.payLen = 3 ∧
      t.bufferBytes .payBuf 3 = [0x91, 0x75, 0x22] := by decide +kernel

/-- V-PACK 8. -/
theorem test_pack_no_code :
    let t := afterStep (running .pack ((submitted aabCoded 3 1 [0x20]).storeBytes .inBuf 1 [0x63]))
    t.statusWord = 0x0000571A ∧ t.errInfo = 1 ∧ t.numBits = 0 ∧ t.bufferByte .payBuf 0 = 0x20 := by decide +kernel

/-- V-UNPACK 11. -/
theorem test_unpack : let t := afterStep (running .unpack (submitted abraCoded 23 2 [0x91, 0x75]))
    t.statusWord = 0x0000631A ∧ t.errInfo = 16 ∧ t.outLen = 8 ∧
      t.bufferBytes .outBuf 8 = [0x61, 0x62, 0x72, 0x61, 0x63, 0x61, 0x64, 0x61] := by decide +kernel

/-- V-UNPACK 7. -/
theorem test_unpack_leaf_root : let t := afterStep (running .unpack (submitted zzzzCoded 8 1 [0x10]))
    t.statusWord = 0x0000633A ∧ t.errInfo = 3 ∧ t.bufferBytes .outBuf 3 = [0x7A, 0x7A, 0x7A] := by decide +kernel

/-- W4, for the input "z". -/
theorem test_encode : let t := afterStep (running .encode (holding (caps 64 64 64) [0x7A]))
    t.statusWord = 0x0000003A ∧ t.numBits = 1 ∧ t.payLen = 1 ∧ t.bufferByte .payBuf 0 = 0 := by decide +kernel

/-- W5. -/
theorem test_encode_empty : let t := afterStep (running .encode (State.resetWith (caps 64 64 64)))
    t.statusWord = 0x00002102 ∧ t.numBits = 0 := by decide +kernel

/-- P6. -/
theorem test_illegal : let t := afterStep (acceptCommand 0x12 aab)
    t.statusWord = 0x00002402 ∧ t.errInfo = 0x12 ∧ t.inLen = 3 := by decide +kernel

/-- CODE_BITS of "abracadabra" through the window's word 0 (V-GENCODE 5; 10_state.md R42). -/
theorem test_code_words : abraCoded.codeBitsWord 0x61 0 = 0x80000000 ∧ abraCoded.codeBitsWord 0x62 0 = 0x20000000 ∧
    abraCoded.codeBitsWord 0x63 0 = 0x60000000 ∧ abraCoded.codeBitsWord 0x72 0 = 0 := by decide +kernel

/-- The descriptor of an INTERNAL node (V-BUILD 6) and of a LEAF (V-BUILD 2). -/
theorem test_descriptors : (abraTree.nodeAt 7).descriptor = 0x80050006 ∧
    (zzzzTree.nodeAt 0).descriptor = 0xC000007A := by decide +kernel

/-- The container of "abracadabra" in both byte orders (45_entry_points.md R161). -/
theorem test_container : (submitted abra 23 3 [0x91, 0x75, 0x22]).container .little =
      [0x17, 0, 0, 0, 0x91, 0x75, 0x22] ∧
    (submitted abra 23 3 [0x91, 0x75, 0x22]).container .big = [0, 0, 0, 0x17, 0x91, 0x75, 0x22] := by
  decide +kernel

/-- Lines of P3 as transactions (30_encoding.md R95, R96). -/
theorem test_lines : Line.turns (.wr (.freq 0x62) 2) = [.bus (.write 0x588 .four 2)] ∧
    Line.turns (.rdh (.buffer .outBuf 8)) = [.bus (.read 0x03000008 .two)] ∧
    Line.turns (.run .build) = [.bus (.write 0x10 .four 3), .wait] ∧
    Line.turns (.load .inBuf 0 [0x61, 0x62]) =
      [.bus (.write 0x01000000 .one 0x61), .bus (.write 0x01000001 .one 0x62)] := by decide

/-- A write while BUSY = 1 is dropped (P5, outcome a). -/
theorem test_dropped_write : let r := (running .count aab).transact (.write 0x1C .four 1)
    r.1.ovr = true ∧ r.1.inLen = 3 ∧ r.2.resp = .okay := by decide +kernel

/-! ### States with a valid tree and valid codes -/

/-- A tree that BUILD makes has its shape. -/
theorem shape_of {s t : State} (h1 : s.presentSymbols ≠ []) (h2 : buildStage s = .ok t) : TreeShape t := by
  obtain ⟨u, hu, -, hshape, -⟩ := buildStage_tree s h1
  rw [h2] at hu
  injection hu with hu
  rwa [hu]

theorem aab_symbols : aab.presentSymbols = [0x61, 0x62] := by
  rw [aab, counted_present]
  decide +kernel

theorem zzzz_symbols : zzzz.presentSymbols = [0x7A] := by
  rw [zzzz, counted_present]
  decide +kernel

theorem aab_built : buildStage aab = .ok aabTree :=
  buildStage_of (r := 2) (nodes := [.leaf 0x61 2, .leaf 0x62 1, .internal 0 1 3]) aab_symbols (by simp)
    (by decide +kernel)

theorem zzzz_built : buildStage zzzz = .ok zzzzTree :=
  buildStage_of (r := 0) (nodes := [.leaf 0x7A 4]) zzzz_symbols (by simp) (by decide +kernel)

theorem aab_shape : TreeShape aabTree := shape_of (by rw [aab_symbols]; simp) aab_built

theorem zzzz_shape : TreeShape zzzzTree := shape_of (by rw [zzzz_symbols]; simp) zzzz_built

theorem aab_coded : aabCoded =
      { aabTree with codeLen := aabCoded.codeLen, codeBits := aabCoded.codeBits, codesValid := true } ∧
    CodesMatch aabCoded := by
  obtain ⟨t, ht, heq, hc⟩ := gencodeStage_codes (s := aabTree) rfl aab_shape
  have h : aabCoded = t := by rw [aabCoded, ht, Result.state_ok]
  rw [h]
  exact ⟨heq, hc⟩

/-- The invariant holds of a state that CODES_VALID = 1 is true of. -/
theorem aab_inv : aabCoded.Inv := by
  have hcodes := aab_coded.2
  rw [aab_coded.1] at hcodes ⊢
  refine ⟨by decide, by decide, ?_, rfl, fun _ => rfl, fun h => absurd h (by decide), fun h => absurd h (by decide),
    fun _ => ⟨rfl, rfl⟩, fun _ => aab_shape.congr rfl rfl rfl rfl rfl rfl, fun _ => hcodes⟩
  intro a v h
  have h' : (a, v) ∈ Memory.writeCells [] 0x01000000 [0x61, 0x61, 0x62] := h
  rcases mem_writeCells (by decide) h' with h' | h'
  · refine ⟨.inBuf, h'.1, ?_⟩
    have h2 : a < 0x01000000 + 3 := h'.2
    show a < 0x01000000 + 64
    omega
  · exact absurd h' (by simp)

/-- The state after reset with small capacities. -/
def fresh : State := State.resetWith (caps 64 64 64)

theorem running_inv (v : Word) : (acceptCommand v fresh).Inv :=
  ⟨rfl, rfl, fun _ _ h => absurd h (by simp [fresh, State.resetWith]), rfl, fun h => absurd h Bool.false_ne_true,
    fun h => absurd h Bool.false_ne_true, fun _ => ⟨rfl, rfl, rfl, rfl⟩, fun _ => ⟨rfl, rfl⟩,
    fun h => absurd h Bool.false_ne_true, fun h => absurd h Bool.false_ne_true⟩

theorem exec_after (i : Instr) (s : State) : exec i s = .next (after i s) := by rw [after, exec_eq]

theorem encode_ok {s : State} (h1 : 1 ≤ s.inLen.toNat) (h2 : s.inLen.toNat ≤ s.params.inCap)
    (h3 : 255 * s.inLen.toNat ≤ 8 * s.params.payCap) : (after .encode s).errCode = .none := by
  obtain ⟨t, ht⟩ := encodeStage_ok h1 h2 h3
  rw [after, exec_eq, stageOf, ht]
  rfl

theorem step_afterStep (s : State) : step s = .next (afterStep s) := by
  obtain ⟨t, ht, -⟩ := step_effect s
  rw [afterStep, ht]

/-! ### A witness for the hypotheses of every statement that has any, clause by clause -/

theorem witness_WordMeansCommandExactlyWhenEncoded : Instr.wellFormed .encode = true := by decide

theorem witness_StepRunsDecodedCommand : (running .count aab).seq = .busy ∧
    decode (running .count aab).curCmd = .command .count ∧ (running .count aab).agenda = [] ∧
    ({ running .count aab with agenda := [.engine, .wait] } : State).agenda = .engine :: [.wait] :=
  ⟨rfl, by decide, rfl, rfl⟩

theorem witness_FetchedWordRunsNext : decode 0x00000007 = .command .encode := by decide

theorem witness_IllegalWordOnlyCompletes :
    (∀ w : Word, (acceptCommand w aab).seq = .busy ∧ (acceptCommand w aab).agenda = [] ∧
      ({ acceptCommand w aab with agenda := [.engine] } : State).agenda = .engine :: []) ∧
    (acceptCommand 0x10 aab).curCmd.extractLsb' 4 28 ≠ 0 ∧ (acceptCommand 0 aab).curCmd.extractLsb' 0 4 = 0 ∧
    8 ≤ ((acceptCommand 8 aab).curCmd.extractLsb' 0 4).toNat ∧
    8 ≤ ((acceptCommand 15 aab).curCmd.extractLsb' 0 4).toNat :=
  ⟨fun _ => ⟨rfl, rfl, rfl⟩, by decide⟩

theorem witness_CmdWriteIsAcceptedWhileIdle : aab.seq = .idle ∧ (running .count aab).seq = .busy := ⟨rfl, rfl⟩

theorem witness_HostTurnsAndIdleTurns :
    ({ aab with agenda := [.bus (.read 0x14 .four)] } : State).agenda = .bus (.read 0x14 .four) :: [] ∧
    aab.seq = .idle ∧ aab.agenda = [] ∧ ({ aab with agenda := [.engine] } : State).agenda = .engine :: [] :=
  ⟨rfl, rfl, rfl, rfl⟩

theorem witness_WaitPollsUntilIdle :
    (let s : State := { aab with agenda := [.wait] }; s.agenda = .wait :: [] ∧ s.seq = .idle) ∧
    (let s : State := { running .count aab with agenda := [.wait] }; s.agenda = .wait :: [] ∧ s.seq = .busy) :=
  ⟨⟨rfl, rfl⟩, rfl, rfl⟩

theorem witness_AcceptedCommandCompletes : (running .count aab).seq = .busy := rfl

theorem witness_EveryCommandCompletes : (after .count aab).errCode = .none ∧ (after .pack aab).errCode = .sequence ∧
    (after .encode fresh).errCode = .emptyInput := by decide +kernel

theorem witness_CommandsWriteOnlyTheirWriteSet : aab.params.wellFormed = true ∧
    (∀ i, exec i aab = .next (after i aab)) ∧ aab.toDo = [] :=
  ⟨by decide, fun i => exec_after i aab, rfl⟩

theorem witness_InterruptLevel : exec .pack aab = .next (after .pack aab) ∧
    ((running .pack aab).seq = .busy ∧ ¬((0x24 : Offset) = 0x14 ∧ Size.four = .four) ∧
      ¬((0x24 : Offset) = 0x18 ∧ Size.four = .four) ∧
      ((running .pack aab).transact (.read 0x24 .four)).2.resp = .okay) :=
  ⟨exec_after _ _, by decide +kernel⟩

theorem witness_CountCountsTheInput : (1 ≤ aab.inLen.toNat ∧ aab.inLen.toNat ≤ aab.params.inCap) ∧
    (let s : State := { aab with inLen := 64 }; 1 ≤ s.inLen.toNat ∧ s.inLen.toNat ≤ s.params.inCap) := by decide

theorem witness_CountRefusesInOrder : (let s : State := { aab with inLen := 65 }; s.params.inCap < s.inLen.toNat) ∧
    fresh.inLen.toNat = 0 := by decide

theorem witness_CountForgetsOldCounts : let s : State := { aab with inLen := 64 }
    s.inLen.toNat ≤ s.params.inCap := by decide

theorem witness_BuildMakesAFullTree : ∃ x, aab.freqAt x ≠ 0 := ⟨0x61, by decide +kernel⟩

theorem witness_BuildMergesTheTwoLeast :
    2 = ((List.range 256).filter fun x => decide (aab.freqAt (BitVec.ofNat 8 x) ≠ 0)).length ∧ 1 ≤ 2 ∧
    2 ≤ (2 : NodeIx).toNat ∧ (2 : NodeIx).toNat < 2 * 2 - 1 := by
  simp only [aab, counted_freqAt]
  decide +kernel

theorem witness_BuildOfNothingIsEmptyInput : ∀ x, fresh.freqAt x = 0 := by
  intro x
  simp [fresh, State.resetWith, State.freqAt]

theorem witness_BuildIsAFunctionOfFreq : aab ≠ { aab with inLen := 0 } ∧
    ∀ x, aab.freqAt x = ({ aab with inLen := 0 } : State).freqAt x :=
  ⟨fun h => absurd (congrArg State.inLen h) (by decide), fun _ => rfl⟩

theorem witness_GencodeGivesThePaths : aabTree.treeValid = true ∧ TreeShape aabTree := ⟨rfl, aab_shape⟩

/-- Valid codes beside an arena that breaks 10_state.md R43, so that GENCODE raises CORRUPT_TREE. -/
def rootless : State := { treed aab [.leaf 0x61 2, .leaf 0x62 1, .empty] 2 with codesValid := true }

/-- The last LEAF below NUM_SYMS, a symbol of none, a one-symbol tree, and CORRUPT_TREE. -/
theorem witness_GencodeCommitsAllOrNothing :
    (aabTree.treeValid = true ∧ aabTree.single = false ∧ (1#9).toNat < aabTree.numSyms.toNat ∧
      aabTree.nodeAt 1 = .leaf 0x62 1 ∧ (after .gencode aabTree).errCode = .none) ∧
    (∀ n : Nat, n < 2 → ∀ w, aabTree.nodeAt (BitVec.ofNat 9 n) ≠ .leaf 0x63 w) ∧
    (zzzzTree.treeValid = true ∧ zzzzTree.single = true ∧ (after .gencode zzzzTree).errCode = .none) ∧
    (rootless.treeValid = true ∧ (after .gencode rootless).errCode = .corruptTree) := by
  refine ⟨by decide +kernel, fun n hn w => ?_, by decide +kernel, by decide +kernel⟩
  have h : aabTree.nodeAt (BitVec.ofNat 9 n) = .leaf 0x61 2 ∨ aabTree.nodeAt (BitVec.ofNat 9 n) = .leaf 0x62 1 := by
    revert n
    decide +kernel
  rcases h with h | h <;> rw [h] <;> simp

theorem witness_SequenceErrors : aab.treeValid = false ∧ aab.codesValid = false := ⟨rfl, rfl⟩

theorem witness_CorruptTreeIsUnreachable : aabCoded.Inv ∧ exec .gencode aabCoded = .next (after .gencode aabCoded) :=
  ⟨aab_inv, exec_after _ _⟩

theorem witness_ValidCodesArePrefixFree : aabCoded.Inv ∧ aabCoded.codesValid = true :=
  ⟨aab_inv, by rw [aab_coded.1]⟩

theorem witness_PackEmitsTheCodes : aabCoded.params.wellFormed = true ∧ aabCoded.codesValid = true ∧
    1 ≤ aabCoded.inLen.toNat ∧ aabCoded.inLen.toNat ≤ aabCoded.params.inCap ∧
    (∀ j, j < aabCoded.inLen.toNat → aabCoded.codeLenAt (aabCoded.bufferByte .inBuf j) ≠ 0) ∧
    3 = ((List.range aabCoded.inLen.toNat).map fun j =>
      (aabCoded.codeLenAt (aabCoded.bufferByte .inBuf j)).toNat).sum ∧
    3 ≤ 8 * aabCoded.params.payCap := by decide +kernel

theorem witness_PackRefusesInOrder :
    (let s : State := { aabCoded with inLen := 65 }; s.codesValid = true ∧ s.params.inCap < s.inLen.toNat) ∧
    (let s : State := { aabCoded with inLen := 0 }; s.codesValid = true ∧ s.inLen.toNat = 0) ∧
    (let s := aabCoded.storeBytes .inBuf 2 [0x63];
      s.codesValid = true ∧ s.inLen.toNat ≤ s.params.inCap ∧ 2 < s.inLen.toNat ∧
        s.codeLenAt (s.bufferByte .inBuf 2) = 0 ∧ ∀ i, i < 2 → s.codeLenAt (s.bufferByte .inBuf i) ≠ 0) ∧
    (let s : State := { zzzzCoded.storeBytes .inBuf 0 (List.replicate 9 0x7A) with
        inLen := 9, params := caps 64 1 64 };
      s.codesValid = true ∧ 1 ≤ s.inLen.toNat ∧ s.inLen.toNat ≤ s.params.inCap ∧
        (∀ j, j < s.inLen.toNat → s.codeLenAt (s.bufferByte .inBuf j) ≠ 0) ∧
        8 * s.params.payCap <
          ((List.range s.inLen.toNat).map fun j => (s.codeLenAt (s.bufferByte .inBuf j)).toNat).sum) := by
  decide +kernel

/-- A payload of "aab", with as many bits as its one byte has. -/
def aabPayload : State := submitted aabTree 8 1 [0x20]

theorem aab_payload_shape (n l : Word) (bytes : List Byte) : TreeShape (submitted aabTree n l bytes) :=
  aab_shape.congr rfl rfl rfl rfl rfl rfl

theorem witness_UnpackDecodesThePayload : aabPayload.params.wellFormed = true ∧ aabPayload.treeValid = true ∧
    TreeShape aabPayload ∧ aabPayload.single = false ∧ aabPayload.payLen.toNat ≤ aabPayload.params.payCap ∧
    aabPayload.numBits.toNat < 2 ^ 31 ∧ aabPayload.numBits.toNat ≤ 8 * aabPayload.payLen.toNat ∧
    ∀ out, Decodes aabPayload (payloadBits aabPayload 0 aabPayload.numBits.toNat) out →
      out.length ≤ aabPayload.params.outCap := by
  refine ⟨by decide, rfl, aab_payload_shape _ _ _, by decide, by decide, by decide, by decide, fun out h => ?_⟩
  have h1 := h.length_le (aab_payload_shape _ _ _) (by decide)
  rw [payloadBits_length] at h1
  exact Nat.le_trans h1 (by decide)

theorem witness_UnpackAtALeafRoot :
    (let s := submitted zzzzTree 8 1 [0x00];
      s.params.wellFormed = true ∧ s.treeValid = true ∧ s.nodeAt s.root = .leaf 0x7A 4 ∧
        s.payLen.toNat ≤ s.params.payCap ∧ s.numBits.toNat < 2 ^ 31 ∧ s.numBits.toNat ≤ 8 * s.payLen.toNat ∧
        s.numBits.toNat ≤ s.params.outCap ∧ ∀ i, i < s.numBits.toNat → s.payBit i = false) ∧
    (let s : State := { submitted zzzzTree 8 1 [0x10] with params := caps 64 64 3 };
      s.params.wellFormed = true ∧ s.treeValid = true ∧ s.nodeAt s.root = .leaf 0x7A 4 ∧
        s.payLen.toNat ≤ s.params.payCap ∧ s.numBits.toNat < 2 ^ 31 ∧ 3 < s.numBits.toNat ∧
        3 < 8 * s.payLen.toNat ∧ 3 ≤ s.params.outCap ∧ s.payBit 3 = true ∧ ∀ k, k < 3 → s.payBit k = false) ∧
    (let s : State := { submitted zzzzTree 4 1 [0x00] with params := caps 64 64 3 };
      s.params.wellFormed = true ∧ s.treeValid = true ∧ s.nodeAt s.root = .leaf 0x7A 4 ∧
        s.payLen.toNat ≤ s.params.payCap ∧ s.numBits.toNat < 2 ^ 31 ∧ s.params.outCap < s.numBits.toNat ∧
        s.params.outCap < 8 * s.payLen.toNat ∧ ∀ k, k ≤ s.params.outCap → s.payBit k = false) := by
  decide +kernel

theorem witness_UnpackRefusesBeforeTheFirstBit :
    (let s := submitted aabTree 8 65 []; s.treeValid = true ∧ s.params.payCap < s.payLen.toNat) ∧
    (let s := submitted aabTree 0x80000000 64 [];
      s.treeValid = true ∧ s.payLen.toNat ≤ s.params.payCap ∧ s.numBits.getLsbD 31 = true) := by decide +kernel

theorem witness_UnpackStopsAtTheFirstMissingBit :
    (let s := submitted aabTree 9 1 [0x20];
      s.params.wellFormed = true ∧ s.treeValid = true ∧ TreeShape s ∧ s.payLen.toNat ≤ s.params.payCap ∧
        s.numBits.toNat < 2 ^ 31 ∧ 8 * s.payLen.toNat < s.numBits.toNat ∧ s.single = false ∧
        ∀ out, Decodes s (payloadBits s 0 (8 * s.payLen.toNat)) out → out.length ≤ s.params.outCap) ∧
    (let s := submitted zzzzTree 9 1 [0x00];
      s.params.wellFormed = true ∧ s.treeValid = true ∧ TreeShape s ∧ s.payLen.toNat ≤ s.params.payCap ∧
        s.numBits.toNat < 2 ^ 31 ∧ 8 * s.payLen.toNat < s.numBits.toNat ∧ s.single = true ∧
        8 * s.payLen.toNat ≤ s.params.outCap ∧ ∀ i, i < 8 * s.payLen.toNat → s.payBit i = false) := by
  refine ⟨⟨by decide, rfl, aab_payload_shape _ _ _, by decide, by decide, by decide, by decide, fun out h => ?_⟩,
    by decide, rfl, zzzz_shape.congr rfl rfl rfl rfl rfl rfl, by decide, by decide, by decide, by decide, by decide,
    by decide +kernel⟩
  have h1 := h.length_le (aab_payload_shape _ _ _) (by decide)
  rw [payloadBits_length] at h1
  exact Nat.le_trans h1 (by decide)

theorem witness_UnpackStopsWhenTheOutputIsFull :
    let s : State := { submitted aabTree 3 1 [0x20] with params := caps 64 64 2 }
    s.params.wellFormed = true ∧ s.treeValid = true ∧ TreeShape s ∧ s.single = false ∧
      s.payLen.toNat ≤ s.params.payCap ∧ s.numBits.toNat < 2 ^ 31 ∧ 2 < s.numBits.toNat ∧ 2 < 8 * s.payLen.toNat ∧
      ([0x61, 0x61] : List Symbol).length = s.params.outCap ∧
      CodeSequence s (payloadBits s 0 (2 + 1)) ([0x61, 0x61] ++ [0x62]) := by
  intro s
  refine ⟨by decide, rfl, (aab_payload_shape 3 1 [0x20]).congr rfl rfl rfl rfl rfl rfl, by decide, by decide, by decide,
    by decide, by decide, rfl, ?_⟩
  have h : payloadBits s 0 (2 + 1) = [false] ++ ([false] ++ ([true] ++ [])) := by decide +kernel
  rw [h]
  have ha : LeadsTo s [false] 0x61 := ⟨0, 2, by decide +kernel, by decide +kernel⟩
  have hb : LeadsTo s [true] 0x62 := ⟨1, 1, by decide +kernel, by decide +kernel⟩
  exact .code ha (.code ha (.code hb .none))

theorem witness_UnpackIgnoresPadding :
    let s := submitted aabTree 3 1 [0x20]
    let other := (submitted aabTree 3 1 [0x3F]).mem
    s.params.wellFormed = true ∧ other ≠ s.mem ∧
      ∀ i, i < s.numBits.toNat → State.payBit { s with mem := other } i = s.payBit i := by decide +kernel

theorem witness_PackThenUnpackIsTheInput :
    let t := after .pack aabCoded
    aabCoded.Inv ∧ exec .pack aabCoded = .next t ∧ t.errCode = .none ∧
      aabCoded.inLen.toNat ≤ aabCoded.params.outCap ∧ t.params = t.params ∧
      ∀ j, j < t.payLen.toNat → t.bufferByte .payBuf j = t.bufferByte .payBuf j :=
  ⟨aab_inv, exec_after _ _, by decide +kernel, by decide +kernel, rfl, fun _ _ => rfl⟩

/-- The number of bits of the input's codes. -/
def inputBits (s t : State) : Nat :=
  ((List.range s.inLen.toNat).map fun j => (t.codeLenAt (s.bufferByte .inBuf j)).toNat).sum

/-- "z" in a payload of one byte, and an input of which 255 bits a byte fit exactly. -/
theorem witness_EncodeCompletes :
    (let s := holding (caps 64 1 64) [0x7A];
      s.params.wellFormed = true ∧ 1 ≤ s.inLen.toNat ∧ s.inLen.toNat ≤ s.params.inCap ∧
        inputBits s (after .encode s) ≤ 8 * s.params.payCap ∧ (after .encode s).errCode = .none) ∧
    (let s : State := { aab with inLen := 64, params := caps 64 2040 64 };
      s.params.wellFormed = true ∧ 1 ≤ s.inLen.toNat ∧ s.inLen.toNat ≤ s.params.inCap ∧
        255 * s.inLen.toNat ≤ 8 * s.params.payCap) := by decide +kernel

/-- One byte too many, no byte, eight bits in one byte of payload, and nine. -/
theorem witness_EncodeErrorsAreThoseOfCountAndPack :
    (let s : State := { aab with inLen := 65 };
      s.params.wellFormed = true ∧ s.params.inCap < s.inLen.toNat) ∧
    (let s : State := { aab with inLen := 0 };
      s.params.wellFormed = true ∧ s.inLen.toNat = 0) ∧
    (let s := holding (caps 8 1 64) (List.replicate 8 0x7A);
      s.params.wellFormed = true ∧ 1 ≤ s.inLen.toNat ∧ s.inLen.toNat ≤ s.params.inCap ∧
        inputBits s (after .encode s) ≤ 8 * s.params.payCap) ∧
    (let s := holding (caps 9 1 64) (List.replicate 9 0x7A);
      s.params.wellFormed = true ∧ 1 ≤ s.inLen.toNat ∧ s.inLen.toNat ≤ s.params.inCap ∧
        8 * s.params.payCap < inputBits s (after .encode s)) := by decide +kernel

theorem witness_EncodeThenUnpackIsTheInput : let s : State := { zzzz with params := caps 64 128 4 }
    s.params.wellFormed = true ∧ exec .encode s = .next (after .encode s) ∧ (after .encode s).errCode = .none ∧
      s.inLen.toNat ≤ s.params.outCap :=
  ⟨by decide, exec_after _ _, encode_ok (by decide) (by decide) (by decide), by decide⟩

theorem witness_ReadsHaveNoSideEffect : aab.seq = .idle := rfl

/-- The first and last offsets of each unmapped range, and accesses just beyond a capacity. -/
theorem witness_UnmappedAccessesGetError :
    ([0x40, 0x3FF].all fun a => 0x40 ≤ a ∧ a < 0x400) = true ∧
    ([0xC00, 0xFFF].all fun a => 0xC00 ≤ a ∧ a < 0x1000) = true ∧
    ([0x3000, 0x3FFF].all fun a => 0x3000 ≤ a ∧ a < 0x4000) = true ∧
    ([0x6000, 0xFFFFFF].all fun a => 0x6000 ≤ a ∧ a < 0x01000000) = true ∧
    (bufferBase .inBuf ≤ 0x0100003F ∧ 0x0100003F < bufferBase .inBuf + 0x01000000 ∧
      bufferBase .inBuf + capacity aab.params .inBuf < 0x0100003F + Size.two.bytes) ∧
    (bufferBase .outBuf ≤ 0x03000040 ∧ 0x03000040 < bufferBase .outBuf + 0x01000000 ∧
      bufferBase .outBuf + capacity aab.params .outBuf < 0x03000040 + Size.one.bytes) := by decide

theorem witness_IllegalWidthOrAlignmentGetsError : aab.params.wellFormed = true ∧
    ((0x3C#26).toNat < 0x40 ∧ Size.two ≠ .four) ∧ ((0x3E#26).toNat < 0x40 ∧ (0x3E#26).toNat % 4 ≠ 0) ∧
    (0x400 ≤ (0xBFF#26).toNat ∧ (0xBFF#26).toNat < 0xC00 ∧ (0xBFF#26).toNat % 4 ≠ 0) ∧
    (bufferBase .inBuf ≤ 0x01000001 ∧ 0x01000001 + Size.two.bytes ≤ bufferBase .inBuf + capacity aab.params .inBuf ∧
      (0x01000001 - bufferBase .inBuf) % Size.two.bytes ≠ 0) := by decide

theorem witness_RegistersRead : aab.seq = .idle ∧ 0 < 16 ∧ 15 < 16 := ⟨rfl, by decide, by decide⟩

theorem witness_StatusFields : aab.seq = .idle := rfl

theorem witness_OperandRegisterWrites : aab.seq = .idle := rfl

theorem witness_FreqWriteInvalidates : aabTree.seq = .idle := rfl

/-- The last read-only register, and the first and last words of the read-only windows. -/
theorem witness_ReadOnlyWritesAreIgnored : aab.seq = .idle ∧ (running .count aab).seq = .busy ∧
    (0x3C#26).toNat % 4 = 0 ∧ (0x3C#26).toNat = 0x3C ∧
    (0x800 ≤ (0xBFC#26).toNat ∧ (0xBFC#26).toNat < 0xC00 ∧ (0xBFC#26).toNat % 4 = 0) ∧
    (0x1000 ≤ (0x1000#26).toNat ∧ (0x2FFC#26).toNat < 0x3000 ∧ (0x2FFC#26).toNat % 4 = 0) ∧
    (0x4000 ≤ (0x4000#26).toNat ∧ (0x5FFC#26).toNat < 0x6000 ∧ (0x5FFC#26).toNat % 4 = 0) :=
  ⟨rfl, rfl, by decide, by decide, by decide, by decide, by decide⟩

theorem witness_BusyWritesAreDropped : (running .count aab).seq = .busy ∧
    (¬((0x1C : Offset) = 0x14 ∧ Size.four = .four) ∧ ¬((0x1C : Offset) = 0x18 ∧ Size.four = .four) ∧
      ((running .count aab).transact (.read 0x1C .four)).2.resp = .okay) ∧
    (¬((0x14 : Offset) = 0x14 ∧ Size.two = .four) ∧ ¬((0x14 : Offset) = 0x18 ∧ Size.two = .four) ∧
      ((running .count aab).transact (.read 0x14 .two)).2.resp = .error) := by decide +kernel

/-- Accesses of each size, the last ones of a buffer among them. -/
theorem witness_BufferReadsAndWrites : aab.params.wellFormed = true ∧ aab.seq = .idle ∧
    (60 % Size.four.bytes = 0 ∧ 60 + Size.four.bytes ≤ capacity aab.params .payBuf) ∧
    (63 % Size.one.bytes = 0 ∧ 63 + Size.one.bytes ≤ capacity aab.params .outBuf) ∧
    (2 % Size.two.bytes = 0 ∧ 2 + Size.two.bytes ≤ capacity aab.params .inBuf) := by decide

theorem witness_NodeWindowReads : aabTree.seq = .idle ∧ aabTree.nodeAt 3 = .empty ∧ (511#9).toNat = 511 ∧
    aabTree.nodeAt 0 = .leaf 0x61 2 ∧ aabTree.nodeAt 2 = .internal 0 1 3 := by decide +kernel

theorem witness_FreqAndCodeWindowReads : aab.seq = .idle ∧ 7 < 8 ∧ 31 < 32 := ⟨rfl, by decide, by decide⟩

/-- The first and last accesses of each range in a command's write set, and reads outside it: the last bytes of IN_BUF,
a register of the write set of another command, slot 511, and an ERROR. -/
theorem witness_BusyReads :
    (let okay (i : Instr) (addr : Offset) (size : Size) : Bool :=
        decide ((running i aabCoded).seq = .busy ∧ ¬(addr = 0x14 ∧ size = .four) ∧
          decode (running i aabCoded).curCmd = .command i ∧
          (State.transact { running i aabCoded with seq := .idle } (.read addr size)).2.resp = .okay);
      okay .count 0x400 .four ∧ okay .encode 0x7FC .four ∧ okay .gencode 0x800 .four ∧ okay .gencode 0xBFC .four ∧
        okay .clear 0x1000 .four ∧ okay .gencode 0x2FFC .four ∧ okay .build 0x4000 .four ∧ okay .build 0x5FEC .four ∧
        okay .build 0x30 .four ∧ okay .build 0x38 .four ∧ okay .pack 0x20 .four ∧ okay .pack 0x24 .four ∧
        okay .unpack 0x28 .four ∧ okay .pack 0x02000000 .two ∧ okay .pack 0x0200003F .one ∧
        okay .unpack 0x03000000 .one ∧ okay .unpack 0x0300003C .four ∧
        okay .pack 0x0100003F .one ∧ okay .pack 0x28 .four ∧ okay .build 0x5FF0 .four ∧ okay .build 0x1C .four) ∧
    (let s := running .pack aab;
      s.seq = .busy ∧ (State.transact { s with seq := .idle } (.read 0x02000040 .one)).2.resp = .error) := by
  decide +kernel

theorem witness_StatusReadsWhileBusy :
    (∀ v, (acceptCommand v fresh).Inv ∧ (acceptCommand v fresh).seq = .busy) ∧
    decode (acceptCommand 5 fresh).curCmd = .command .pack ∧
    decode (acceptCommand 6 fresh).curCmd = .command .unpack ∧
    (∃ e, decode (acceptCommand 8 fresh).curCmd = .illegal e) ∧
    decode (acceptCommand 4 fresh).curCmd = .command .gencode :=
  ⟨fun v => ⟨running_inv v, rfl⟩, by decide, by decide, ⟨.reservedOpcode, by decide⟩, by decide⟩

theorem witness_ResetValues : ({ running .count aab with agenda := [.reset, .wait] } : State).agenda =
    .reset :: [.wait] := rfl

theorem witness_ResetMeetsTheInvariant : (caps 1 16777216 64).wellFormed = true := by decide

theorem witness_EveryStepKeepsTheInvariant : aabCoded.Inv ∧ step aabCoded = .next (afterStep aabCoded) :=
  ⟨aab_inv, step_afterStep _⟩

/-- The host's next turn. -/
def hostNext (t : Turn) (s : State) : State := { s with agenda := [t] }

theorem witness_BusyAndDoneChangeOnlyAsStated :
    (∀ s, step s = .next (afterStep s)) ∧
    ((running .pack aab).done = false ∧ (afterStep (running .pack aab)).done = true ∧
      (running .pack aab).seq = .busy ∧ (afterStep (running .pack aab)).seq = .idle ∧
      (running .pack aab).agenda = []) ∧
    (let s := hostNext .engine (running .pack aab);
      s.seq = .busy ∧ s.agenda = .engine :: [] ∧ (afterStep s).seq = .idle) ∧
    (let s := hostNext (.bus (.write 0x10 .four 5)) (after .pack aab);
      s.done = true ∧ (afterStep s).done = false ∧ s.seq = .idle ∧ (afterStep s).seq = .busy) ∧
    (let s := hostNext (.bus (.write 0x14 .four 2)) (after .pack aab);
      s.done = true ∧ (afterStep s).done = false) ∧
    (let s := hostNext .reset (after .pack aab); s.done = true ∧ (afterStep s).done = false) ∧
    (let s := hostNext .reset (running .pack aab); s.seq = .busy ∧ (afterStep s).seq = .idle) :=
  ⟨step_afterStep, by decide +kernel⟩

theorem witness_OvrChangesOnlyAsStated :
    (∀ s, step s = .next (afterStep s)) ∧
    (let s := hostNext (.bus (.write 0x1C .four 1)) (running .pack aab);
      s.ovr = false ∧ (afterStep s).ovr = true) ∧
    (let s := hostNext (.bus (.write 0x14 .four 4)) { aab with ovr := true };
      s.ovr = true ∧ (afterStep s).ovr = false) ∧
    (let s := hostNext .reset { aab with ovr := true }; s.ovr = true ∧ (afterStep s).ovr = false) :=
  ⟨step_afterStep, by decide +kernel⟩

/-- The step that BUILDs "zzzz" (V-BUILD 2). -/
theorem zzzz_step : (afterStep (running .build zzzz)).treeValid = true ∧
    (afterStep (running .build zzzz)).single = true := by
  have hs : step (running .build zzzz) = .next (buildStage (running .build zzzz)).completion := rfl
  have hb := buildStage_of (s := running .build zzzz) (r := 0) (nodes := [.leaf 0x7A 4]) zzzz_symbols (by simp)
    (by decide +kernel)
  rw [afterStep, hs, hb]
  exact ⟨rfl, rfl⟩

theorem witness_ValidityFlagsChangeOnlyAsStated :
    (∀ s, step s = .next (afterStep s)) ∧
    ((running .build zzzz).treeValid = false ∧ (afterStep (running .build zzzz)).treeValid = true ∧
      (running .build zzzz).single = false ∧ (afterStep (running .build zzzz)).single = true) ∧
    (let s := running .gencode aabTree; s.codesValid = false ∧ (afterStep s).codesValid = true) ∧
    (let s := running .gencode rootless; s.codesValid = true ∧ (afterStep s).codesValid = false) ∧
    (let s := running .clear zzzzCoded;
      s.treeValid = true ∧ s.codesValid = true ∧ s.single = true ∧
        (afterStep s).treeValid = false ∧ (afterStep s).codesValid = false ∧ (afterStep s).single = false) ∧
    (let s := hostNext (.bus (.write 0x7FC .four 1)) zzzzCoded;
      s.treeValid = true ∧ s.codesValid = true ∧ s.single = true ∧
        (afterStep s).treeValid = false ∧ (afterStep s).codesValid = false ∧ (afterStep s).single = false) ∧
    (let s := hostNext .reset zzzzCoded;
      s.treeValid = true ∧ s.codesValid = true ∧ s.single = true ∧
        (afterStep s).treeValid = false ∧ (afterStep s).codesValid = false ∧ (afterStep s).single = false) :=
  ⟨step_afterStep, ⟨rfl, zzzz_step.1, rfl, zzzz_step.2⟩, by decide +kernel⟩

theorem witness_OnlyTheHostWritesInBuf :
    (let s := hostNext (.bus (.write 0x01000000 .one 0x7A)) aab;
      s.params.wellFormed = true ∧ step s = .next (afterStep s) ∧ 0 < s.params.inCap ∧
        (afterStep s).bufferByte .inBuf 0 ≠ s.bufferByte .inBuf 0) ∧
    ∃ v, let s := hostNext .reset (aab.storeBytes .inBuf 63 [v]);
      step s = .next (afterStep s) ∧ 63 < s.params.inCap ∧
        (afterStep s).bufferByte .inBuf 63 ≠ s.bufferByte .inBuf 63 := by
  refine ⟨⟨by decide, step_afterStep _, by decide, by decide +kernel⟩, Config.freeByte 1 0x0100003F + 1,
    step_afterStep _, by decide, ?_⟩
  have h1 : (hostNext .reset (aab.storeBytes .inBuf 63 [Config.freeByte 1 0x0100003F + 1])).bufferByte .inBuf 63 =
      Config.freeByte 1 0x0100003F + 1 := rfl
  have h2 : (afterStep (hostNext .reset
      (aab.storeBytes .inBuf 63 [Config.freeByte 1 0x0100003F + 1]))).bufferByte .inBuf 63 =
      Config.freeByte 1 0x0100003F := rfl
  rw [h1, h2]
  intro h
  have h3 := congrArg BitVec.toNat h
  rw [BitVec.toNat_add] at h3
  have h4 := (Config.freeByte 1 0x0100003F).isLt
  have h5 : (1 : Byte).toNat = 1 := rfl
  omega

end Sys2Proof.Tests
end

section
/-! SUPPORT. The reset state: its fields as they stand in 10_state.md R49, and that it meets the invariant. -/

namespace Sys2Proof.Machine

/-! ### The fields of the reset state that the invariant speaks of -/

section ResetFields

variable (p : Params)

@[simp] theorem resetWith_params : (State.resetWith p).params = p := rfl
@[simp] theorem resetWith_seq : (State.resetWith p).seq = .idle := rfl
@[simp] theorem resetWith_treeValid : (State.resetWith p).treeValid = false := rfl
@[simp] theorem resetWith_codesValid : (State.resetWith p).codesValid = false := rfl
@[simp] theorem resetWith_single : (State.resetWith p).single = false := rfl
@[simp] theorem resetWith_errOp : (State.resetWith p).errOp = 0 := rfl
@[simp] theorem resetWith_errInfo : (State.resetWith p).errInfo = 0 := rfl
@[simp] theorem resetWith_toDo : (State.resetWith p).toDo = [] := rfl
@[simp] theorem resetWith_mem : (State.resetWith p).mem = [] := rfl

end ResetFields

/-! ### Legal parameters and the invariant at reset -/

theorem legalCap_succ (c : Fin Params.maxCap) : Params.legalCap (c.val + 1) = true := by
  have hc : c.val < Params.maxCap := c.isLt
  simp only [Params.legalCap, decide_eq_true_eq]
  omega

theorem legalBase_mul_window (page : Nat) : Params.legalBase (page * Params.window) = true :=
  decide_eq_true (Nat.mul_mod_left page Params.window)

/-- The block as built has legal parameters, whatever the OPEN constants are (00_scope.md R6; log 1). -/
theorem platform_wellFormed : Config.platform.wellFormed = true := by
  simp only [Params.wellFormed, Bool.and_eq_true]
  exact ⟨⟨⟨legalBase_mul_window _, legalCap_succ _⟩, legalCap_succ _⟩, legalCap_succ _⟩

/-- Legal parameters are all that reset needs: no byte is held, no validity flag is set, no command runs and no error
is recorded (10_state.md R49), so every other clause is about an empty state or has a false premise. -/
theorem resetWith_inv {p : Params} (hp : p.wellFormed = true) : (State.resetWith p).Inv where
  params := by simpa using hp
  memory := by simp [wf_iff]
  mapped := fun _ _ hmem => by simp at hmem
  toDo := resetWith_toDo p
  codesNeedTree := fun hcodes => by simp at hcodes
  singleNeedsTree := fun hsingle => by simp at hsingle
  running := fun hbusy => by simp at hbusy
  noError := fun _ => ⟨resetWith_errOp p, resetWith_errInfo p⟩
  tree := fun htree => by simp at htree
  codes := fun hcodes => by simp at hcodes

/-- Settles O55: the block as built is one case of the reset state of a block with legal parameters. -/
theorem resetMeetsTheInvariant : Obligations.ResetMeetsTheInvariant :=
  ⟨resetWith_inv platform_wellFormed, fun _ hp => resetWith_inv hp⟩

end Sys2Proof.Machine
end

section
/-! SUPPORT. How a command ends: which error a stage may raise, and the completion fields that follow from it
(60_exceptions.md R166 to R168). -/

namespace Sys2Proof.Machine

/-! ### The errors of the stages -/

/-- If the stage raised an error, it is one, an opcode of the list raised it, and EMPTY_INPUT and SEQUENCE come with
ERR_INFO = 0 (60_exceptions.md R166). -/
def Result.ErrorsFrom (ops : List (BitVec 4)) : Result → Prop
  | .ok _ => True
  | .err op e info _ => op ∈ ops ∧ e ≠ .none ∧ (e = .emptyInput ∨ e = .sequence → info = 0)

theorem Result.ErrorsFrom.andThen {ops ops' : List (BitVec 4)} {r : Result} {f : State → Result}
    (hr : r.ErrorsFrom ops) (hf : ∀ s, (f s).ErrorsFrom ops') : (r.andThen f).ErrorsFrom (ops ++ ops') := by
  cases r with
  | ok s =>
    rw [Result.andThen_ok]
    cases hfs : f s with
    | ok => trivial
    | err op e info t =>
      obtain ⟨hop, herr⟩ : (Result.err op e info t).ErrorsFrom ops' := hfs ▸ hf s
      exact ⟨List.mem_append_right ops hop, herr⟩
  | err op e info s =>
    obtain ⟨hop, herr⟩ := hr
    exact ⟨List.mem_append_left ops' hop, herr⟩

theorem countStage_errors (s : State) : (countStage s).ErrorsFrom [2] := by
  rcases countStage_cases s with ⟨-, h⟩ | ⟨-, h⟩ | ⟨-, -, h⟩ <;> rw [h]
  · simp [Result.ErrorsFrom]
  · simp [Result.ErrorsFrom]
  · trivial

theorem buildStage_errors (s : State) : (buildStage s).ErrorsFrom [3] := by
  by_cases hp : s.presentSymbols = []
  · rw [buildStage_empty hp]
    simp [Result.ErrorsFrom]
  · obtain ⟨t, ht, -⟩ := buildStage_tree s hp
    rw [ht]
    trivial

/-- How GENCODE ends (42_code_generator.md R123). -/
theorem gencodeStage_cases (s : State) :
    gencodeStage s = .err 0x4 .sequence 0 s ∨
    (∃ lens bits, gencodeStage s = .ok { s with codeLen := lens, codeBits := bits, codesValid := true }) ∨
    ∃ info lens bits, gencodeStage s =
      .err 0x4 .corruptTree info { s with codeLen := lens, codeBits := bits, codesValid := false } := by
  rw [gencodeStage]
  split
  · split
    · exact .inr (.inl ⟨_, _, rfl⟩)
    · exact .inr (.inr ⟨_, _, _, rfl⟩)
  · exact .inl rfl

theorem gencodeStage_errors (s : State) : (gencodeStage s).ErrorsFrom [4] := by
  rcases gencodeStage_cases s with h | ⟨lens, bits, h⟩ | ⟨info, lens, bits, h⟩ <;> rw [h]
  · simp [Result.ErrorsFrom]
  · trivial
  · simp [Result.ErrorsFrom]

theorem packFail_errors {e : ErrorCode} {info : Word} (s : State) (he : e ≠ .none)
    (hinfo : e = .emptyInput ∨ e = .sequence → info = 0) : (packFail e info s).ErrorsFrom [5] :=
  ⟨by simp, he, hinfo⟩

theorem packStage_errors (s : State) : (packStage s).ErrorsFrom [5] := by
  rw [packStage]
  split
  · exact packFail_errors s (by simp) (by simp)
  split
  · exact packFail_errors s (by simp) (by simp)
  split
  · exact packFail_errors s (by simp) (by simp)
  split
  · exact packFail_errors s (by simp) (by simp)
  dsimp only
  split
  · exact packFail_errors s (by simp) (by simp)
  · trivial

/-- What stops the walk of UNPACK is CORRUPT_STREAM or CAPACITY (44_bit_unpacker.md R143). -/
theorem unpackFrom_error (s : State) (more i : Nat) (cur : NodeIx) (emitted : List Byte) {e : ErrorCode} {info : Word}
    (h : (unpackFrom s more i cur emitted).error = some (e, info)) : e = .corruptStream ∨ e = .capacity := by
  induction more generalizing i cur emitted with
  | zero => simp [unpackFrom] at h
  | succ n ih =>
    rw [unpackFrom] at h
    dsimp only at h
    split at h
    · exact .inl (Prod.mk.inj (Option.some.inj h)).1.symm
    split at h
    · split at h
      · exact .inl (Prod.mk.inj (Option.some.inj h)).1.symm
      split at h
      · exact .inr (Prod.mk.inj (Option.some.inj h)).1.symm
      · exact ih _ _ _ h
    · split at h
      · split at h
        · exact .inr (Prod.mk.inj (Option.some.inj h)).1.symm
        · exact ih _ _ _ h
      · exact ih _ _ _ h
      · exact ih _ _ _ h
    · exact .inl (Prod.mk.inj (Option.some.inj h)).1.symm

theorem unpackStage_errors (s : State) : (unpackStage s).ErrorsFrom [6] := by
  rcases unpackStage_cases s with ⟨-, h⟩ | ⟨-, -, h⟩ | ⟨-, -, -, h⟩ |
    ⟨-, -, -, r, t, hr, -, ⟨-, h⟩ | ⟨e, info, he, h⟩⟩ <;> rw [h]
  · simp [Result.ErrorsFrom]
  · simp [Result.ErrorsFrom]
  · simp [Result.ErrorsFrom]
  · trivial
  · rw [hr] at he
    rcases unpackFrom_error s _ _ _ _ he with rfl | rfl <;> simp [Result.ErrorsFrom]

theorem encodeStage_errors (s : State) : (encodeStage s).ErrorsFrom [2, 3, 4, 5] :=
  (((countStage_errors s).andThen buildStage_errors).andThen gencodeStage_errors).andThen packStage_errors

/-- The opcodes that ERR_OP may name after a command: in ENCODE those of its stages (60_exceptions.md R168; log 9). -/
def raisedBy : Instr → List (BitVec 4)
  | .encode => [2, 3, 4, 5]
  | i => [opcodeOf i]

theorem stageOf_errors (i : Instr) (s : State) : (stageOf i s).ErrorsFrom (raisedBy i) := by
  cases i with
  | clear => trivial
  | count => exact countStage_errors s
  | build => exact buildStage_errors s
  | gencode => exact gencodeStage_errors s
  | pack => exact packStage_errors s
  | unpack => exact unpackStage_errors s
  | encode => exact encodeStage_errors s

/-! ### The completion fields -/

/-- The error fields of a completion, from the errors its stage may raise (60_exceptions.md R166 to R168). -/
theorem Result.ErrorsFrom.completion {ops : List (BitVec 4)} {r : Result} (h : r.ErrorsFrom ops) :
    (r.completion.errCode = .none → r.completion.errOp = 0 ∧ r.completion.errInfo = 0) ∧
      (r.completion.errCode ≠ .none → r.completion.errOp ∈ ops) ∧
      (r.completion.errCode = .emptyInput ∨ r.completion.errCode = .sequence → r.completion.errInfo = 0) := by
  cases r with
  | ok s => simp
  | err op e info s =>
    obtain ⟨hop, he, hinfo⟩ := h
    exact ⟨fun h0 => absurd h0 he, fun _ => hop, hinfo⟩

/-- Settles O11: each stage raises only errors of its own opcode, and ENCODE those of its four stages. -/
theorem everyCommandCompletes : Obligations.EveryCommandCompletes := by
  intro i s
  obtain ⟨hnone, hop, hinfo⟩ := (stageOf_errors i s).completion
  refine ⟨_, exec_eq i s, by simp, by simp, hnone, fun he hi => ?_, fun he hi => ?_, hinfo⟩
  · have hmem := hop he
    cases i with
    | encode => exact absurd rfl hi
    | _ => exact List.mem_singleton.mp hmem
  · subst hi
    simpa [raisedBy] using hop he

end Sys2Proof.Machine
end

section
/-! SUPPORT. Every step keeps the invariant: its clauses in three groups, what keeps each group, and the step. -/

namespace Sys2Proof.Machine

/-! ### The clauses of the invariant, grouped by the state they speak of -/

/-- The clauses about the buffers. -/
structure MemoryInv (s : State) : Prop where
  params : s.params.wellFormed = true
  memory : s.mem.wf = true
  mapped : MemoryMapped s

/-- The clauses about the tables and the validity flags. -/
structure TableInv (s : State) : Prop where
  toDo : s.toDo = []
  codesNeedTree : s.codesValid = true → s.treeValid = true
  singleNeedsTree : s.single = true → s.treeValid = true
  tree : s.treeValid = true → TreeShape s
  codes : s.codesValid = true → CodesMatch s

/-- The clauses about SEQ, DONE and the error fields. -/
structure ReportInv (s : State) : Prop where
  running : s.seq = .busy → s.done = false ∧ s.errCode = .none ∧ s.errOp = 0 ∧ s.errInfo = 0
  noError : s.errCode = .none → s.errOp = 0 ∧ s.errInfo = 0

theorem State.inv_iff (s : State) : s.Inv ↔ MemoryInv s ∧ TableInv s ∧ ReportInv s := by
  constructor
  · intro h
    exact ⟨⟨h.params, h.memory, h.mapped⟩, ⟨h.toDo, h.codesNeedTree, h.singleNeedsTree, h.tree, h.codes⟩,
      ⟨h.running, h.noError⟩⟩
  · rintro ⟨hm, ht, hr⟩
    exact ⟨hm.params, hm.memory, hm.mapped, ht.toDo, ht.codesNeedTree, ht.singleNeedsTree, hr.running, hr.noError,
      ht.tree, ht.codes⟩

/-! ### What each group depends on -/

/-- All that the clauses about the tables read. -/
def State.tables (s : State) :=
  (s.toDo, s.treeValid, s.codesValid, s.single, s.numSyms, s.numNodes, s.root, s.freq, s.node, s.codeLen, s.codeBits)

/-- All that the clauses about SEQ, DONE and the error fields read. -/
def State.report (s : State) := (s.seq, s.done, s.errCode, s.errOp, s.errInfo)

theorem MemoryInv.congr {s t : State} (h : MemoryInv s) (hparams : t.params = s.params) (hmem : t.mem = s.mem) :
    MemoryInv t := by
  refine ⟨hparams ▸ h.params, hmem ▸ h.memory, ?_⟩
  rw [MemoryMapped, hparams, hmem]
  exact h.mapped

theorem TableInv.congr {s t : State} (h : TableInv s) (htables : t.tables = s.tables) : TableInv t := by
  simp only [State.tables, Prod.mk.injEq] at htables
  obtain ⟨htoDo, htree, hcodes, hsingle, hsyms, hnodes, hroot, hfreq, hnode, hlen, hbits⟩ := htables
  refine ⟨htoDo ▸ h.toDo, ?_, ?_, fun hv => ?_, fun hv => ?_⟩
  · rw [hcodes, htree]
    exact h.codesNeedTree
  · rw [hsingle, htree]
    exact h.singleNeedsTree
  · exact (h.tree (htree ▸ hv)).congr hsyms hnodes hroot hsingle hnode hfreq
  · exact (h.codes (hcodes ▸ hv)).congr hlen hbits hroot hsingle hnode

theorem ReportInv.congr {s t : State} (h : ReportInv s) (hreport : t.report = s.report) : ReportInv t := by
  simp only [State.report, Prod.mk.injEq] at hreport
  obtain ⟨hseq, hdone, hcode, hop, hinfo⟩ := hreport
  refine ⟨?_, ?_⟩
  · rw [hseq, hdone, hcode, hop, hinfo]
    exact h.running
  · rw [hcode, hop, hinfo]
    exact h.noError

/-- The invariant reads none of the model's own fields, nor the enables, the operands or OVR. -/
theorem State.Inv.congr {s t : State} (h : s.Inv) (hparams : t.params = s.params) (hmem : t.mem = s.mem)
    (htables : t.tables = s.tables) (hreport : t.report = s.report) : t.Inv := by
  obtain ⟨hm, ht, hr⟩ := s.inv_iff.mp h
  exact t.inv_iff.mpr ⟨hm.congr hparams hmem, ht.congr htables, hr.congr hreport⟩

/-- With the three flags clear the tables may hold anything. -/
theorem TableInv.of_invalid {s : State} (htoDo : s.toDo = []) (htree : s.treeValid = false)
    (hcodes : s.codesValid = false) (hsingle : s.single = false) : TableInv s where
  toDo := htoDo
  codesNeedTree := fun hv => by simp [hcodes] at hv
  singleNeedsTree := fun hv => by simp [hsingle] at hv
  tree := fun hv => by simp [htree] at hv
  codes := fun hv => by simp [hcodes] at hv

/-- A store within a buffer's capacity keeps the memory canonical and inside the buffers (20_memory.md R76). -/
theorem MemoryInv.storeBytes {s : State} (h : MemoryInv s) (b : Buffer) (j : Nat) (bs : List Byte)
    (hcap : j + bs.length ≤ capacity s.params b) : MemoryInv (s.storeBytes b j bs) where
  params := h.params
  memory := writeCells_wf bs h.memory _
  mapped := by
    intro a v hav
    rcases mem_writeCells h.memory hav with hnew | hold
    · exact ⟨b, by omega, by rw [storeBytes_params]; omega⟩
    · exact h.mapped a v hold

/-! ### The stages of the commands -/

theorem Result.andThen_state {P : State → Prop} {r : Result} {f : State → Result} (hr : P r.state)
    (hf : ∀ s, P s → P (f s).state) : P (r.andThen f).state := by
  cases r with
  | ok s => exact hf s hr
  | err => exact hr

/-- What COUNT, BUILD, GENCODE and PACK keep, ENCODE keeps (45_entry_points.md R154). -/
theorem encodeStage_state {P : State → Prop} (hcount : ∀ s, P s → P (countStage s).state)
    (hbuild : ∀ s, P s → P (buildStage s).state) (hgencode : ∀ s, P s → P (gencodeStage s).state)
    (hpack : ∀ s, P s → P (packStage s).state) (s : State) (hs : P s) : P (encodeStage s).state :=
  Result.andThen_state (Result.andThen_state (Result.andThen_state (hcount s hs) hbuild) hgencode) hpack

theorem countStage_memoryInv (s : State) (h : MemoryInv s) : MemoryInv (countStage s).state := by
  rw [countStage_frame]
  exact h.congr rfl rfl

theorem buildStage_memoryInv (s : State) (h : MemoryInv s) : MemoryInv (buildStage s).state := by
  rw [buildStage_frame]
  exact h.congr rfl rfl

theorem gencodeStage_memoryInv (s : State) (h : MemoryInv s) : MemoryInv (gencodeStage s).state := by
  rw [gencodeStage_frame]
  exact h.congr rfl rfl

/-- The fields PACK writes; the payload fits because PACK checked its bits against PAY_CAP (43_bit_packer.md R133). -/
theorem packStage_frame (s : State) : ∃ bs numBits payLen, bs.length ≤ s.params.payCap ∧
    (packStage s).state = { s.storeBytes .payBuf 0 bs with numBits := numBits, payLen := payLen } := by
  rcases packStage_cases s with ⟨e, info, hst⟩ | ⟨-, -, -, -, htotal, hst⟩
  · exact ⟨[], 0, 0, Nat.zero_le _, by rw [hst]; rfl⟩
  · refine ⟨_, _, _, ?_, by rw [hst, Result.state_ok]⟩
    rw [payloadBytes_length, packBits_length, ceilDiv8]
    omega

/-- The fields UNPACK writes; the output fits because the walk stops at OUT_CAP bytes (44_bit_unpacker.md R149). -/
theorem unpackStage_frame (s : State) : ∃ bs outLen, bs.length ≤ s.params.outCap ∧
    (unpackStage s).state = { s.storeBytes .outBuf 0 bs with outLen := outLen } := by
  have hfits := unpackFrom_out_le s s.numBits.toNat 0 s.root [] (Nat.zero_le _)
  rcases unpackStage_cases s with ⟨-, hst⟩ | ⟨-, -, hst⟩ | ⟨-, -, -, hst⟩ |
    ⟨-, -, -, r, t, rfl, rfl, ⟨-, hst⟩ | ⟨e, info, -, hst⟩⟩ <;> rw [hst]
  · exact ⟨[], 0, Nat.zero_le _, rfl⟩
  · exact ⟨[], 0, Nat.zero_le _, rfl⟩
  · exact ⟨[], 0, Nat.zero_le _, rfl⟩
  · exact ⟨_, _, hfits, rfl⟩
  · exact ⟨_, _, hfits, rfl⟩

theorem packStage_memoryInv (s : State) (h : MemoryInv s) : MemoryInv (packStage s).state := by
  obtain ⟨bs, numBits, payLen, hfits, hst⟩ := packStage_frame s
  rw [hst]
  exact (h.storeBytes .payBuf 0 bs (by rwa [capacity, Nat.zero_add])).congr rfl rfl

theorem unpackStage_memoryInv (s : State) (h : MemoryInv s) : MemoryInv (unpackStage s).state := by
  obtain ⟨bs, outLen, hfits, hst⟩ := unpackStage_frame s
  rw [hst]
  exact (h.storeBytes .outBuf 0 bs (by rwa [capacity, Nat.zero_add])).congr rfl rfl

theorem stageOf_memoryInv (i : Instr) (s : State) (h : MemoryInv s) : MemoryInv (stageOf i s).state := by
  cases i with
  | clear => exact h.congr rfl rfl
  | count => exact countStage_memoryInv s h
  | build => exact buildStage_memoryInv s h
  | gencode => exact gencodeStage_memoryInv s h
  | pack => exact packStage_memoryInv s h
  | unpack => exact unpackStage_memoryInv s h
  | encode =>
    exact encodeStage_state countStage_memoryInv buildStage_memoryInv gencodeStage_memoryInv packStage_memoryInv s h

theorem countStage_tableInv (s : State) (h : TableInv s) : TableInv (countStage s).state := by
  rcases countStage_cases s with ⟨-, hst⟩ | ⟨-, hst⟩ | ⟨-, -, hst⟩ <;> rw [hst]
  · exact h
  · exact .of_invalid h.toDo rfl rfl rfl
  · exact .of_invalid h.toDo rfl rfl rfl

/-- BUILD leaves a tree of the shape of 10_state.md R43, or, with no symbol present, no valid tree. -/
theorem buildStage_tableInv (s : State) (h : TableInv s) : TableInv (buildStage s).state := by
  by_cases hp : s.presentSymbols = []
  · rw [buildStage_empty hp]
    exact .of_invalid h.toDo rfl rfl rfl
  · obtain ⟨t, hst, ht, hshape, -⟩ := buildStage_tree s hp
    have hcodes : t.codesValid = false := by rw [ht]
    rw [hst]
    exact {
      toDo := by rw [ht]; rfl
      codesNeedTree := fun hv => by simp [hcodes] at hv
      singleNeedsTree := fun _ => by rw [Result.state_ok, ht]
      tree := fun _ => hshape
      codes := fun hv => by simp [hcodes] at hv }

/-- GENCODE on a valid tree commits that tree's codes; without one it changes nothing (42_code_generator.md R123). -/
theorem gencodeStage_tableInv (s : State) (h : TableInv s) : TableInv (gencodeStage s).state := by
  cases hv : s.treeValid with
  | false =>
    rw [gencodeStage, if_neg (by simp [hv])]
    exact h
  | true =>
    obtain ⟨t, hst, ht, hmatch⟩ := gencodeStage_codes hv (h.tree hv)
    have htree : t.treeValid = true := by rw [ht]; exact hv
    rw [hst]
    exact {
      toDo := by rw [ht]; exact h.toDo
      codesNeedTree := fun _ => htree
      singleNeedsTree := fun _ => htree
      tree := fun _ => by rw [Result.state_ok, ht]; exact (h.tree hv).congr rfl rfl rfl rfl rfl rfl
      codes := fun _ => hmatch }

theorem packStage_tables (s : State) : (packStage s).state.tables = s.tables := by
  obtain ⟨bs, numBits, payLen, -, hst⟩ := packStage_frame s
  rw [hst]
  rfl

theorem unpackStage_tables (s : State) : (unpackStage s).state.tables = s.tables := by
  obtain ⟨bs, outLen, -, hst⟩ := unpackStage_frame s
  rw [hst]
  rfl

theorem stageOf_tableInv (i : Instr) (s : State) (h : TableInv s) : TableInv (stageOf i s).state := by
  have hpack (s : State) (h : TableInv s) : TableInv (packStage s).state := h.congr (packStage_tables s)
  cases i with
  | clear => exact .of_invalid h.toDo rfl rfl rfl
  | count => exact countStage_tableInv s h
  | build => exact buildStage_tableInv s h
  | gencode => exact gencodeStage_tableInv s h
  | pack => exact hpack s h
  | unpack => exact h.congr (unpackStage_tables s)
  | encode => exact encodeStage_state countStage_tableInv buildStage_tableInv gencodeStage_tableInv hpack s h

/-! ### Completions -/

theorem Result.completion_tables (r : Result) : r.completion.tables = r.state.tables := by cases r <;> rfl

theorem Result.completion_mem (r : Result) : r.completion.mem = r.state.mem := by cases r <;> rfl

theorem Result.completion_params (r : Result) : r.completion.params = r.state.params := by cases r <;> rfl

theorem Result.ErrorsFrom.reportInv {ops : List (BitVec 4)} {r : Result} (h : r.ErrorsFrom ops) :
    ReportInv r.completion where
  running := fun hbusy => by simp at hbusy
  noError := h.completion.1

theorem command_inv (i : Instr) {s : State} (h : s.Inv) : (stageOf i s).completion.Inv := by
  obtain ⟨hm, ht, -⟩ := s.inv_iff.mp h
  exact (State.inv_iff _).mpr
    ⟨(stageOf_memoryInv i s hm).congr (Result.completion_params _) (Result.completion_mem _),
      (stageOf_tableInv i s ht).congr (Result.completion_tables _), (stageOf_errors i s).reportInv⟩

theorem illegalCompletion_inv {s : State} (h : s.Inv) : (illegalCompletion s).Inv := by
  obtain ⟨hm, ht, -⟩ := s.inv_iff.mp h
  exact (State.inv_iff _).mpr ⟨hm.congr rfl rfl, ht.congr rfl,
    ⟨fun hbusy => by simp [illegalCompletion] at hbusy, fun hnone => by simp [illegalCompletion] at hnone⟩⟩

/-! ### Host transactions and reset -/

theorem TransactEffect.memoryInv {s t : State} (h : TransactEffect s t) (hs : MemoryInv s) : MemoryInv t := by
  cases h with
  | store hidle b j bs hcap => exact hs.storeBytes b j bs hcap
  | _ => exact hs.congr rfl rfl

theorem TransactEffect.tableInv {s t : State} (h : TransactEffect s t) (hs : TableInv s) : TableInv t := by
  cases h with
  | freq hidle sym v => exact .of_invalid hs.toDo rfl rfl rfl
  | _ => exact hs.congr rfl

theorem TransactEffect.reportInv {s t : State} (h : TransactEffect s t) (hs : ReportInv s) : ReportInv t := by
  cases h with
  | status v =>
    refine ⟨fun hbusy => ?_, hs.noError⟩
    obtain ⟨hdone, herr⟩ := hs.running hbusy
    exact ⟨by simp [hdone], herr⟩
  | accept hidle v => exact ⟨fun _ => ⟨rfl, rfl, rfl, rfl⟩, fun _ => ⟨rfl, rfl⟩⟩
  | _ => exact hs.congr rfl

theorem busTurn_inv (tx : BusTx) {s : State} (h : s.Inv) : (s.busTurn tx).Inv := by
  obtain ⟨hm, ht, hr⟩ := s.inv_iff.mp h
  have he := transact_effect s tx
  have hinv : (s.transact tx).1.Inv := (State.inv_iff _).mpr ⟨he.memoryInv hm, he.tableInv ht, he.reportInv hr⟩
  exact hinv.congr rfl rfl rfl rfl

theorem waitTurn_inv {s : State} (h : s.Inv) : (waitTurn s).Inv := by
  rw [waitTurn]
  split
  · exact (busTurn_inv _ h).congr rfl rfl rfl rfl
  · exact busTurn_inv _ h

theorem resetTurn_inv {s : State} (h : s.Inv) : (resetTurn s).Inv :=
  (resetWith_inv h.params).congr rfl rfl rfl rfl

/-- Settles O56: the invariant reads no agenda, and each effect of a step keeps its three groups of clauses. -/
theorem everyStepKeepsTheInvariant : Obligations.EveryStepKeepsTheInvariant := by
  intro s t hs hstep
  obtain ⟨t', hstep', heffect⟩ := step_effect s
  obtain rfl : t' = t := by simpa [hstep'] using hstep
  have hagenda (rest : List Turn) : State.Inv { s with agenda := rest } := hs.congr rfl rfl rfl rfl
  cases heffect with
  | idle rest hidle => exact hagenda rest
  | command rest i hbusy hdec => exact command_inv i (hagenda rest)
  | illegal rest e hbusy hdec => exact illegalCompletion_inv (hagenda rest)
  | bus rest tx => exact busTurn_inv tx (hagenda rest)
  | wait rest => exact waitTurn_inv (hagenda rest)
  | reset rest => exact resetTurn_inv (hagenda rest)

end Sys2Proof.Machine
end

section
/-! SUPPORT. What commands leave alone (30_encoding.md R91), what BUILD leaves (41_tree_builder.md R111), and that no
valid code begins another (42_code_generator.md R128). -/

namespace Sys2Proof.Machine

/-- A command's outcome is its stage's completion, and no other. -/
theorem exec_next_iff (i : Instr) (s t : State) : exec i s = .next t ↔ (stageOf i s).completion = t := by
  rw [exec_eq, Host.Outcome.next.injEq]

/-! ### The frame of every command's stage -/

theorem stageOf_keepsAllBut (i : Instr) {s : State} (hp : s.params.wellFormed = true) :
    KeepsAllBut (commandWrites i) s (stageOf i s).state := by
  cases i with
  | clear => exact clearStage_keeps s
  | count => exact (countStage_stageFrame s).items
  | build => exact (buildStage_stageFrame s).items
  | gencode => exact (gencodeStage_stageFrame s).items
  | pack => exact (packStage_stageFrame hp).items
  | unpack => exact (unpackStage_keeps hp).1
  | encode => exact (encodeStage_stageFrame hp).items

/-- The engine reads IN_BUF and does not write it (10_state.md R40; 70_reset_and_hazards.md R204). -/
theorem stageOf_inBuf (i : Instr) {s : State} (hp : s.params.wellFormed = true) {j : Nat} (hj : j < s.params.inCap) :
    (stageOf i s).state.bufferByte .inBuf j = s.bufferByte .inBuf j := by
  cases i with
  | clear => rfl
  | count => exact (countStage_stageFrame s).inBuf j hj
  | build => exact (buildStage_stageFrame s).inBuf j hj
  | gencode => exact (gencodeStage_stageFrame s).inBuf j hj
  | pack => exact (packStage_stageFrame hp).inBuf j hj
  | unpack =>
    obtain ⟨-, -, hin, -⟩ := unpackStage_keeps hp
    exact hin j hj
  | encode => exact (encodeStage_stageFrame hp).inBuf j hj

theorem clearStage_keepsBytes (s : State) : KeepsBytes s (clearStage s).state := fun _ => rfl

theorem countStage_keepsBytes (s : State) : KeepsBytes s (countStage s).state := by
  rw [countStage_frame]
  exact fun _ => rfl

theorem buildStage_keepsBytes (s : State) : KeepsBytes s (buildStage s).state := by
  rw [buildStage_frame]
  exact fun _ => rfl

theorem gencodeStage_keepsBytes (s : State) : KeepsBytes s (gencodeStage s).state := by
  rw [gencodeStage_frame]
  exact fun _ => rfl

theorem Result.completion_keepsBytes {s : State} {r : Result} (h : KeepsBytes s r.state) : KeepsBytes s r.completion :=
  fun a => by rw [Result.completion_byteAt, h a]

/-- toDo belongs to BUILD, and to ENCODE, which runs it (10_state.md R39). -/
theorem stageOf_toDo {i : Instr} (s : State) (hbuild : i ≠ .build) (hencode : i ≠ .encode) :
    (stageOf i s).state.toDo = s.toDo := by
  cases i with
  | clear => rfl
  | count => rw [stageOf, countStage_frame]
  | build => exact absurd rfl hbuild
  | gencode => rw [stageOf, gencodeStage_frame]
  | pack => exact packStage_toDo s
  | unpack => exact congrArg Prod.fst (unpackStage_tables s)
  | encode => exact absurd rfl hencode

theorem stageOf_toDo_empty (i : Instr) {s : State} (hp : s.params.wellFormed = true) (h : s.toDo = []) :
    (stageOf i s).state.toDo = [] := by
  cases i with
  | build => exact (buildStage_stageFrame s).toDo h
  | encode => exact (encodeStage_stageFrame hp).toDo h
  | _ => exact (stageOf_toDo s (by decide) (by decide)).trans h

/-- Settles O12: the frames of the stages, which a completion keeps; the statement's list for each command has the
members of the model's write set. -/
theorem commandsWriteOnlyTheirWriteSet : Obligations.CommandsWriteOnlyTheirWriteSet := by
  intro i s t hp hexec
  obtain rfl := (exec_next_iff i s t).mp hexec
  have hkeeps := Result.completion_keepsAllBut (stageOf_keepsAllBut i hp)
  refine ⟨?_, fun j hj => ?_, fun hi => ?_, fun hi => ?_, fun hi => ?_, fun hbuild hencode => ?_, fun htoDo => ?_⟩
  · cases i with
    | encode => exact hkeeps.mono (by decide)
    | _ => exact hkeeps
  · rw [Result.completion_bufferByte, stageOf_inBuf i hp hj]
  · refine Result.completion_keepsBytes ?_
    rcases hi with rfl | rfl | rfl | rfl
    · exact clearStage_keepsBytes s
    · exact countStage_keepsBytes s
    · exact buildStage_keepsBytes s
    · exact gencodeStage_keepsBytes s
  · intro a ha
    rw [Result.completion_byteAt]
    rcases hi with rfl | rfl
    · exact (packStage_stageFrame hp).bytes a ha
    · exact (encodeStage_stageFrame hp).bytes a ha
  · subst hi
    obtain ⟨-, -, -, hbytes⟩ := unpackStage_keeps hp
    intro a ha
    rw [Result.completion_byteAt]
    exact hbytes a ha
  · rw [Result.completion_toDo, stageOf_toDo s hbuild hencode]
  · rw [Result.completion_toDo, stageOf_toDo_empty i hp htoDo]

/-! ### BUILD with a symbol present -/

theorem completed_complete (s : State) : Completed (complete s) := ⟨rfl, rfl, rfl, rfl, rfl⟩

/-- Settles O18: the tree BUILD's stage leaves, which its completion does not touch, and the frame of the stage. -/
theorem buildMakesAFullTree : Obligations.BuildMakesAFullTree := by
  rintro s ⟨x, hx⟩
  have hpresent : s.presentSymbols ≠ [] := List.ne_nil_of_mem ((mem_presentSymbols s x).mpr hx)
  obtain ⟨t, hst, ht, hshape, -⟩ := buildStage_tree s hpresent
  have hcompletion : (buildStage s).completion = complete t := by rw [hst, Result.completion_ok]
  refine ⟨complete t, (exec_next_iff .build s _).mpr hcompletion, completed_complete t,
    hshape.congr rfl rfl rfl rfl rfl rfl, ?_, ?_, ?_, ?_, ?_⟩
  · rw [complete_treeValid, ht]
  · rw [complete_codesValid, ht]
  · rw [complete_toDo, ht]
  · exact hcompletion ▸ Result.completion_keepsAllBut (buildStage_stageFrame s).items
  · exact hcompletion ▸ Result.completion_keepsBytes (buildStage_keepsBytes s)

/-! ### No valid code begins another -/

/-- A one-symbol tree has one LEAF, at index 0, and so one symbol with a code (41_tree_builder.md R116). -/
theorem CodesMatch.eq_of_single {s : State} (hshape : TreeShape s) (hcodes : CodesMatch s) (hs : s.single = true)
    {x y : Symbol} (hx : s.codeLenAt x ≠ 0) (hy : s.codeLenAt y ≠ 0) : x = y := by
  obtain ⟨m, v, hm⟩ := (hcodes.defined x).mp hx
  obtain ⟨n, w, hn⟩ := (hcodes.defined y).mp hy
  have hone : s.numSyms.toNat = 1 := by simpa [hs] using hshape.single.symm
  have hm0 := hshape.leaf_lt hm
  have hn0 := hshape.leaf_lt hn
  obtain rfl : m = n := BitVec.eq_of_toNat_eq (by omega)
  rw [hm] at hn
  injection hn

/-- Settles O26: a path that ends at a LEAF cannot be continued, so a code that continues another is that code. -/
theorem validCodesArePrefixFree : Obligations.ValidCodesArePrefixFree := by
  intro s hinv hvalid x y hx hy hprefix
  have hcodes := hinv.codes hvalid
  cases hs : s.single with
  | true => exact hcodes.eq_of_single (hinv.tree (hinv.codesNeedTree hvalid)) hs hx hy
  | false =>
    obtain ⟨d, hd⟩ := hprefix
    have hpath := hcodes.paths hs y hy
    rw [← hd] at hpath
    exact ((hcodes.paths hs x hx).eq_of_append hpath).2

end Sys2Proof.Machine
end

section
/-! SUPPORT. What the host reads while BUSY = 0, and what it writes to the flags and operand registers (10_state.md R23
to R42; 20_memory.md R64, R65). -/

namespace Sys2Proof.Machine

/-! ### A word transaction at an offset written as a number -/

theorem locateTx_ofNat (s : State) {offset : Nat} (h : offset < Params.window) :
    s.locateTx (BitVec.ofNat 26 offset) .four = locate s.params offset 4 := by
  rw [State.locateTx, BitVec.toNat_ofNat, Nat.mod_eq_of_lt h]
  rfl

theorem transact_read_ofNat {s : State} {offset : Nat} {l : Loc} (hidle : s.seq = .idle)
    (hoffset : offset < Params.window) (hl : locate s.params offset 4 = .at l) :
    s.transact (.read (BitVec.ofNat 26 offset) .four) = (s, { resp := .okay, rdata := some (s.readLoc .four l) }) :=
  transact_read_idle hidle (by rw [locateTx_ofNat s hoffset, hl])

/-- Register r of the table of 10_state.md R23 is at offset 4r. -/
theorem locateTx_reg (s : State) {r : Nat} (h : r < 16) :
    s.locateTx (BitVec.ofNat 26 (4 * r)) .four = .at (.reg (regTable.getD r .reserved)) := by
  rw [locateTx_ofNat s (by simp only [Params.window]; omega), locate_reg s.params h]

/-! ### Registers -/

/-- IRQ_EN as a number (10_state.md R33). -/
theorem irqEnWord_eq_add (s : State) :
    s.irqEnWord = (if s.doneIe then 1 else 0) + (if s.ovrIe then 2 else 0) := by
  rw [State.irqEnWord]
  cases s.doneIe <;> cases s.ovrIe <;> decide

/-- Settles O43: register r of the table is read at 4r, and each of the sixteen reads as stated. -/
theorem registersRead : Obligations.RegistersRead := by
  intro s r hidle hr
  rw [transact_read_idle hidle (locateTx_reg s hr), ← irqEnWord_eq_add]
  interval_cases r <;> rfl

theorem getLsbD_bitAt {k : Nat} (hk : k < 32) (b : Bool) (i : Nat) :
    (bitAt k b).getLsbD i = (b && decide (i = k)) := by
  cases b with
  | false => simp [bitAt]
  | true =>
    simp only [bitAt, if_true, BitVec.getLsbD_shiftLeft, BitVec.getLsbD_one, Bool.true_and]
    by_cases hi : i = k
    · subst hi
      simp [hk]
    · simp [hi]
      omega

/-- STATUS bit by bit (10_state.md R27). -/
theorem getLsbD_statusWord (s : State) (i : Nat) :
    s.statusWord.getLsbD i =
      if i = 0 then decide (s.seq = .busy) else if i = 1 then s.done else if i = 2 then s.ovr
      else if i = 3 then s.treeValid else if i = 4 then s.codesValid else if i = 5 then s.single
      else if 12 ≤ i ∧ i < 16 then s.errOp.getLsbD (i - 12)
      else if 8 ≤ i ∧ i < 12 then (errorNumber s.errCode).getLsbD (i - 8)
      else false := by
  simp (disch := decide) only [State.statusWord, BitVec.getLsbD_or, getLsbD_bitAt, BitVec.getLsbD_shiftLeft,
    BitVec.getLsbD_setWidth]
  by_cases hi : i < 16
  · interval_cases i <;> simp [State.isBusy]
  · have hcode : (errorNumber s.errCode).getLsbD (i - 8) = false := BitVec.getLsbD_of_ge _ _ (by omega)
    have hop : s.errOp.getLsbD (i - 12) = false := BitVec.getLsbD_of_ge _ _ (by omega)
    have hflags : i ≠ 0 ∧ i ≠ 1 ∧ i ≠ 2 ∧ i ≠ 3 ∧ i ≠ 4 ∧ i ≠ 5 := by omega
    simp [hcode, hop, hflags, hi, show ¬i < 12 by omega]

/-- Settles O44: the bits of the STATUS word, its read, and its write, which no BUSY guards (20_memory.md R65). -/
theorem statusFields : Obligations.StatusFields := by
  intro s
  have hloc : s.locateTx 0x14 .four = .at (.reg .status) := locateTx_reg s (r := 5) (by decide)
  refine ⟨getLsbD_statusWord s, fun hidle => ?_, fun v => ?_⟩
  · rw [transact_read_idle hidle hloc]
    rfl
  · rw [transact_write hloc]
    have hclear (flag bit : Bool) : (flag && !bit) = if bit then false else flag := by cases bit <;> simp
    simp only [State.writeLoc, State.writeStatus, hclear]

/-- Settles O45: IRQ_EN is written whether or not BUSY = 1, the operand registers while BUSY = 0. -/
theorem operandRegisterWrites : Obligations.OperandRegisterWrites := by
  intro s v
  have hirqEn : s.locateTx 0x18 .four = .at (.reg .irqEn) := locateTx_reg s (r := 6) (by decide)
  have hinLen : s.locateTx 0x1C .four = .at (.reg .inLen) := locateTx_reg s (r := 7) (by decide)
  have hnumBits : s.locateTx 0x20 .four = .at (.reg .numBits) := locateTx_reg s (r := 8) (by decide)
  have hpayLen : s.locateTx 0x24 .four = .at (.reg .payLen) := locateTx_reg s (r := 9) (by decide)
  refine ⟨by rw [transact_write hirqEn]; rfl, fun hidle => ⟨?_, ?_, ?_⟩⟩
  · rw [transact_write hinLen, writeLoc_idle hidle _ _ (by decide) (by decide)]
    rfl
  · rw [transact_write hnumBits, writeLoc_idle hidle _ _ (by decide) (by decide)]
    rfl
  · rw [transact_write hpayLen, writeLoc_idle hidle _ _ (by decide) (by decide)]
    rfl

/-! ### The node window -/

/-- A LEAF's descriptor as a number (10_state.md R37). -/
theorem descriptor_leaf (sym : Symbol) (weight : Weight) :
    (Node.leaf sym weight).descriptor = BitVec.ofNat 32 (0xC0000000 + sym.toNat) := by
  have hsym := sym.isLt
  apply BitVec.eq_of_toNat_eq
  have hor := Nat.two_pow_add_eq_or_of_lt hsym 0xC00000
  simp only [Node.descriptor, BitVec.toNat_or, BitVec.toNat_setWidth, BitVec.toNat_ofNat]
  rw [Nat.mod_eq_of_lt (by omega : sym.toNat < 2 ^ 32), Nat.mod_eq_of_lt (by omega : 0xC0000000 + sym.toNat < 2 ^ 32)]
  exact hor.symm

/-- An INTERNAL node's descriptor as a number (10_state.md R37). -/
theorem descriptor_internal (left right : NodeIx) (weight : Weight) :
    (Node.internal left right weight).descriptor =
      BitVec.ofNat 32 (0x80000000 + 0x10000 * right.toNat + left.toNat) := by
  have hleft := left.isLt
  have hright := right.isLt
  apply BitVec.eq_of_toNat_eq
  have hhigh : 0x80000000 ||| 0x10000 * right.toNat = 0x80000000 + 0x10000 * right.toNat :=
    (Nat.two_pow_add_eq_or_of_lt (by omega : 0x10000 * right.toNat < 2 ^ 31) 1).symm
  have hlow : (0x80000000 + 0x10000 * right.toNat) ||| left.toNat =
      0x80000000 + 0x10000 * right.toNat + left.toNat := by
    have hor := Nat.two_pow_add_eq_or_of_lt (by omega : left.toNat < 2 ^ 16) (0x8000 + right.toNat)
    rw [show 0x80000000 + 0x10000 * right.toNat = 2 ^ 16 * (0x8000 + right.toNat) by omega]
    exact hor.symm
  simp only [Node.descriptor, BitVec.toNat_or, BitVec.toNat_setWidth, BitVec.toNat_ofNat, BitVec.toNat_shiftLeft,
    Nat.shiftLeft_eq]
  rw [Nat.mod_eq_of_lt (by omega : left.toNat < 2 ^ 32), Nat.mod_eq_of_lt (by omega : right.toNat < 2 ^ 32),
    Nat.mul_comm right.toNat, Nat.mod_eq_of_lt (by omega : 2 ^ 16 * right.toNat < 2 ^ 32),
    Nat.mod_eq_of_lt (by omega : 0x80000000 + 0x10000 * right.toNat + left.toNat < 2 ^ 32)]
  exact (congrArg (· ||| left.toNat) hhigh).trans hlow

/-- Words 1 and 2 of a node are the low 32 and the high 8 bits of its weight (10_state.md R37). -/
theorem word_one (n : Node) : n.word 1 = BitVec.ofNat 32 n.weight.toNat := by
  apply BitVec.eq_of_toNat_eq
  simp [Node.word, BitVec.extractLsb'_toNat]

theorem word_two (n : Node) : n.word 2 = BitVec.ofNat 32 (n.weight.toNat / 2 ^ 32) := by
  apply BitVec.eq_of_toNat_eq
  have hweight := n.weight.isLt
  simp only [Node.word, BitVec.toNat_setWidth, BitVec.extractLsb'_toNat, BitVec.toNat_ofNat, Nat.shiftRight_eq_div_pow]
  omega

theorem word_empty (w : Nat) : Node.empty.word w = 0 := by
  match w with
  | 0 => rfl
  | 1 => rfl
  | 2 => rfl
  | _ + 3 => rfl

theorem nodeAt_last (s : State) {n : NodeIx} (h : n.toNat = 511) : s.nodeAt n = .empty := by
  rw [State.nodeAt, arenaAt, dif_neg (by omega)]

theorem transact_read_node {s : State} (hidle : s.seq = .idle) (n : NodeIx) {w : Nat} (hw : w < 4) :
    (s.transact (.read (BitVec.ofNat 26 (0x4000 + 16 * n.toNat + 4 * w)) .four)).2 =
      { resp := .okay, rdata := some ((s.nodeAt n).word w) } := by
  have hn := n.isLt
  rw [transact_read_ofNat hidle (by simp only [Params.window]; omega) (locate_node s.params n hw)]
  rfl

/-- The four words of a slot that holds the node x (10_state.md R37). -/
theorem transact_read_node_words {s : State} (hidle : s.seq = .idle) {n : NodeIx} {x : Node} (hx : s.nodeAt n = x) :
    let word (w : Nat) := (s.transact (.read (BitVec.ofNat 26 (0x4000 + 16 * n.toNat + 4 * w)) .four)).2
    word 0 = { resp := .okay, rdata := some x.descriptor } ∧
      word 1 = { resp := .okay, rdata := some (BitVec.ofNat 32 x.weight.toNat) } ∧
      word 2 = { resp := .okay, rdata := some (BitVec.ofNat 32 (x.weight.toNat / 2 ^ 32)) } ∧
      word 3 = { resp := .okay, rdata := some 0 } := by
  subst hx
  rw [← word_one, ← word_two]
  exact ⟨transact_read_node hidle n (by decide), transact_read_node hidle n (by decide),
    transact_read_node hidle n (by decide), transact_read_node hidle n (by decide)⟩

/-- Settles O50: each word of the window is the node's, and slot 511 is no entry of the arena. -/
theorem nodeWindowReads : Obligations.NodeWindowReads := by
  intro s n hidle
  refine ⟨fun hempty w hw => ?_, fun sym weight hleaf => ?_, fun left right weight hinternal => ?_⟩
  · have hnode : s.nodeAt n = .empty := hempty.elim id (nodeAt_last s)
    exact (transact_read_node hidle n hw).trans (by rw [hnode, word_empty])
  · rw [← descriptor_leaf sym weight]
    exact transact_read_node_words hidle hleaf
  · rw [← descriptor_internal left right weight]
    exact transact_read_node_words hidle hinternal

/-! ### The frequency and code windows -/

/-- A code bit, false beyond the code. -/
theorem codeOf_getD (s : State) (x : Symbol) (t : Nat) :
    (s.codeOf x).getD t false = (decide (t < (s.codeLenAt x).toNat) && s.codeBit x t) := by
  by_cases ht : t < (s.codeLenAt x).toNat
  · simp [State.codeOf, List.getD, ht]
  · simp [State.codeOf, List.getD, ht]

/-- Word w of CODE_BITS[x] (10_state.md R42). -/
theorem getLsbD_codeBitsWord (s : State) (x : Symbol) (w : Nat) {b : Nat} (hb : b < 32) :
    (s.codeBitsWord x w).getLsbD (31 - b) = (s.codeOf x).getD (32 * w + b) false := by
  have hmsb : (s.codeBitsWord x w).getMsbD b = _ := getMsbD_msbFirst (by simp) b
  rw [BitVec.getMsbD, decide_eq_true hb, Bool.true_and] at hmsb
  rw [show 31 - b = 32 - 1 - b from rfl, hmsb, codeOf_getD]
  simp [List.getD, hb]

/-- Settles O51: each read goes to its table's entry, whose CODE_BITS words hold the code's bits in order. -/
theorem freqAndCodeWindowReads : Obligations.FreqAndCodeWindowReads := by
  intro s x hidle
  have hx := x.isLt
  refine ⟨?_, ?_, fun w hw => ⟨s.codeBitsWord x w, ?_, fun b hb => getLsbD_codeBitsWord s x w hb⟩⟩
  · rw [transact_read_ofNat hidle (by simp only [Params.window]; omega) (locate_freq s.params x)]
    rfl
  · rw [transact_read_ofNat hidle (by simp only [Params.window]; omega) (locate_codeLen s.params x)]
    rfl
  · rw [transact_read_ofNat hidle (by simp only [Params.window]; omega) (locate_codeBits s.params x hw)]
    rfl

end Sys2Proof.Machine
end

section
/-! SUPPORT. What a step can do, with the turn that does it: the engine's turn, reset, and the transactions by their
addresses (10_state.md R20; 20_memory.md R61, R65; log 4). -/

namespace Sys2Proof.Machine

/-! ### The turns, one by one -/

/-- A busy engine's turn runs the command of CUR_CMD (10_state.md R20; 30_encoding.md R89). -/
theorem engineTurn_command {s : State} {i : Instr} (hbusy : s.seq = .busy) (hdec : decode s.curCmd = .command i) :
    engineTurn s = exec i s := by
  rw [engineTurn, if_pos ((isBusy_iff s).mpr hbusy), completionStep, hdec]

/-- An idle engine's turn does nothing (60_exceptions.md R185). -/
theorem engineTurn_idle {s : State} (hidle : s.seq = .idle) : engineTurn s = .next s := by
  rw [engineTurn, (isBusy_false_iff s).mpr hidle]
  rfl

/-- Settles O4: the engine's turn, whether the agenda is empty or names it. -/
theorem stepRunsDecodedCommand : Obligations.StepRunsDecodedCommand := by
  intro s i hbusy hdec
  refine ⟨fun hnil => ?_, fun rest hcons => ?_⟩
  · rw [step_nil hnil, engineTurn_command hbusy hdec]
  · rw [step_cons hcons]
    exact engineTurn_command hbusy hdec

/-- Settles O5: acceptance makes SEQ busy with CUR_CMD = w, and the engine's turn is next. -/
theorem fetchedWordRunsNext : Obligations.FetchedWordRunsNext := by
  intro s w i hdec
  have hword : BitVec.ofNat 32 (w.toNat % 2 ^ 32) = w := by
    rw [Nat.mod_eq_of_lt w.isLt, BitVec.ofNat_toNat, BitVec.setWidth_eq]
  have hstep : step (s.withFetchWord 32 w.toNat) =
      engineTurn (acceptCommand (BitVec.ofNat 32 (w.toNat % 2 ^ 32)) s) := rfl
  rw [hstep, hword]
  exact engineTurn_command (acceptCommand_seq s w) hdec

/-- Settles O8: a host turn is its transaction with the response kept; an idle engine's turn is taken off the agenda. -/
theorem hostTurnsAndIdleTurns : Obligations.HostTurnsAndIdleTurns := by
  intro s
  refine ⟨fun tx rest hcons => step_cons hcons, fun hidle => ⟨fun hnil => ?_, fun rest hcons => ?_⟩⟩
  · rw [step_nil hnil, engineTurn_idle hidle]
  · rw [step_cons hcons]
    exact engineTurn_idle hidle

/-- The tables of the reset state are empty (10_state.md R49). -/
theorem resetTurn_freqAt (s : State) (x : Symbol) : (resetTurn s).freqAt x = 0 :=
  Vector.getElem_replicate x.isLt

theorem resetTurn_codeLenAt (s : State) (x : Symbol) : (resetTurn s).codeLenAt x = 0 :=
  Vector.getElem_replicate x.isLt

theorem resetTurn_codeBitsAt (s : State) (x : Symbol) : (resetTurn s).codeBitsAt x = 0 :=
  Vector.getElem_replicate x.isLt

theorem resetTurn_nodeAt (s : State) (n : NodeIx) : (resetTurn s).nodeAt n = .empty := by
  rw [State.nodeAt, arenaAt]
  split
  · exact Vector.getElem_replicate _
  · rfl

theorem resetTurn_statusWord (s : State) : (resetTurn s).statusWord = 0 := by
  simp [State.statusWord, State.isBusy, resetTurn, State.resetWith, bitAt, errorNumber]

theorem resetTurn_irqEnWord (s : State) : (resetTurn s).irqEnWord = 0 := by
  simp [State.irqEnWord, resetTurn, State.resetWith, bitAt]

/-- Settles O54: the reset turn, field by field. -/
theorem resetValues : Obligations.ResetValues := by
  intro s rest hagenda
  exact ⟨resetTurn { s with agenda := rest }, step_cons hagenda, rfl, rfl, resetTurn_statusWord _,
    resetTurn_irqEnWord _, rfl, rfl, rfl, rfl, rfl, rfl, rfl, rfl, resetTurn_freqAt _, resetTurn_nodeAt _,
    fun x => ⟨resetTurn_codeLenAt _ x, resetTurn_codeBitsAt _ x⟩, rfl, rfl, rfl, rfl⟩

/-! ### The address of a location -/

/-- The block offset of a location (20_memory.md R61). -/
def Loc.offset : Loc → Nat
  | .reg r => 4 * regTable.idxOf r
  | .freq sym => 0x400 + 4 * sym.toNat
  | .codeLen sym => 0x800 + 4 * sym.toNat
  | .codeBits sym w => 0x1000 + 32 * sym.toNat + 4 * w
  | .node n w => 0x4000 + 16 * n.toNat + 4 * w
  | .buffer b j => bufferBase b + j

theorem wordAccess_at {offset n : Nat} {l l' : Loc} (h : wordAccess offset n l = .at l') :
    n = 4 ∧ offset % 4 = 0 ∧ l = l' := by
  rcases ite_cases h with ⟨⟨hn, halign⟩, hl⟩ | ⟨-, herr⟩
  · exact ⟨hn, halign, Located.at.inj hl⟩
  · simp at herr

theorem bufferAccess_at {p : Params} {b : Buffer} {j n : Nat} {l : Loc} (h : bufferAccess p b j n = .at l) :
    l = .buffer b j := by
  rcases ite_cases h with ⟨-, herr⟩ | ⟨-, h⟩
  · simp at herr
  · rcases ite_cases h with ⟨-, hl⟩ | ⟨-, herr⟩
    · exact (Located.at.inj hl).symm
    · simp at herr

theorem regTable_idxOf_getD : ∀ r < 16, regTable.idxOf (regTable.getD r .reserved) = r := by decide

/-- A transaction that goes to a location has its offset, and outside the buffers it is of four bytes (20_memory.md
R61, R63). -/
theorem locate_at {p : Params} {offset n : Nat} {l : Loc} (h : locate p offset n = .at l) :
    offset = l.offset ∧ (n = 4 ∨ ∃ b j, l = .buffer b j) := by
  have hword {l' : Loc} (hat : wordAccess offset n l' = .at l) (hoffset : offset % 4 = 0 → offset = l'.offset) :
      offset = l.offset ∧ (n = 4 ∨ ∃ b j, l = .buffer b j) := by
    obtain ⟨hn, halign, rfl⟩ := wordAccess_at hat
    exact ⟨hoffset halign, .inl hn⟩
  have hbuffer {b : Buffer} (hle : bufferBase b ≤ offset) (hat : bufferAccess p b (offset - bufferBase b) n = .at l) :
      offset = l.offset ∧ (n = 4 ∨ ∃ b j, l = .buffer b j) := by
    obtain rfl := bufferAccess_at hat
    exact ⟨by rw [Loc.offset]; omega, .inr ⟨_, _, rfl⟩⟩
  rw [locate] at h
  rcases ite_cases h with ⟨hlt, hat⟩ | ⟨-, h⟩
  · refine hword hat fun halign => ?_
    rw [Loc.offset, regTable_idxOf_getD _ (by omega)]
    omega
  rcases ite_cases h with ⟨-, herr⟩ | ⟨hge, h⟩
  · simp at herr
  rcases ite_cases h with ⟨hlt, hat⟩ | ⟨hge, h⟩
  · refine hword hat fun halign => ?_
    rw [Loc.offset, BitVec.toNat_ofNat]
    omega
  rcases ite_cases h with ⟨hlt, hat⟩ | ⟨-, h⟩
  · refine hword hat fun halign => ?_
    rw [Loc.offset, BitVec.toNat_ofNat]
    omega
  rcases ite_cases h with ⟨-, herr⟩ | ⟨hge, h⟩
  · simp at herr
  rcases ite_cases h with ⟨hlt, hat⟩ | ⟨-, h⟩
  · refine hword hat fun halign => ?_
    rw [Loc.offset, BitVec.toNat_ofNat]
    omega
  rcases ite_cases h with ⟨-, herr⟩ | ⟨hge, h⟩
  · simp at herr
  rcases ite_cases h with ⟨hlt, hat⟩ | ⟨-, h⟩
  · refine hword hat fun halign => ?_
    rw [Loc.offset, BitVec.toNat_ofNat]
    omega
  rcases ite_cases h with ⟨-, herr⟩ | ⟨hin, h⟩
  · simp at herr
  rcases ite_cases h with ⟨-, hat⟩ | ⟨hpay, h⟩
  · exact hbuffer (b := .inBuf) (not_lt.mp hin) hat
  rcases ite_cases h with ⟨-, hat⟩ | ⟨hout, h⟩
  · exact hbuffer (b := .payBuf) (not_lt.mp hpay) hat
  rcases ite_cases h with ⟨-, hat⟩ | ⟨-, herr⟩
  · exact hbuffer (b := .outBuf) (not_lt.mp hout) hat
  · simp at herr

theorem Size.eq_four {size : Size} (h : size.bytes = 4) : size = .four := by
  cases size with
  | four => rfl
  | _ => simp [Size.bytes] at h

/-- A word location is addressed by one transaction: four bytes at its offset. -/
theorem locateTx_word {s : State} {addr : Offset} {size : Size} {l : Loc} (h : s.locateTx addr size = .at l)
    (hword : ∀ b j, l ≠ .buffer b j) : addr = BitVec.ofNat 26 l.offset ∧ size = .four := by
  obtain ⟨hoffset, hsize⟩ := locate_at h
  rcases hsize with hfour | ⟨b, j, hl⟩
  · exact ⟨by rw [← hoffset, BitVec.ofNat_toNat, BitVec.setWidth_eq], Size.eq_four hfour⟩
  · exact absurd hl (hword b j)

/-! ### Transactions and steps with their causes -/

/-- What a transaction can do to the state, by what it is (20_memory.md R64, R65, R67; 70_reset_and_hazards.md R196). -/
inductive BusEffect (s : State) : BusTx → State → Prop
  | nothing (tx : BusTx) : BusEffect s tx s
  | draw (addr : Offset) (size : Size) : BusEffect s (.read addr size) { s with draws := s.draws + 1 }
  | status (v : Word) : BusEffect s (.write 0x14 .four v) (s.writeStatus v)
  | irqEn (v : Word) : BusEffect s (.write 0x18 .four v) (s.writeIrqEn v)
  | dropped (hbusy : s.seq = .busy) (addr : Offset) (size : Size) (v : Word) :
      BusEffect s (.write addr size v) { s with ovr := true }
  | accept (hidle : s.seq = .idle) (v : Word) : BusEffect s (.write 0x10 .four v) (acceptCommand v s)
  | operands (hidle : s.seq = .idle) (addr : Offset) (size : Size) (v inLen numBits payLen : Word) :
      BusEffect s (.write addr size v) { s with inLen := inLen, numBits := numBits, payLen := payLen }
  | freq (hidle : s.seq = .idle) (x : Symbol) (v : Word) :
      BusEffect s (.write (BitVec.ofNat 26 (0x400 + 4 * x.toNat)) .four v) (s.writeFreq x v)
  | store (hidle : s.seq = .idle) (addr : Offset) (size : Size) (v : Word) (b : Buffer) (j : Nat) (bs : List Byte) :
      BusEffect s (.write addr size v) (s.storeBytes b j bs)

/-- A write that goes somewhere while BUSY = 0. -/
theorem writeIdle_busEffect {s : State} (hidle : s.seq = .idle) {addr : Offset} {size : Size} {l : Loc}
    (hl : s.locateTx addr size = .at l) (v : Word) : BusEffect s (.write addr size v) (s.writeIdle size v l) := by
  have hword := locateTx_word hl
  cases l with
  | reg r =>
    cases r with
    | cmd =>
      obtain ⟨rfl, rfl⟩ := hword (by simp)
      exact .accept hidle v
    | inLen => exact .operands hidle addr size v v s.numBits s.payLen
    | numBits => exact .operands hidle addr size v s.inLen v s.payLen
    | payLen => exact .operands hidle addr size v s.inLen s.numBits v
    | _ => exact .nothing _
  | freq x =>
    obtain ⟨rfl, rfl⟩ := hword (by simp)
    exact .freq hidle x v
  | buffer b j => exact .store hidle addr size v b j _
  | _ => exact .nothing _

theorem transact_busEffect (s : State) (tx : BusTx) : BusEffect s tx (s.transact tx).1 := by
  cases tx with
  | read addr size =>
    rcases hl : s.locateTx addr size with l | e
    · simp only [State.transact, State.memRead, hl]
      split
      · exact .nothing _
      · exact .draw addr size
    · rw [(transact_error hl).1]
      exact .nothing _
  | write addr size v =>
    rcases hl : s.locateTx addr size with l | e
    · rw [transact_write hl]
      by_cases hstatus : l = .reg .status
      · subst hstatus
        obtain ⟨rfl, rfl⟩ := locateTx_word hl (by simp)
        exact .status v
      by_cases hirqEn : l = .reg .irqEn
      · subst hirqEn
        obtain ⟨rfl, rfl⟩ := locateTx_word hl (by simp)
        exact .irqEn v
      cases hseq : s.seq with
      | busy =>
        rw [writeLoc_busy hseq size v hstatus hirqEn]
        exact .dropped hseq addr size v
      | idle =>
        rw [writeLoc_idle hseq size v hstatus hirqEn]
        exact writeIdle_busEffect hseq hl v
    · rw [(transact_error hl).2 v]
      exact .nothing _

/-- The engine has the next turn (log 4). -/
def State.EngineNext (s : State) : Prop := s.agenda = [] ∨ ∃ rest, s.agenda = .engine :: rest

/-- Everything a step can do, by the turn it takes (10_state.md R20; log 4). -/
inductive TurnEffect (s : State) : State → Prop
  | idle (rest : List Turn) (hnext : s.EngineNext) (hidle : s.seq = .idle) : TurnEffect s { s with agenda := rest }
  | command (rest : List Turn) (i : Instr) (hnext : s.EngineNext) (hbusy : s.seq = .busy)
      (hdec : decode s.curCmd = .command i) : TurnEffect s (stageOf i { s with agenda := rest }).completion
  | illegal (rest : List Turn) (hnext : s.EngineNext) (hbusy : s.seq = .busy) :
      TurnEffect s (illegalCompletion { s with agenda := rest })
  | bus (rest : List Turn) (tx : BusTx) (u : State) (response : Option BusResponse)
      (hagenda : s.agenda = .bus tx :: rest) (heffect : BusEffect { s with agenda := rest } tx u) :
      TurnEffect s { u with response := response }
  | wait (rest agenda : List Turn) (response : Option BusResponse) (draws : Nat) (hagenda : s.agenda = .wait :: rest) :
      TurnEffect s { s with agenda := agenda, response := response, draws := draws }
  | reset (rest : List Turn) (hagenda : s.agenda = .reset :: rest) : TurnEffect s (resetTurn { s with agenda := rest })

theorem engineTurn_turnEffect {s t : State} (rest : List Turn) (hnext : s.EngineNext)
    (h : engineTurn { s with agenda := rest } = .next t) : TurnEffect s t := by
  rcases engineTurn_cases { s with agenda := rest } with
    ⟨hidle, hturn⟩ | ⟨hbusy, ⟨i, hdec, hturn⟩ | ⟨e, -, hturn⟩⟩ <;> rw [hturn, Host.Outcome.next.injEq] at h <;> subst h
  · exact .idle rest hnext hidle
  · exact .command rest i hnext hbusy hdec
  · exact .illegal rest hnext hbusy

/-- A poll leaves everything but the model's own fields (20_memory.md R72; log 3, 7, 14). -/
theorem waitTurn_eq (s : State) : ∃ agenda response draws,
    waitTurn s = { s with agenda := agenda, response := response, draws := draws } := by
  obtain ⟨response, draws, hread⟩ : ∃ response draws, s.busTurn (.read statusOffset .four) =
      { s with response := response, draws := draws } := by
    rw [State.busTurn]
    have heffect := transact_busEffect s (.read statusOffset .four)
    generalize (s.transact (.read statusOffset .four)).1 = u at heffect
    cases heffect with
    | nothing => exact ⟨_, s.draws, rfl⟩
    | draw => exact ⟨_, s.draws + 1, rfl⟩
  rw [waitTurn, hread]
  split
  · exact ⟨_, response, draws, rfl⟩
  · exact ⟨s.agenda, response, draws, rfl⟩

theorem step_turnEffect {s t : State} (h : step s = .next t) : TurnEffect s t := by
  cases hagenda : s.agenda with
  | nil =>
    rw [step_nil hagenda] at h
    refine engineTurn_turnEffect [] (.inl hagenda) ?_
    rw [← hagenda]
    exact h
  | cons turn rest =>
    rw [step_cons hagenda] at h
    cases turn with
    | engine => exact engineTurn_turnEffect rest (.inr ⟨rest, hagenda⟩) h
    | bus tx =>
      obtain rfl := Host.Outcome.next.inj h
      exact .bus rest tx _ _ hagenda (transact_busEffect _ tx)
    | wait =>
      obtain ⟨agenda, response, draws, hwait⟩ := waitTurn_eq { s with agenda := rest }
      obtain rfl := Host.Outcome.next.inj h
      rw [hwait]
      exact .wait rest agenda response draws hagenda
    | reset =>
      obtain rfl := Host.Outcome.next.inj h
      exact .reset rest hagenda

end Sys2Proof.Machine
end

section
/-! SUPPORT. When STATUS and IN_BUF change (10_state.md R28 to R31, R40): for each group of state, once, what a step can
do to it, and from that the statement about it. -/

namespace Sys2Proof.Machine

/-! ### BUSY and DONE -/

/-- What a step can do to SEQ and DONE (10_state.md R28, R29). -/
inductive BusyDoneEffect (s t : State) : Prop
  | kept (hseq : t.seq = s.seq) (hdone : t.done = s.done) (hengine : s.EngineNext → s.seq = .idle)
  | completed (hnext : s.EngineNext) (hbusy : s.seq = .busy) (hseq : t.seq = .idle) (hdone : t.done = true)
  | accepted (v : Word) (rest : List Turn) (hagenda : s.agenda = .bus (.write 0x10 .four v) :: rest)
      (hidle : s.seq = .idle) (hseq : t.seq = .busy) (hcmd : t.curCmd = v) (hdone : t.done = false)
  | status (v : Word) (rest : List Turn) (hagenda : s.agenda = .bus (.write 0x14 .four v) :: rest)
      (hseq : t.seq = s.seq) (hdone : t.done = (s.done && !v.getLsbD 1))
  | reset (rest : List Turn) (hagenda : s.agenda = .reset :: rest) (hseq : t.seq = .idle) (hdone : t.done = false)

/-- The host's turns and reset are not the engine's. -/
theorem not_engineNext {s : State} {turn : Turn} {rest : List Turn} (h : s.agenda = turn :: rest)
    (hturn : turn ≠ .engine) : ¬s.EngineNext := by
  rintro (hnil | ⟨rest', hcons⟩)
  · simp [hnil] at h
  · rw [hcons] at h
    exact hturn (List.cons.inj h).1.symm

theorem TurnEffect.busyDone {s t : State} (h : TurnEffect s t) : BusyDoneEffect s t := by
  cases h with
  | idle rest hnext hidle => exact .kept rfl rfl fun _ => hidle
  | command rest i hnext hbusy hdec =>
    exact .completed hnext hbusy (Result.completion_seq _) (Result.completion_done _)
  | illegal rest hnext hbusy => exact .completed hnext hbusy rfl rfl
  | bus rest tx u response hagenda heffect =>
    have hengine : s.EngineNext → s.seq = .idle := fun hnext => absurd hnext (not_engineNext hagenda (by simp))
    cases heffect with
    | status v => exact .status v rest hagenda rfl rfl
    | accept hidle v => exact .accepted v rest hagenda hidle rfl rfl rfl
    | _ => exact .kept rfl rfl hengine
  | wait rest agenda response draws hagenda =>
    exact .kept rfl rfl fun hnext => absurd hnext (not_engineNext hagenda (by simp))
  | reset rest hagenda => exact .reset rest hagenda rfl rfl

/-- Settles O57: each clause from the five things a step can do to SEQ and DONE. -/
theorem busyAndDoneChangeOnlyAsStated : Obligations.BusyAndDoneChangeOnlyAsStated := by
  intro s t hstep engineTurn reset
  cases (step_turnEffect hstep).busyDone with
  | kept hseq hdone hengine =>
    rw [hseq, hdone]
    refine ⟨fun hi hb => ?_, fun hb hi => ?_, fun _ => hengine, fun hf ht => ?_, fun ht hf => ?_⟩
    · simp [hi] at hb
    · simp [hb] at hi
    · simp [hf] at ht
    · simp [ht] at hf
  | completed hnext hbusy hseq hdone =>
    refine ⟨fun hi _ => ?_, fun _ _ => .inl ⟨hnext, hdone⟩, fun _ _ => hseq, fun _ _ => ⟨hnext, hbusy, hseq⟩,
      fun _ hf => ?_⟩
    · simp [hbusy] at hi
    · simp [hdone] at hf
  | accepted v rest hagenda hidle hseq hcmd hdone =>
    refine ⟨fun _ _ => ⟨v, rest, hagenda, hcmd⟩, fun hb _ => ?_, fun hb _ => ?_, fun _ ht => ?_,
      fun _ _ => .inl ⟨hidle, v, rest, hagenda⟩⟩
    · simp [hidle] at hb
    · simp [hidle] at hb
    · simp [hdone] at ht
  | status v rest hagenda hseq hdone =>
    refine ⟨fun hi hb => ?_, fun hb hi => ?_, fun _ hnext => ?_, fun hf ht => ?_, fun ht hf => ?_⟩
    · simp [hseq, hi] at hb
    · simp [hseq, hb] at hi
    · exact absurd hnext (not_engineNext hagenda (by simp))
    · simp [hdone, hf] at ht
    · exact .inr (.inl ⟨v, rest, hagenda, by simpa [hdone, ht] using hf⟩)
  | reset rest hagenda hseq hdone =>
    refine ⟨fun _ hb => ?_, fun _ _ => .inr ⟨rest, hagenda⟩, fun _ _ => hseq, fun _ ht => ?_,
      fun _ _ => .inr (.inr ⟨rest, hagenda⟩)⟩
    · simp [hseq] at hb
    · simp [hdone] at ht

/-! ### OVR -/

theorem Result.completion_ovr (r : Result) : r.completion.ovr = r.state.ovr := by cases r <;> rfl

/-- No stage writes OVR (10_state.md R30). -/
theorem stageOf_ovr (i : Instr) (s : State) : (stageOf i s).state.ovr = s.ovr := by
  have hcount (s : State) : (countStage s).state.ovr = s.ovr := by rw [countStage_frame]
  have hbuild (s : State) : (buildStage s).state.ovr = s.ovr := by rw [buildStage_frame]
  have hgencode (s : State) : (gencodeStage s).state.ovr = s.ovr := by rw [gencodeStage_frame]
  have hpack (s : State) : (packStage s).state.ovr = s.ovr := by
    obtain ⟨bs, numBits, payLen, -, hst⟩ := packStage_frame s
    rw [hst, storeBytes_ovr]
  cases i with
  | clear => rfl
  | count => exact hcount s
  | build => exact hbuild s
  | gencode => exact hgencode s
  | pack => exact hpack s
  | unpack =>
    obtain ⟨bs, outLen, -, hst⟩ := unpackStage_frame s
    rw [stageOf, hst, storeBytes_ovr]
  | encode =>
    exact encodeStage_state (P := fun u => u.ovr = s.ovr) (fun u hu => (hcount u).trans hu)
      (fun u hu => (hbuild u).trans hu) (fun u hu => (hgencode u).trans hu) (fun u hu => (hpack u).trans hu) s rfl

/-- What a step can do to OVR (10_state.md R30). -/
inductive OvrEffect (s t : State) : Prop
  | kept (hovr : t.ovr = s.ovr)
  | dropped (addr : Offset) (size : Size) (v : Word) (rest : List Turn)
      (hagenda : s.agenda = .bus (.write addr size v) :: rest) (hbusy : s.seq = .busy) (hovr : t.ovr = true)
  | status (v : Word) (rest : List Turn) (hagenda : s.agenda = .bus (.write 0x14 .four v) :: rest)
      (hovr : t.ovr = (s.ovr && !v.getLsbD 2))
  | reset (rest : List Turn) (hagenda : s.agenda = .reset :: rest) (hovr : t.ovr = false)

theorem TurnEffect.ovrEffect {s t : State} (h : TurnEffect s t) : OvrEffect s t := by
  cases h with
  | command rest i hnext hbusy hdec => exact .kept ((Result.completion_ovr _).trans (stageOf_ovr i _))
  | bus rest tx u response hagenda heffect =>
    cases heffect with
    | dropped hbusy addr size v => exact .dropped addr size v rest hagenda hbusy rfl
    | status v => exact .status v rest hagenda rfl
    | _ => exact .kept rfl
  | reset rest hagenda => exact .reset rest hagenda rfl
  | _ => exact .kept rfl

/-- Settles O58: both clauses from the four things a step can do to OVR. -/
theorem ovrChangesOnlyAsStated : Obligations.OvrChangesOnlyAsStated := by
  intro s t hstep
  cases (step_turnEffect hstep).ovrEffect with
  | kept hovr =>
    rw [hovr]
    exact ⟨fun hf ht => by simp [hf] at ht, fun ht hf => by simp [ht] at hf⟩
  | dropped addr size v rest hagenda hbusy hovr =>
    exact ⟨fun _ _ => ⟨hbusy, addr, size, v, rest, hagenda⟩, fun _ hf => by simp [hovr] at hf⟩
  | status v rest hagenda hovr =>
    exact ⟨fun hf ht => by simp [hovr, hf] at ht,
      fun ht hf => .inl ⟨v, rest, hagenda, by simpa [hovr, ht] using hf⟩⟩
  | reset rest hagenda hovr =>
    exact ⟨fun _ ht => by simp [hovr] at ht, fun _ _ => .inr ⟨rest, hagenda⟩⟩

/-! ### TREE_VALID, CODES_VALID and SINGLE -/

/-- The three validity flags (10_state.md R31). -/
def State.flags (s : State) : Bool × Bool × Bool := (s.treeValid, s.codesValid, s.single)

/-- What a command can do to the validity flags (10_state.md R31; 42_code_generator.md R123). -/
inductive CommandFlags (i : Instr) (s t : State) : Prop
  | kept (hflags : t.flags = s.flags)
  | cleared (hi : i ∈ [.clear, .count, .build, .encode]) (hflags : t.flags = (false, false, false))
  | built (hi : i ∈ [.build, .encode]) (htree : t.treeValid = true) (hcodes : t.codesValid = true → i = .encode)
      (hsingle : t.single = true → t.numSyms = 1)
  | coded (hi : i = .gencode) (hflags : t.flags = (s.treeValid, true, s.single)) (herr : t.errCode = .none)
  | uncoded (hi : i = .gencode) (hflags : t.flags = (s.treeValid, false, s.single)) (herr : t.errCode = .corruptTree)

/-- SINGLE comes with NUM_SYMS = 1 in a tree of the shape of 10_state.md R43. -/
theorem TreeShape.numSyms_of_single {s : State} (h : TreeShape s) (hsingle : s.single = true) : s.numSyms = 1 := by
  have hone : s.numSyms.toNat = 1 := by simpa [hsingle] using h.single.symm
  exact BitVec.eq_of_toNat_eq hone

theorem flags_of_tables {s t : State} (h : t.tables = s.tables) : t.flags = s.flags := by
  simp only [State.tables, Prod.mk.injEq] at h
  obtain ⟨-, htree, hcodes, hsingle, -⟩ := h
  rw [State.flags, State.flags, htree, hcodes, hsingle]

/-- ENCODE stops with COUNT's error and its flags, or leaves the tree it built (45_entry_points.md R154). -/
theorem encodeStage_flags (s : State) : CommandFlags .encode s (encodeStage s).completion := by
  rcases countStage_cases s with ⟨-, hcount⟩ | ⟨-, hcount⟩ | ⟨hpos, hcap, -⟩
  · have hst : encodeStage s = .err 0x2 .capacity s.inLen s := by simp [encodeStage, hcount]
    rw [hst]
    exact .kept rfl
  · have hst : encodeStage s = .err 0x2 .emptyInput 0 { s.invalidate with freq := Vector.replicate 256 0 } := by
      simp [encodeStage, hcount]
    rw [hst]
    exact .cleared (by simp) rfl
  · obtain ⟨c, b, g, -, -, hgencode, hst, hshape, -, -, -, htree, -⟩ := encodeStage_tables hpos hcap
    have hg : g = { b with codeLen := g.codeLen, codeBits := g.codeBits, codesValid := g.codesValid } := by
      have hframe := gencodeStage_frame b
      rwa [hgencode] at hframe
    have hsingle : g.single = true → g.numSyms = 1 := by
      rw [hg]
      exact hshape.numSyms_of_single
    have htables : (packStage g).completion.tables = g.tables :=
      (Result.completion_tables _).trans (packStage_tables g)
    simp only [State.tables, Prod.mk.injEq] at htables
    obtain ⟨-, htreeEq, -, hsingleEq, hsymsEq, -⟩ := htables
    rw [hst]
    refine .built (by simp) (htreeEq.trans htree) (fun _ => rfl) ?_
    rw [hsingleEq, hsymsEq]
    exact hsingle

theorem command_flags (i : Instr) (s : State) : CommandFlags i s (stageOf i s).completion := by
  cases i with
  | clear => exact .cleared (by simp) rfl
  | count =>
    rcases countStage_cases s with ⟨-, hst⟩ | ⟨-, hst⟩ | ⟨-, -, hst⟩ <;> rw [stageOf, hst]
    · exact .kept rfl
    · exact .cleared (by simp) rfl
    · exact .cleared (by simp) rfl
  | build =>
    by_cases hp : s.presentSymbols = []
    · rw [stageOf, buildStage_empty hp]
      exact .cleared (by simp) rfl
    · obtain ⟨t, hst, ht, hshape, -⟩ := buildStage_tree s hp
      have hcodes : t.codesValid = false := by rw [ht]
      rw [stageOf, hst]
      exact .built (by simp) (by rw [Result.completion_ok, complete_treeValid, ht])
        (fun hv => by simp [hcodes] at hv) hshape.numSyms_of_single
  | gencode =>
    rcases gencodeStage_cases s with hst | ⟨lens, bits, hst⟩ | ⟨info, lens, bits, hst⟩ <;> rw [stageOf, hst]
    · exact .kept rfl
    · exact .coded rfl rfl rfl
    · exact .uncoded rfl rfl rfl
  | pack => exact .kept (flags_of_tables ((Result.completion_tables _).trans (packStage_tables s)))
  | unpack => exact .kept (flags_of_tables ((Result.completion_tables _).trans (unpackStage_tables s)))
  | encode => exact encodeStage_flags s

/-- The engine's turn ends the command in flight, one of the list. -/
def Completes (s t : State) (is : List Instr) : Prop :=
  s.EngineNext ∧ s.seq = .busy ∧ t.seq = .idle ∧ t.done = true ∧ ∃ i, i ∈ is ∧ decode s.curCmd = .command i

theorem Completes.mono {s t : State} {is is' : List Instr} (h : Completes s t is) (hsub : ∀ i ∈ is, i ∈ is') :
    Completes s t is' := by
  obtain ⟨hnext, hbusy, hseq, hdone, i, hi, hdec⟩ := h
  exact ⟨hnext, hbusy, hseq, hdone, i, hsub i hi, hdec⟩

/-- What may clear all three flags (10_state.md R31; 70_reset_and_hazards.md R200). -/
def Invalidated (s t : State) : Prop :=
  Completes s t [.clear, .count, .build, .encode] ∨
  (s.seq = .idle ∧ ∃ x v rest,
    s.agenda = .bus (.write (BitVec.ofNat 26 (0x400 + 4 * (x : Symbol).toNat)) .four v) :: rest) ∨
  ∃ rest, s.agenda = .reset :: rest

/-- What a step can do to the validity flags, with its cause. -/
inductive FlagsEffect (s t : State) : Prop
  | kept (hflags : t.flags = s.flags)
  | cleared (hcause : Invalidated s t) (hflags : t.flags = (false, false, false))
  | built (hcause : Completes s t [.build, .encode]) (htree : t.treeValid = true)
      (hcodes : t.codesValid = true → Completes s t [.encode]) (hsingle : t.single = true → t.numSyms = 1)
  | coded (hcause : Completes s t [.gencode]) (hflags : t.flags = (s.treeValid, true, s.single))
      (herr : t.errCode = .none)
  | uncoded (hcause : Completes s t [.gencode]) (hflags : t.flags = (s.treeValid, false, s.single))
      (herr : t.errCode = .corruptTree)

/-- In a step that completes command i, what i does to the flags is what the step does. -/
theorem CommandFlags.flagsEffect {i : Instr} {s t : State} (rest : List Turn) (hcause : Completes s t [i])
    (h : CommandFlags i { s with agenda := rest } t) : FlagsEffect s t := by
  have hmono {is : List Instr} (hi : i ∈ is) : Completes s t is := hcause.mono (by simpa using hi)
  cases h with
  | kept hflags => exact .kept hflags
  | cleared hi hflags => exact .cleared (.inl (hmono hi)) hflags
  | built hi htree hcodes hsingle => exact .built (hmono hi) htree (fun hv => hcodes hv ▸ hcause) hsingle
  | coded hi hflags herr => exact .coded (hi ▸ hcause) hflags herr
  | uncoded hi hflags herr => exact .uncoded (hi ▸ hcause) hflags herr

theorem TurnEffect.flagsEffect {s t : State} (h : TurnEffect s t) : FlagsEffect s t := by
  cases h with
  | command rest i hnext hbusy hdec =>
    exact (command_flags i _).flagsEffect rest
      ⟨hnext, hbusy, Result.completion_seq _, Result.completion_done _, i, List.mem_singleton_self i, hdec⟩
  | bus rest tx u response hagenda heffect =>
    cases heffect with
    | freq hidle x v => exact .cleared (.inr (.inl ⟨hidle, x, v, rest, hagenda⟩)) rfl
    | _ => exact .kept rfl
  | reset rest hagenda => exact .cleared (.inr (.inr ⟨rest, hagenda⟩)) rfl
  | _ => exact .kept rfl

/-- Settles O59: each clause from the five things a step can do to the flags. -/
theorem validityFlagsChangeOnlyAsStated : Obligations.ValidityFlagsChangeOnlyAsStated := by
  intro s t hstep completes invalidated
  cases (step_turnEffect hstep).flagsEffect with
  | kept hflags =>
    obtain ⟨htree, hcodes, hsingle⟩ :
        t.treeValid = s.treeValid ∧ t.codesValid = s.codesValid ∧ t.single = s.single := by
      simpa [State.flags] using hflags
    simp +contextual [htree, hcodes, hsingle]
  | cleared hcause hflags =>
    obtain ⟨htree, hcodes, hsingle⟩ : t.treeValid = false ∧ t.codesValid = false ∧ t.single = false := by
      simpa [State.flags] using hflags
    refine ⟨fun _ ht => ?_, fun _ _ => hcause, fun _ ht => ?_, fun _ _ => .inl hcause, fun _ ht => ?_,
      fun _ _ => hcause⟩
    · simp [htree] at ht
    · simp [hcodes] at ht
    · simp [hsingle] at ht
  | built hcause htree hcodes hsingle =>
    have hinvalidated : Invalidated s t := .inl (hcause.mono (by decide))
    exact ⟨fun _ _ => hcause, fun _ _ => hinvalidated, fun _ ht => .inl (hcodes ht), fun _ _ => .inl hinvalidated,
      fun _ ht => ⟨hcause, htree, hsingle ht⟩, fun _ _ => hinvalidated⟩
  | coded hcause hflags herr =>
    obtain ⟨htree, hcodes, hsingle⟩ : t.treeValid = s.treeValid ∧ t.codesValid = true ∧ t.single = s.single := by
      simpa [State.flags] using hflags
    have hset : completes [.gencode] ∧ t.errCode = .none := ⟨hcause, herr⟩
    simp +contextual [htree, hcodes, hsingle, hset]
  | uncoded hcause hflags herr =>
    obtain ⟨htree, hcodes, hsingle⟩ : t.treeValid = s.treeValid ∧ t.codesValid = false ∧ t.single = s.single := by
      simpa [State.flags] using hflags
    have hcleared : completes [.gencode] ∧ t.errCode = .corruptTree := ⟨hcause, herr⟩
    simp +contextual [htree, hcodes, hsingle, hcleared]

/-! ### IN_BUF -/

/-- Settles O60: a completion keeps IN_BUF, and of the host's turns only a store while BUSY = 0 writes a buffer. -/
theorem onlyTheHostWritesInBuf : Obligations.OnlyTheHostWritesInBuf := by
  intro s t j hp hstep hj hne
  cases step_turnEffect hstep with
  | command rest i hnext hbusy hdec =>
    refine absurd ?_ hne
    rw [Result.completion_bufferByte]
    exact stageOf_inBuf (s := { s with agenda := rest }) i hp hj
  | bus rest tx u response hagenda heffect =>
    cases heffect with
    | store hidle addr size v b k bs => exact .inl ⟨hidle, addr, size, v, rest, hagenda⟩
    | _ => exact absurd rfl hne
  | reset rest hagenda => exact .inr ⟨rest, hagenda⟩
  | _ => exact absurd rfl hne

end Sys2Proof.Machine
end

section
/-! SUPPORT. An accepted command completes (70_reset_and_hazards.md R205): how many steps may pass before SEQ is idle,
by the turns on the agenda (log 4). -/

namespace Sys2Proof.Machine

/-- Within n steps SEQ is idle. -/
def IdleWithin (n : Nat) (s : State) : Prop :=
  ∃ k t, k ≤ n ∧ Host.Core.run Sys2Proof.core k s = .next t ∧ t.seq = .idle

theorem IdleWithin.of_idle {s : State} (n : Nat) (hidle : s.seq = .idle) : IdleWithin n s :=
  ⟨0, s, Nat.zero_le n, rfl, hidle⟩

/-- The first step of a run (Host.Core.run). -/
theorem run_succ {s t : State} (k : Nat) (hstep : step s = .next t) :
    Host.Core.run Sys2Proof.core (k + 1) s = Host.Core.run Sys2Proof.core k t := by
  have hcore : Sys2Proof.core.step s = .next t := hstep
  simp only [Host.Core.run, hcore]

theorem IdleWithin.of_step {n : Nat} {s t : State} (hstep : step s = .next t) (h : IdleWithin n t) :
    IdleWithin (n + 1) s := by
  obtain ⟨k, u, hk, hrun, hidle⟩ := h
  exact ⟨k + 1, u, Nat.succ_le_succ hk, (run_succ k hstep).trans hrun, hidle⟩

/-- After the engine's turn SEQ is idle: a command in flight is completed (10_state.md R20; 60_exceptions.md R167,
R168). -/
theorem engineTurn_seq (s : State) : ∃ t, engineTurn s = .next t ∧ t.seq = .idle := by
  rcases engineTurn_cases s with ⟨hidle, hturn⟩ | ⟨-, ⟨i, -, hturn⟩ | ⟨e, -, hturn⟩⟩
  · exact ⟨s, hturn, hidle⟩
  · exact ⟨_, hturn, Result.completion_seq _⟩
  · exact ⟨_, hturn, rfl⟩

/-- The engine's step completes the command. -/
theorem State.EngineNext.idleWithin {s : State} (hnext : s.EngineNext) (n : Nat) : IdleWithin (n + 1) s := by
  obtain ⟨u, hstep⟩ : ∃ u, step s = engineTurn u := by
    rcases hnext with hnil | ⟨rest, hcons⟩
    · exact ⟨s, step_nil hnil⟩
    · exact ⟨{ s with agenda := rest }, step_cons hcons⟩
  obtain ⟨t, hturn, hidle⟩ := engineTurn_seq u
  exact .of_step (hstep.trans hturn) (.of_idle n hidle)

/-- A transaction leaves the turns still to come. -/
theorem TransactEffect.agenda {s t : State} (h : TransactEffect s t) : t.agenda = s.agenda := by cases h <;> rfl

/-- No transaction completes a command (10_state.md R28). -/
theorem TransactEffect.busy {s t : State} (h : TransactEffect s t) (hbusy : s.seq = .busy) : t.seq = .busy := by
  cases h with
  | accept => rfl
  | _ => exact hbusy

/-- While BUSY = 1 a poll gives the engine the next turn (30_encoding.md R96; log 14). -/
theorem waitTurn_engineNext {s : State} (hbusy : s.seq = .busy) : (waitTurn s).EngineNext := by
  rw [waitTurn, if_pos ((isBusy_iff s).mpr hbusy)]
  exact .inr ⟨_, rfl⟩

/-- A command in flight completes when the engine or reset has a turn, after the transactions before it; a poll brings
on the engine's turn. -/
theorem busy_idleWithin (agenda : List Turn) {s : State} (hagenda : s.agenda = agenda) (hbusy : s.seq = .busy) :
    IdleWithin (agenda.length + 2) s := by
  induction agenda generalizing s with
  | nil => exact State.EngineNext.idleWithin (.inl hagenda) 1
  | cons turn rest ih =>
    have hstep := step_cons hagenda
    cases turn with
    | engine => exact State.EngineNext.idleWithin (.inr ⟨rest, hagenda⟩) _
    | bus tx =>
      have heffect := transact_effect { s with agenda := rest } tx
      exact .of_step hstep (ih heffect.agenda (heffect.busy hbusy))
    | wait => exact .of_step hstep (waitTurn_engineNext (s := { s with agenda := rest }) hbusy |>.idleWithin _)
    | reset => exact .of_step hstep (.of_idle _ rfl)

/-- Settles O10: a step always has a next state, and a command in flight completes by its agenda. -/
theorem acceptedCommandCompletes : Obligations.AcceptedCommandCompletes := by
  intro s
  obtain ⟨t, hstep, -⟩ := step_effect s
  exact ⟨⟨t, hstep⟩, busy_idleWithin s.agenda rfl⟩

end Sys2Proof.Machine
end

section
/-! SUPPORT. Where the address map sends an access (20_memory.md R61 to R63): the unmapped ranges, the windows of words
and the buffers; and what reads and writes there leave alone (R67 to R72). -/

namespace Sys2Proof.Machine

/-! ### Unmapped ranges and windows of words -/

/-- An offset of the four unmapped ranges (20_memory.md R61). -/
theorem locate_unmapped (p : Params) {offset : Nat} (n : Nat)
    (h : (0x40 ≤ offset ∧ offset < 0x400) ∨ (0xC00 ≤ offset ∧ offset < 0x1000) ∨
      (0x3000 ≤ offset ∧ offset < 0x4000) ∨ (0x6000 ≤ offset ∧ offset < 0x01000000)) :
    locate p offset n = .error .unmapped := by
  rcases h with h | h | h | h <;> simp (disch := omega) only [locate, if_neg, if_pos]

theorem locate_regWindow (p : Params) {offset : Nat} (n : Nat) (h : offset < 0x40) :
    locate p offset n = wordAccess offset n (.reg (regTable.getD (offset / 4) .reserved)) := by
  rw [locate, if_pos h]

theorem locate_freqWindow (p : Params) {offset : Nat} (n : Nat) (h : 0x400 ≤ offset ∧ offset < 0x800) :
    ∃ x, locate p offset n = wordAccess offset n (.freq x) := by
  simp (disch := omega) only [locate, if_neg, if_pos]
  exact ⟨_, rfl⟩

theorem locate_codeLenWindow (p : Params) {offset : Nat} (n : Nat) (h : 0x800 ≤ offset ∧ offset < 0xC00) :
    ∃ x, locate p offset n = wordAccess offset n (.codeLen x) := by
  simp (disch := omega) only [locate, if_neg, if_pos]
  exact ⟨_, rfl⟩

theorem locate_codeBitsWindow (p : Params) {offset : Nat} (n : Nat) (h : 0x1000 ≤ offset ∧ offset < 0x3000) :
    ∃ x w, locate p offset n = wordAccess offset n (.codeBits x w) := by
  simp (disch := omega) only [locate, if_neg, if_pos]
  exact ⟨_, _, rfl⟩

theorem locate_nodeWindow (p : Params) {offset : Nat} (n : Nat) (h : 0x4000 ≤ offset ∧ offset < 0x6000) :
    ∃ x w, locate p offset n = wordAccess offset n (.node x w) := by
  simp (disch := omega) only [locate, if_neg, if_pos]
  exact ⟨_, _, rfl⟩

/-- The registers and the table windows take word accesses only (20_memory.md R63). -/
theorem locate_words (p : Params) {offset : Nat} (n : Nat)
    (h : offset < 0x40 ∨ (0x400 ≤ offset ∧ offset < 0xC00) ∨ (0x1000 ≤ offset ∧ offset < 0x3000) ∨
      (0x4000 ≤ offset ∧ offset < 0x6000)) :
    ∃ l, locate p offset n = wordAccess offset n l := by
  rcases h with h | h | h | h
  · exact ⟨_, locate_regWindow p n h⟩
  · by_cases hfreq : offset < 0x800
    · obtain ⟨x, hl⟩ := locate_freqWindow p n ⟨h.1, hfreq⟩
      exact ⟨_, hl⟩
    · obtain ⟨x, hl⟩ := locate_codeLenWindow p n ⟨not_lt.mp hfreq, h.2⟩
      exact ⟨_, hl⟩
  · obtain ⟨x, w, hl⟩ := locate_codeBitsWindow p n h
    exact ⟨_, hl⟩
  · obtain ⟨x, w, hl⟩ := locate_nodeWindow p n h
    exact ⟨_, hl⟩

/-! ### Accesses that get ERROR -/

theorem wordAccess_error {offset n : Nat} (l : Loc) (h : n ≠ 4 ∨ offset % 4 ≠ 0) :
    wordAccess offset n l = .error .widthOrAlignment :=
  if_neg (not_and_or.mpr h)

theorem bufferAccess_beyond {p : Params} {b : Buffer} {j n : Nat} (h : capacity p b < j + n) :
    bufferAccess p b j n = .error .unmapped :=
  if_pos h

theorem bufferAccess_misaligned {p : Params} {b : Buffer} {j n : Nat} (hcap : j + n ≤ capacity p b)
    (h : j % n ≠ 0) : bufferAccess p b j n = .error .widthOrAlignment := by
  rw [bufferAccess, if_neg (not_lt.mpr hcap), if_neg h]

theorem Size.bytes_pos (size : Size) : 1 ≤ size.bytes := by cases size <;> decide

theorem Size.bytes_le_four (size : Size) : size.bytes ≤ 4 := by cases size <;> decide

/-- Settles O41: the four unmapped ranges, and the bytes beyond a capacity. -/
theorem unmappedAccessesGetError : Obligations.UnmappedAccessesGetError := by
  intro s addr size h
  suffices hl : s.locateTx addr size = .error .unmapped from transact_error hl
  rw [State.locateTx]
  rcases h with h | h | h | h | ⟨b, hle, hlt, hcap⟩
  · exact locate_unmapped _ _ (.inl h)
  · exact locate_unmapped _ _ (.inr (.inl h))
  · exact locate_unmapped _ _ (.inr (.inr (.inl h)))
  · exact locate_unmapped _ _ (.inr (.inr (.inr h)))
  · obtain ⟨j, hj⟩ := Nat.exists_eq_add_of_le hle
    rw [hj] at hlt hcap ⊢
    rw [locate_region _ b _ (by omega)]
    exact bufferAccess_beyond (by omega)

/-- Settles O42: a word access of another width or alignment, and a misaligned access inside a buffer. -/
theorem illegalWidthOrAlignmentGetsError : Obligations.IllegalWidthOrAlignmentGetsError := by
  intro s addr size hp h
  suffices hl : s.locateTx addr size = .error .widthOrAlignment from transact_error hl
  rw [State.locateTx]
  rcases h with ⟨hwindow, hillegal⟩ | ⟨b, hle, hcap, halign⟩
  · obtain ⟨l, hl⟩ := locate_words s.params size.bytes hwindow
    rw [hl]
    exact wordAccess_error l (hillegal.imp_left fun hsize hfour => hsize (Size.eq_four hfour))
  · obtain ⟨j, hj⟩ := Nat.exists_eq_add_of_le hle
    have hmax := (capacity_le hp b).2
    have hpos := size.bytes_pos
    rw [hj, Nat.add_sub_cancel_left] at halign
    rw [hj] at hcap ⊢
    rw [locate_region _ b _ (by omega)]
    exact bufferAccess_misaligned (by omega) halign

/-! ### Read-only locations -/

/-- The locations whose writes change nothing (20_memory.md R68). -/
def Loc.readOnly : Loc → Bool
  | .reg .cmd | .reg .status | .reg .irqEn | .reg .inLen | .reg .numBits | .reg .payLen => false
  | .reg _ => true
  | .codeLen _ | .codeBits _ _ | .node _ _ => true
  | .freq _ | .buffer _ _ => false

theorem writeIdle_readOnly (s : State) (size : Size) (v : Word) {l : Loc} (h : l.readOnly = true) :
    s.writeIdle size v l = s := by
  cases l with
  | reg r =>
    cases r with
    | cmd | inLen | numBits | payLen => simp [Loc.readOnly] at h
    | _ => rfl
  | freq x => simp [Loc.readOnly] at h
  | buffer b j => simp [Loc.readOnly] at h
  | _ => rfl

/-- The offsets of the read-only registers and windows, each a read-only location (20_memory.md R61, R68). -/
theorem locate_readOnly (p : Params) {offset : Nat} (halign : offset % 4 = 0)
    (h : (∃ r ∈ [0, 1, 2, 3, 10, 11, 12, 13, 14, 15], offset = 4 * r) ∨ (0x800 ≤ offset ∧ offset < 0xC00) ∨
      (0x1000 ≤ offset ∧ offset < 0x3000) ∨ (0x4000 ≤ offset ∧ offset < 0x6000)) :
    ∃ l, locate p offset 4 = .at l ∧ l.readOnly = true := by
  rcases h with ⟨r, hr, rfl⟩ | h | h | h
  · have hreg : ∀ r ∈ [0, 1, 2, 3, 10, 11, 12, 13, 14, 15],
        r < 16 ∧ (Loc.reg (regTable.getD r .reserved)).readOnly = true := by decide
    obtain ⟨hlt, hreadOnly⟩ := hreg r hr
    exact ⟨_, locate_reg p hlt, hreadOnly⟩
  · obtain ⟨x, hl⟩ := locate_codeLenWindow p 4 h
    exact ⟨_, hl.trans (wordAccess_four _ halign), rfl⟩
  · obtain ⟨x, w, hl⟩ := locate_codeBitsWindow p 4 h
    exact ⟨_, hl.trans (wordAccess_four _ halign), rfl⟩
  · obtain ⟨x, w, hl⟩ := locate_nodeWindow p 4 h
    exact ⟨_, hl.trans (wordAccess_four _ halign), rfl⟩

/-- Settles O47: the write goes to a read-only location, which is neither STATUS nor IRQ_EN. -/
theorem readOnlyWritesAreIgnored : Obligations.ReadOnlyWritesAreIgnored := by
  intro s addr v halign h
  obtain ⟨l, hl, hreadOnly⟩ := locate_readOnly s.params halign <| by
    simp only [List.mem_cons, List.not_mem_nil, or_false, exists_eq_or_imp, exists_eq_left]
    omega
  have hstatus : l ≠ .reg .status := by rintro rfl; simp [Loc.readOnly] at hreadOnly
  have hirqEn : l ≠ .reg .irqEn := by rintro rfl; simp [Loc.readOnly] at hreadOnly
  have hwrite := transact_write (s := s) (size := .four) hl v
  refine ⟨fun hidle => ?_, fun hbusy => ?_⟩
  · rw [hwrite, writeLoc_idle hidle _ _ hstatus hirqEn, writeIdle_readOnly _ _ _ hreadOnly]
  · rw [hwrite, writeLoc_busy hbusy _ _ hstatus hirqEn]

/-! ### Reads and FREQ writes -/

/-- Settles O40: a read draws a free value or does nothing, and while BUSY = 0 it draws none. -/
theorem readsHaveNoSideEffect : Obligations.ReadsHaveNoSideEffect := by
  intro s addr size
  refine ⟨?_, fun hidle => ?_⟩
  · have heffect := transact_busEffect s (.read addr size)
    generalize (s.transact (.read addr size)).1 = t at heffect
    cases heffect with
    | nothing => rfl
    | draw => rfl
  · rcases hl : s.locateTx addr size with l | e
    · rw [transact_read_idle hidle hl]
    · rw [(transact_error hl).1]

/-- FREQ after a write to one of its entries (20_memory.md R67). -/
theorem freqAt_writeFreq (s : State) (x : Symbol) (v : Word) (y : Symbol) :
    (s.writeFreq x v).freqAt y = if y = x then v else s.freqAt y := by
  simp only [State.freqAt, writeFreq_freq, Vector.getElem_set, BitVec.toNat_inj, eq_comm]

/-- Settles O46: the write goes to FREQ[x], and writeFreq writes FREQ and the three flags. -/
theorem freqWriteInvalidates : Obligations.FreqWriteInvalidates := by
  intro s x v hidle
  have hx := x.isLt
  have hl : s.locateTx (BitVec.ofNat 26 (0x400 + 4 * x.toNat)) .four = .at (.freq x) := by
    rw [locateTx_ofNat s (by simp only [Params.window]; omega), locate_freq]
  refine ⟨s.writeFreq x v, ?_, ?_, fun y hy => ?_, rfl⟩
  · rw [transact_write hl, writeLoc_idle hidle _ _ (by simp) (by simp)]
    rfl
  · rw [freqAt_writeFreq, if_pos rfl]
  · rw [freqAt_writeFreq, if_neg hy]

end Sys2Proof.Machine
end

section
/-! SUPPORT. The bytes of a buffer access (20_memory.md R62, R66): read data and write data bit by bit, as bytes of the
buffer in rising order of offsets. -/

namespace Sys2Proof.Machine

/-! ### Words and their bytes -/

/-- Bit k of the word with the bytes f 0 to f 3 is bit k mod 8 of byte k / 8 (20_memory.md R66). -/
theorem getLsbD_bytesWord (f : Nat → Byte) (k : Nat) :
    (bytesWord (f 0) (f 1) (f 2) (f 3)).getLsbD k = (decide (k < 32) && (f (k / 8)).getLsbD (k % 8)) := by
  simp only [bytesWord, BitVec.getLsbD_append]
  rcases (by omega : k / 8 = 0 ∨ k / 8 = 1 ∨ k / 8 = 2 ∨ k / 8 = 3 ∨ 4 ≤ k / 8) with h | h | h | h | h
  · simp [h, show k < 8 by omega, show k < 32 by omega, show k % 8 = k by omega]
  · simp [h, show ¬k < 8 by omega, show k - 8 < 8 by omega, show k < 32 by omega, show k % 8 = k - 8 by omega]
  · simp [h, show ¬k < 8 by omega, show ¬k - 8 < 8 by omega, show k - 8 - 8 < 8 by omega, show k < 32 by omega,
      show k % 8 = k - 8 - 8 by omega]
  · simp [h, show ¬k < 8 by omega, show ¬k - 8 < 8 by omega, show ¬k - 8 - 8 < 8 by omega, show k < 32 by omega,
      show k % 8 = k - 8 - 8 - 8 by omega]
  · simp [show ¬k < 8 by omega, show ¬k - 8 < 8 by omega, show ¬k - 8 - 8 < 8 by omega, show ¬k < 32 by omega,
      show 8 ≤ k - 8 - 8 - 8 by omega]

/-- Byte i of the read data of a buffer access: 0 beyond the size (20_memory.md R62). -/
def State.readByte (s : State) (b : Buffer) (j : Nat) (size : Size) (i : Nat) : Byte :=
  if i < size.bytes then s.bufferByte b (j + i) else 0

theorem bufferWord_eq (s : State) (b : Buffer) (j : Nat) (size : Size) :
    s.bufferWord b j size = bytesWord (s.readByte b j size 0) (s.readByte b j size 1) (s.readByte b j size 2)
      (s.readByte b j size 3) := by
  cases size <;> rfl

/-- Read data bit by bit: the bytes of the buffer from offset j upward, the upper bits 0 (20_memory.md R62, R66). -/
theorem getLsbD_bufferWord (s : State) (b : Buffer) (j : Nat) (size : Size) (k : Nat) :
    (s.bufferWord b j size).getLsbD k =
      (decide (k < 8 * size.bytes) && (s.bufferByte b (j + k / 8)).getLsbD (k % 8)) := by
  rw [bufferWord_eq, getLsbD_bytesWord (s.readByte b j size), State.readByte]
  have hfour := size.bytes_le_four
  by_cases hk : k < 8 * size.bytes
  · rw [if_pos (by omega), decide_eq_true hk, decide_eq_true (by omega)]
  · rw [if_neg (by omega), decide_eq_false hk]
    simp

theorem extractLsb'_bufferWord (s : State) (b : Buffer) (j : Nat) {size : Size} {i : Nat} (hi : i < size.bytes) :
    (s.bufferWord b j size).extractLsb' (8 * i) 8 = s.bufferByte b (j + i) := by
  apply BitVec.eq_of_getLsbD_eq
  intro k hk
  rw [BitVec.getLsbD_extractLsb', getLsbD_bufferWord, show (8 * i + k) / 8 = i by omega,
    show (8 * i + k) % 8 = k by omega]
  simp [hk, show 8 * i + k < 8 * size.bytes by omega]

theorem getLsbD_mask (size : Size) (k : Nat) : size.mask.getLsbD k = decide (k < 8 * size.bytes) := by
  have hlow : ∀ k < 32, size.mask.getLsbD k = decide (k < 8 * size.bytes) := by cases size <;> decide
  by_cases hk : k < 32
  · exact hlow k hk
  · have hfour := size.bytes_le_four
    rw [BitVec.getLsbD_of_ge _ _ (not_lt.mp hk), decide_eq_false (by omega)]

/-- Byte i of the write data (20_memory.md R66). -/
theorem writeBytesOf_getD (v : Word) {size : Size} {i : Nat} (hi : i < size.bytes) :
    (writeBytesOf v size).getD i 0 = v.extractLsb' (8 * i) 8 := by
  cases size <;> simp only [Size.bytes] at hi <;> interval_cases i <;> rfl

/-- Bytes of a buffer that are the bytes of v are read as v, cut to the size. -/
theorem bufferWord_eq_of_bytes {s : State} {b : Buffer} {j : Nat} {size : Size} {v : Word}
    (h : ∀ i, i < size.bytes → s.bufferByte b (j + i) = v.extractLsb' (8 * i) 8) :
    s.bufferWord b j size = v &&& size.mask := by
  apply BitVec.eq_of_getLsbD_eq
  intro k hk
  rw [getLsbD_bufferWord, BitVec.getLsbD_and, getLsbD_mask, Bool.and_comm]
  by_cases hlt : k < 8 * size.bytes
  · rw [h _ (by omega), BitVec.getLsbD_extractLsb', Nat.div_add_mod]
    simp [Nat.mod_lt]
  · simp [hlt]

/-! ### Accesses of a buffer -/

/-- A buffer access in bounds and aligned, by its block offset (20_memory.md R61, R62). -/
theorem locateTx_buffer {s : State} (hp : s.params.wellFormed = true) {b : Buffer} {j : Nat} {size : Size}
    (halign : j % size.bytes = 0) (hcap : j + size.bytes ≤ capacity s.params b) :
    s.locateTx (BitVec.ofNat 26 (bufferBase b + j)) size = .at (.buffer b j) := by
  have hmax := (capacity_le hp b).2
  have hpos := size.bytes_pos
  have hbase : bufferBase b ≤ 0x03000000 := by cases b <;> decide
  rw [State.locateTx, BitVec.toNat_ofNat, Nat.mod_eq_of_lt (by omega), locate_buffer_of hp b hpos hcap halign]

/-- The bytes that a write stores, read back one by one. -/
theorem bufferByte_storeBytes_writeBytesOf (s : State) (b : Buffer) (j : Nat) (v : Word) {size : Size} {i : Nat}
    (hi : i < size.bytes) :
    (s.storeBytes b j (writeBytesOf v size)).bufferByte b (j + i) = v.extractLsb' (8 * i) 8 := by
  rw [State.bufferByte, byteAt_storeBytes, writeBytesOf_length, if_pos (by omega), ← writeBytesOf_getD v hi]
  congr 1
  omega

/-- Settles O49: the read by the bits of its data, the write by the bytes it stores and the read of those. -/
theorem bufferReadsAndWrites : Obligations.BufferReadsAndWrites := by
  intro s b j size hp hidle halign hcap
  have hl := locateTx_buffer hp halign hcap
  refine ⟨⟨s.bufferWord b j size, transact_read_idle hidle hl, fun i hi => extractLsb'_bufferWord s b j hi,
    fun k hk => ?_⟩, fun v => ?_⟩
  · rw [getLsbD_bufferWord, decide_eq_false (not_lt.mpr hk), Bool.false_and]
  · have hbytes := fun i (hi : i < size.bytes) => bufferByte_storeBytes_writeBytesOf s b j v hi
    refine ⟨s.storeBytes b j (writeBytesOf v size), ?_, rfl, hbytes, fun a ha => ?_, ?_⟩
    · rw [transact_write hl, writeLoc_idle hidle _ _ (by simp) (by simp)]
      rfl
    · rw [byteAt_storeBytes, writeBytesOf_length, if_neg (by omega)]
    · rw [transact_read_idle (s := s.storeBytes b j (writeBytesOf v size)) hidle hl, ← bufferWord_eq_of_bytes hbytes]
      rfl

end Sys2Proof.Machine
end

section
/-! SUPPORT. The decoder (30_encoding.md R86 to R90): the opcode map both ways, decoding as a test of the two fields,
and the words that name no command. -/

namespace Sys2Proof

/-! ### The opcode map -/

theorem commandOfOpcode_eq_command_iff (op : BitVec 4) (i : Instr) :
    commandOfOpcode op = .command i ↔ op = opcodeOf i := by
  cases i <;> decide +revert

theorem commandOfOpcode_eq_illegal_iff (op : BitVec 4) (e : DecodeError) :
    commandOfOpcode op = .illegal e ↔ e = .reservedOpcode ∧ (op = 0 ∨ 8 ≤ op.toNat) := by
  cases e <;> decide +revert

/-! ### Fields of a word -/

/-- A command word is RSVD above OPCODE (30_encoding.md R86). -/
theorem reservedField_append_opcodeField (w : Word) : reservedField w ++ opcodeField w = w :=
  (BitVec.extractLsb'_append_extractLsb'_eq_extractLsb' (x := w) rfl).trans BitVec.extractLsb'_eq_self

theorem eq_encode_iff (w : Word) (i : Instr) :
    w = encode i ↔ reservedField w = 0 ∧ opcodeField w = opcodeOf i := by
  refine ⟨?_, fun ⟨hreserved, hopcode⟩ => ?_⟩
  · rintro rfl
    cases i <;> exact ⟨rfl, rfl⟩
  · rw [← reservedField_append_opcodeField w, hreserved, hopcode]
    rfl

/-! ### Decoding -/

theorem decode_of_reserved_eq_zero {w : Word} (h : reservedField w = 0) :
    decode w = commandOfOpcode (opcodeField w) := if_pos h

theorem decode_of_reserved_ne_zero {w : Word} (h : reservedField w ≠ 0) :
    decode w = .illegal .reservedBits := if_neg h

theorem decode_eq_command_iff (w : Word) (i : Instr) : decode w = .command i ↔ w = encode i := by
  rw [eq_encode_iff]
  by_cases h : reservedField w = 0#28
  · rw [decode_of_reserved_eq_zero h, commandOfOpcode_eq_command_iff]
    exact (and_iff_right h).symm
  · simp [decode_of_reserved_ne_zero h, h]

@[simp] theorem decode_encode (i : Instr) : decode (encode i) = .command i := (decode_eq_command_iff _ i).mpr rfl

/-- The illegal words (30_encoding.md R90). -/
theorem exists_decode_eq_illegal_iff (w : Word) :
    (∃ e, decode w = .illegal e) ↔ reservedField w ≠ 0 ∨ opcodeField w = 0 ∨ 8 ≤ (opcodeField w).toNat := by
  by_cases h : reservedField w = 0#28
  · simp [decode_of_reserved_eq_zero h, commandOfOpcode_eq_illegal_iff, h]
  · simp [decode_of_reserved_ne_zero h, h]

theorem decodeBytes_wordBytes_append (w : Word) (rest : List Byte) :
    decodeBytes (wordBytes w ++ rest) = (decode w, rest) := by
  conv_rhs => rw [← Machine.bytesWord_wordBytes w]
  rfl

/-- Settles O1: decoding a word against a command is comparing it with the command's word, and four bytes decode as
their word. -/
theorem wordMeansCommandExactlyWhenEncoded : Obligations.WordMeansCommandExactlyWhenEncoded := by
  intro i w rest _
  refine ⟨decode_eq_command_iff w i, ?_⟩
  rw [encodeBytes, decodeBytes_wordBytes_append, decode_encode]

/-- Settles O2: the seven words are the commands' encodings, and the rest is what the two fields exclude. -/
theorem decodeIsTheOpcodeMap : Obligations.DecodeIsTheOpcodeMap := fun w =>
  ⟨decode_eq_command_iff w .clear, decode_eq_command_iff w .count, decode_eq_command_iff w .build,
    decode_eq_command_iff w .gencode, decode_eq_command_iff w .pack, decode_eq_command_iff w .unpack,
    decode_eq_command_iff w .encode, exists_decode_eq_illegal_iff w⟩

/-- Settles O3: seven of the words are encodings; the other three are evaluated. -/
theorem writtenWordsDecode : Obligations.WrittenWordsDecode :=
  ⟨decode_encode .clear, decode_encode .count, decode_encode .build, decode_encode .gencode, decode_encode .pack,
    decode_encode .unpack, decode_encode .encode, by decide, by decide, by decide⟩

end Sys2Proof
end

section
/-! SUPPORT. Turns that run no command (30_encoding.md R88, R90, R96): the completion of an illegal word, a write to
CMD, and a poll of WAIT, with the read data bit by bit while BUSY = 1 (70_reset_and_hazards.md R197). -/

namespace Sys2Proof.Machine

/-! ### An illegal word -/

/-- A busy engine's turn on an illegal word writes the completion fields only (30_encoding.md R90). -/
theorem engineTurn_illegal {s : State} {e : DecodeError} (hbusy : s.seq = .busy)
    (hdec : decode s.curCmd = .illegal e) : engineTurn s = .next (illegalCompletion s) := by
  rw [engineTurn, if_pos ((isBusy_iff s).mpr hbusy), completionStep, hdec]

/-- Settles O6: such a word is illegal, and the engine's turn is then `illegalCompletion`. -/
theorem illegalWordOnlyCompletes : Obligations.IllegalWordOnlyCompletes := by
  intro s hbusy hfields
  obtain ⟨e, hdec⟩ := (exists_decode_eq_illegal_iff s.curCmd).mpr hfields
  refine ⟨fun hnil => ?_, fun rest hcons => ?_⟩
  · rw [step_nil hnil]
    exact engineTurn_illegal hbusy hdec
  · rw [step_cons hcons]
    exact engineTurn_illegal (s := { s with agenda := rest }) hbusy hdec

/-! ### A write to CMD -/

/-- Settles O7: the write goes to CMD, which accepts it while idle and drops it while busy. -/
theorem cmdWriteIsAcceptedWhileIdle : Obligations.CmdWriteIsAcceptedWhileIdle := by
  intro s v
  have hl : s.locateTx 0x10 .four = .at (.reg .cmd) := locateTx_reg s (r := 4) (by decide)
  rw [transact_write hl]
  refine ⟨fun hidle => ?_, fun hbusy => ?_⟩
  · rw [writeLoc_idle hidle _ _ (by decide) (by decide)]
    rfl
  · rw [writeLoc_busy hbusy _ _ (by decide) (by decide)]

/-! ### Read data while BUSY = 1 -/

/-- A legal read, whatever runs: one free value is drawn unless every bit is exact (20_memory.md R64; log 3). -/
theorem transact_read_at {s : State} {addr : Offset} {size : Size} {l : Loc} (hl : s.locateTx addr size = .at l) :
    s.transact (.read addr size) =
      (if s.anyBitsNow size l = 0 then s else { s with draws := s.draws + 1 },
        { resp := .okay, rdata := some (s.readData size l) }) := by
  simp only [State.transact, State.memRead, hl]

/-- A bit of the read data is that of the free value where it is any value, and the state's elsewhere. -/
theorem getLsbD_readData (s : State) (size : Size) (l : Loc) (k : Nat) :
    (s.readData size l).getLsbD k =
      if (s.anyBitsNow size l).getLsbD k then (Config.busyDraw s.draws).getLsbD k
      else (s.readLoc size l).getLsbD k := by
  by_cases hk : k < 32
  · simp only [State.readData, BitVec.getLsbD_or, BitVec.getLsbD_and, BitVec.getLsbD_not, hk]
    cases (s.anyBitsNow size l).getLsbD k <;> simp
  · simp [BitVec.getLsbD_of_ge _ _ (not_lt.mp hk)]

/-- Of STATUS only the three validity flags are ever any value (70_reset_and_hazards.md R197). -/
theorem anyBitsNow_status_exact (s : State) {k : Nat} (hk : k < 3 ∨ 6 ≤ k) :
    (s.anyBitsNow .four (.reg .status)).getLsbD k = false := by
  rw [State.anyBitsNow]
  split
  · simp (disch := decide) only [anyBits, BitVec.getLsbD_or, getLsbD_bitAt]
    simp [show k ≠ 3 ∧ k ≠ 4 ∧ k ≠ 5 by omega]
  · exact BitVec.getLsbD_zero

/-- A STATUS read shows BUSY, whatever runs (30_encoding.md R96). -/
theorem getLsbD_readData_status_busy (s : State) :
    (s.readData .four (.reg .status)).getLsbD 0 = decide (s.seq = .busy) := by
  rw [getLsbD_readData, anyBitsNow_status_exact s (.inl (by decide))]
  exact getLsbD_statusWord s 0

/-! ### A poll of WAIT -/

theorem locateTx_status (s : State) : s.locateTx statusOffset .four = .at (.reg .status) :=
  locateTx_reg s (r := 5) (by decide)

theorem busTurn_status_response (s : State) :
    (s.busTurn (.read statusOffset .four)).response =
      some { resp := .okay, rdata := some (s.readData .four (.reg .status)) } := by
  rw [State.busTurn, transact_read_at (locateTx_status s)]

theorem busTurn_agenda (s : State) (tx : BusTx) : (s.busTurn tx).agenda = s.agenda :=
  (transact_effect s tx).agenda

/-- While SEQ = IDLE a poll is the read alone (30_encoding.md R96). -/
theorem waitTurn_idle {s : State} (hidle : s.seq = .idle) :
    waitTurn s = { s with response := some { resp := .okay, rdata := some s.statusWord } } := by
  rw [waitTurn, (isBusy_false_iff s).mpr hidle, State.busTurn, transact_read_idle hidle (locateTx_status s)]
  rfl

/-- While SEQ = BUSY the engine's turn and another poll follow the read (30_encoding.md R96; log 14). -/
theorem waitTurn_busy {s : State} (hbusy : s.seq = .busy) :
    waitTurn s = { s.busTurn (.read statusOffset .four) with agenda := .engine :: .wait :: s.agenda } := by
  rw [waitTurn, if_pos ((isBusy_iff s).mpr hbusy), busTurn_agenda]

/-- Settles O9: a poll reads STATUS, whose bit 0 is BUSY, and by SEQ goes on or ends. -/
theorem waitPollsUntilIdle : Obligations.WaitPollsUntilIdle := by
  intro s rest hcons
  refine ⟨waitTurn { s with agenda := rest }, step_cons hcons, ?_, fun hidle => ?_, fun hbusy => ?_⟩
  · obtain ⟨agenda, response, draws, hwait⟩ := waitTurn_eq { s with agenda := rest }
    rw [hwait]
  · rw [waitTurn_idle (s := { s with agenda := rest }) hidle]
    exact ⟨rfl, rfl⟩
  · rw [waitTurn_busy (s := { s with agenda := rest }) hbusy]
    refine ⟨rfl, _, busTurn_status_response _, ?_⟩
    rw [getLsbD_readData_status_busy, decide_eq_true hbusy]

end Sys2Proof.Machine
end

section
/-! SUPPORT. Reads while a command runs (70_reset_and_hazards.md R197): which commands write the state at a location
(30_encoding.md R91), where such locations stand in the address map, and the read data of each kind. -/

namespace Sys2Proof.Machine

/-! ### The commands that write a location -/

/-- The commands whose write set holds all the state that a location addresses (30_encoding.md R91). STATUS, of which
only single bits are written, has none; slot 511 of the node window is no entry of NODE (log 12). -/
def Loc.writers : Loc → List Instr
  | .freq _ => [.clear, .count, .encode]
  | .codeLen _ | .codeBits _ _ => [.clear, .gencode, .encode]
  | .node n _ => if n = 511#9 then [] else [.clear, .build, .encode]
  | .reg .numSyms | .reg .numNodes | .reg .root => [.clear, .build, .encode]
  | .reg .numBits | .reg .payLen | .buffer .payBuf _ => [.pack, .encode]
  | .reg .outLen | .buffer .outBuf _ => [.unpack]
  | .reg _ | .buffer .inBuf _ => []

/-- A location is read whole: a buffer by any size, everything else by four bytes (20_memory.md R62, R63). -/
def Loc.Takes (size : Size) (l : Loc) : Prop := size = .four ∨ ∃ b j, l = .buffer b j

theorem locateTx_takes {s : State} {addr : Offset} {size : Size} {l : Loc} (hl : s.locateTx addr size = .at l) :
    l.Takes size :=
  (locate_at hl).2.imp_left Size.eq_four

/-- While command i runs a location reads as any value where i writes it, and is exact elsewhere. -/
theorem anyBits_commandWrites (i : Instr) {size : Size} {l : Loc} (hsize : l.Takes size) (hl : l ≠ .reg .status) :
    anyBits (commandWrites i) size l = if i ∈ l.writers then size.mask else 0 := by
  cases l with
  | reg r =>
    obtain rfl : size = .four := by simpa [Loc.Takes] using hsize
    cases r with
    | status => exact absurd rfl hl
    | _ => cases i <;> rfl
  | node n w =>
    by_cases hn : n = 511#9
    · subst hn
      cases i <;> rfl
    · simp only [anyBits, Loc.writers, hn, ne_eq, not_false_eq_true, true_and, if_false]
      cases i <;> rfl
  | buffer b j => cases b <;> cases i <;> rfl
  | _ => cases i <;> rfl

/-- One of the commands is in flight. -/
def State.Runs (s : State) (is : List Instr) : Prop := ∃ i, i ∈ is ∧ decode s.curCmd = .command i

theorem writeSet_command {w : Word} {i : Instr} (h : decode w = .command i) : writeSet w = commandWrites i := by
  simp only [writeSet, decodeCommand, h]

theorem writeSet_illegal {w : Word} {e : DecodeError} (h : decode w = .illegal e) : writeSet w = [] := by
  simp only [writeSet, decodeCommand, h]

theorem anyBits_nil (size : Size) (l : Loc) : anyBits [] size l = 0 := by
  cases l with
  | reg r => cases r <;> rfl
  | buffer b j => cases b <;> rfl
  | node n w => simp [anyBits]
  | _ => rfl

theorem anyBitsNow_of_runs {s : State} {size : Size} {l : Loc} (hbusy : s.seq = .busy) (hsize : l.Takes size)
    (hl : l ≠ .reg .status) (hruns : s.Runs l.writers) : s.anyBitsNow size l = size.mask := by
  obtain ⟨i, hi, hdec⟩ := hruns
  rw [State.anyBitsNow, if_pos ((isBusy_iff s).mpr hbusy), writeSet_command hdec, anyBits_commandWrites i hsize hl,
    if_pos hi]

theorem anyBitsNow_of_not_runs {s : State} {size : Size} {l : Loc} (hbusy : s.seq = .busy) (hsize : l.Takes size)
    (hl : l ≠ .reg .status) (hruns : ¬s.Runs l.writers) : s.anyBitsNow size l = 0 := by
  rw [State.anyBitsNow, if_pos ((isBusy_iff s).mpr hbusy)]
  cases hdec : decode s.curCmd with
  | command i =>
    rw [writeSet_command hdec, anyBits_commandWrites i hsize hl, if_neg fun hi => hruns ⟨i, hi, hdec⟩]
  | illegal e => rw [writeSet_illegal hdec, anyBits_nil]

/-! ### The written ranges of the address map -/

/-- The ranges of block offsets that the write sets name (20_memory.md R61; 30_encoding.md R91), each with a property of
the commands that write there. -/
def WrittenRange (runs : List Instr → Prop) (offset : Nat) : Prop :=
  let within (a b : Nat) : Prop := a ≤ offset ∧ offset < b
  (within 0x400 0x800 ∧ runs [.clear, .count, .encode]) ∨
  ((within 0x800 0xC00 ∨ within 0x1000 0x3000) ∧ runs [.clear, .gencode, .encode]) ∨
  ((within 0x4000 0x5FF0 ∨ within 0x30 0x3C) ∧ runs [.clear, .build, .encode]) ∨
  ((within 0x20 0x28 ∨ within 0x02000000 0x03000000) ∧ runs [.pack, .encode]) ∨
  ((within 0x28 0x2C ∨ within 0x03000000 0x04000000) ∧ runs [.unpack])

/-- Register r stands at offset 4r (10_state.md R23). -/
theorem runs_writers_reg_iff {runs : List Instr → Prop} (hnil : ¬runs []) {r : Nat} (hr : r < 16) :
    runs (Loc.reg (regTable.getD r .reserved)).writers ↔ WrittenRange runs (4 * r) := by
  interval_cases r <;> simp [WrittenRange, regTable, Loc.writers, hnil]

/-- Where an access goes, the ranges name the commands that write there. -/
theorem runs_writers_iff {runs : List Instr → Prop} (hnil : ¬runs []) {p : Params} {offset n : Nat} {l : Loc}
    (h : locate p offset n = .at l) : runs l.writers ↔ WrittenRange runs offset := by
  have hword {l' : Loc} (hat : wordAccess offset n l' = .at l) (hl' : runs l'.writers ↔ WrittenRange runs offset) :
      runs l.writers ↔ WrittenRange runs offset := by
    obtain ⟨-, -, rfl⟩ := wordAccess_at hat
    exact hl'
  rw [locate] at h
  rcases ite_cases h with ⟨hlt, hat⟩ | ⟨-, h⟩
  · obtain ⟨-, halign, rfl⟩ := wordAccess_at hat
    have hoffset : 4 * (offset / 4) = offset := by omega
    have hreg := runs_writers_reg_iff hnil (r := offset / 4) (by omega)
    rwa [hoffset] at hreg
  rcases ite_cases h with ⟨-, herr⟩ | ⟨hge, h⟩
  · simp at herr
  rcases ite_cases h with ⟨hlt, hat⟩ | ⟨hge, h⟩
  · exact hword hat (by grind [WrittenRange, Loc.writers])
  rcases ite_cases h with ⟨hlt, hat⟩ | ⟨-, h⟩
  · exact hword hat (by grind [WrittenRange, Loc.writers])
  rcases ite_cases h with ⟨-, herr⟩ | ⟨hge, h⟩
  · simp at herr
  rcases ite_cases h with ⟨hlt, hat⟩ | ⟨-, h⟩
  · exact hword hat (by grind [WrittenRange, Loc.writers])
  rcases ite_cases h with ⟨-, herr⟩ | ⟨hge, h⟩
  · simp at herr
  rcases ite_cases h with ⟨hlt, hat⟩ | ⟨-, h⟩
  · have hlast : BitVec.ofNat 9 ((offset - 0x4000) / 16) = 511#9 ↔ 0x5FF0 ≤ offset := by
      rw [← BitVec.toNat_inj, BitVec.toNat_ofNat, BitVec.toNat_ofNat]
      omega
    generalize BitVec.ofNat 9 ((offset - 0x4000) / 16) = x at hat hlast
    exact hword hat (by grind [WrittenRange, Loc.writers])
  rcases ite_cases h with ⟨-, herr⟩ | ⟨hge, h⟩
  · simp at herr
  rcases ite_cases h with ⟨hlt, hat⟩ | ⟨hpay, h⟩
  · obtain rfl := bufferAccess_at hat
    grind [WrittenRange, Loc.writers]
  rcases ite_cases h with ⟨hlt, hat⟩ | ⟨hout, h⟩
  · obtain rfl := bufferAccess_at hat
    grind [WrittenRange, Loc.writers]
  rcases ite_cases h with ⟨hlt, hat⟩ | ⟨-, herr⟩
  · obtain rfl := bufferAccess_at hat
    grind [WrittenRange, Loc.writers]
  · simp at herr

/-! ### The read data of a written location -/

/-- Read data has no bit beyond the size of the read (20_memory.md R62). -/
theorem readLoc_and_not_mask (s : State) {size : Size} {l : Loc} (hsize : l.Takes size) :
    s.readLoc size l &&& ~~~size.mask = 0#32 := by
  rcases hsize with rfl | ⟨b, j, rfl⟩
  · exact BitVec.and_zero
  · apply BitVec.eq_of_getLsbD_eq
    intro k hk
    rw [BitVec.getLsbD_and, BitVec.getLsbD_not, getLsbD_mask, State.readLoc, getLsbD_bufferWord]
    cases decide (k < 8 * size.bytes) <;> simp

/-- A read whose bits are all any value returns a free value of its width (70_reset_and_hazards.md R197; log 3). -/
theorem transact_read_any {s : State} {addr : Offset} {size : Size} {l : Loc} (hl : s.locateTx addr size = .at l)
    (hany : s.anyBitsNow size l = size.mask) :
    s.transact (.read addr size) = ({ s with draws := s.draws + 1 },
      { resp := .okay, rdata := some (Config.busyDraw s.draws &&& size.mask) }) := by
  have hmask : size.mask ≠ 0 := by cases size <;> decide
  rw [transact_read_at hl, State.readData, hany, if_neg hmask, readLoc_and_not_mask s (locateTx_takes hl),
    BitVec.zero_or]

/-- What a location other than STATUS holds does not depend on SEQ. -/
theorem readLoc_settled (s : State) (size : Size) {l : Loc} (hl : l ≠ .reg .status) :
    State.readLoc { s with seq := .idle } size l = s.readLoc size l := by
  cases l with
  | reg r =>
    cases r with
    | status => exact absurd rfl hl
    | _ => rfl
  | buffer b j => cases size <;> rfl
  | _ => rfl

/-- Settles O52: the location of the read decides, by the commands that write it; without one the read is an ERROR. -/
theorem busyReads : Obligations.BusyReads := by
  intro s addr size hbusy hstatus settled runs within written
  rcases hl : s.locateTx addr size with l | e
  · have hne : l ≠ .reg .status := by
      rintro rfl
      exact hstatus (locateTx_word hl (by simp))
    have hsize := locateTx_takes hl
    have hsettled : settled = { resp := .okay, rdata := some (s.readLoc size l) } := by
      rw [← readLoc_settled s size hne]
      exact congrArg Prod.snd (transact_read_idle (s := { s with seq := .idle }) rfl hl)
    have hwritten : s.Runs l.writers ↔ written := runs_writers_iff (by simp [State.Runs]) hl
    refine ⟨fun _ hw => ?_, fun hexact => ?_⟩
    · rw [transact_read_any hl (anyBitsNow_of_runs hbusy hsize hne (hwritten.mpr hw))]
      cases size with
      | four => rw [show Size.mask .four = BitVec.allOnes 32 from rfl, BitVec.and_allOnes]
      | _ => rfl
    · have hw : ¬written := hexact.resolve_left (by simp [hsettled])
      rw [hsettled, transact_read_exact hl (anyBitsNow_of_not_runs hbusy hsize hne (hw ∘ hwritten.mp))]
  · have hread := (transact_error hl).1
    have hsettled : settled = { resp := .error, rdata := some 0 } :=
      congrArg Prod.snd (transact_error (s := { s with seq := .idle }) hl).1
    refine ⟨fun hokay => ?_, fun _ => ?_⟩
    · simp [hsettled] at hokay
    · rw [hread, hsettled]

end Sys2Proof.Machine
end

section
/-! SUPPORT. CLEAR and COUNT (40_frequency_table.md): the tables they leave, the frame of their completions, and the
counts of the input. -/

namespace Sys2Proof.Machine

theorem raised_raise (op : BitVec 4) (e : ErrorCode) (info : Word) (s : State) :
    Raised (raise op e info s) op e info := ⟨rfl, rfl, rfl, rfl, rfl⟩

/-! ### CLEAR -/

theorem arenaAt_replicate_empty (n : NodeIx) : arenaAt (Vector.replicate 511 .empty) n = .empty := by
  rw [arenaAt]
  split
  · exact Vector.getElem_replicate _
  · rfl

/-- Settles O14: CLEAR's stage fills every table with its empty entry, and its frame is that of its write set. -/
theorem clearEmptiesEveryTable : Obligations.ClearEmptiesEveryTable := by
  intro s
  have hentry {α : Type} (a : α) (x : Symbol) : (Vector.replicate 256 a)[x.toNat]'x.isLt = a :=
    Vector.getElem_replicate x.isLt
  exact ⟨(clearStage s).completion, exec_eq .clear s, completed_complete _,
    fun x => ⟨hentry 0 x, hentry 0 x, hentry 0 x⟩, arenaAt_replicate_empty, rfl, rfl, rfl, rfl, rfl, rfl,
    Result.completion_keepsAllBut (clearStage_keeps s), rfl, Result.completion_keepsBytes (clearStage_keepsBytes s)⟩

/-! ### How COUNT ends, by the length of the input -/

theorem countStage_overflow {s : State} (h : s.params.inCap < s.inLen.toNat) :
    countStage s = .err 0x2 .capacity s.inLen s := by
  rcases countStage_cases s with ⟨-, hst⟩ | ⟨hzero, -⟩ | ⟨-, hcap, -⟩
  · exact hst
  · omega
  · omega

theorem countStage_empty {s : State} (h : s.inLen.toNat = 0) :
    countStage s = .err 0x2 .emptyInput 0 { s.invalidate with freq := Vector.replicate 256 0 } := by
  rcases countStage_cases s with ⟨hover, -⟩ | ⟨-, hst⟩ | ⟨hpos, -⟩
  · omega
  · exact hst
  · omega

theorem countStage_counted {s : State} (hpos : 1 ≤ s.inLen.toNat) (hcap : s.inLen.toNat ≤ s.params.inCap) :
    countStage s = .ok { s.invalidate with freq := countBytes (s.bufferBytes .inBuf s.inLen.toNat) } := by
  rcases countStage_cases s with ⟨hover, -⟩ | ⟨hzero, -⟩ | ⟨-, -, hst⟩
  · omega
  · omega
  · exact hst

/-- However COUNT ends, what is outside its write set is as before (30_encoding.md R91). -/
theorem countStage_completion_frame (s : State) :
    KeepsAllBut countWrites s (countStage s).completion ∧ (countStage s).completion.toDo = s.toDo ∧
      KeepsBytes s (countStage s).completion :=
  ⟨Result.completion_keepsAllBut (countStage_stageFrame s).items,
    (Result.completion_toDo _).trans (stageOf_toDo (i := .count) s (by decide) (by decide)),
    Result.completion_keepsBytes (countStage_keepsBytes s)⟩

/-- Settles O16: the two errors of COUNT's stage, and the frame of its completion. -/
theorem countRefusesInOrder : Obligations.CountRefusesInOrder := by
  intro s
  refine ⟨fun hover => ?_, fun hzero => ?_⟩
  · rw [exec_eq, stageOf, countStage_overflow hover]
    rfl
  · have hframe := countStage_completion_frame s
    rw [countStage_empty hzero] at hframe
    exact ⟨_, (exec_next_iff .count s _).mpr (congrArg Result.completion (countStage_empty hzero)),
      raised_raise _ _ _ _, fun x => Vector.getElem_replicate x.isLt, rfl, rfl, rfl, hframe⟩

/-- Settles O17: COUNT of an input that fits ends in one of two states, for no input and for some, and FREQ is replaced
in both without being read. -/
theorem countForgetsOldCounts : Obligations.CountForgetsOldCounts := by
  intro s old hcap
  rw [exec_eq, exec_eq, stageOf]
  rcases Nat.eq_zero_or_pos s.inLen.toNat with hzero | hpos
  · rw [countStage_empty hzero, countStage_empty (s := { s with freq := old }) hzero]
    rfl
  · rw [countStage_counted hpos hcap, countStage_counted (s := { s with freq := old }) hpos hcap]
    rfl

/-! ### The counts of the input -/

theorem count_bufferBytes (s : State) (b : Buffer) (n : Nat) (x : Symbol) :
    (s.bufferBytes b n).count x = ((List.range n).filter fun j => decide (s.bufferByte b j = x)).length := by
  rw [State.bufferBytes, List.count_eq_countP, List.countP_map, List.countP_eq_length_filter]
  rfl

theorem allSymbols_nodup : allSymbols.Nodup :=
  allSymbols_sorted.imp fun hlt heq => by simp [heq] at hlt

/-- Counting a list by the elements of another that has each of them once: the counts add up to its length. -/
theorem sum_count_of_nodup {α : Type} [DecidableEq α] {keys : List α} (hkeys : keys.Nodup) {l : List α}
    (hl : ∀ x ∈ l, x ∈ keys) : (keys.map fun x => l.count x).sum = l.length := by
  rw [← List.sum_toFinset _ hkeys]
  simpa using Multiset.sum_count_eq_card (m := (l : Multiset α)) fun x hx => List.mem_toFinset.mpr (hl x hx)

/-- Settles O15: COUNT's stage tallies the IN_LEN bytes of the input from zero, and each of them adds one to the
entry of one symbol. -/
theorem countCountsTheInput : Obligations.CountCountsTheInput := by
  intro s hpos hcap
  have hstage := countStage_counted hpos hcap
  have hframe := countStage_completion_frame s
  rw [hstage] at hframe
  have hlen := bufferBytes_length s .inBuf s.inLen.toNat
  have hcount (x : Symbol) := countBytes_toNat (hlen.trans_lt s.inLen.isLt) x
  refine ⟨_, (exec_next_iff .count s _).mpr (congrArg Result.completion hstage), completed_complete _,
    fun x => (hcount x).trans (count_bufferBytes s .inBuf _ x), ?_, rfl, rfl, rfl, hframe⟩
  calc ((List.range 256).map fun x => (State.freqAt _ (BitVec.ofNat 8 x)).toNat).sum
      = (allSymbols.map fun x => (s.bufferBytes .inBuf s.inLen.toNat).count x).sum := by
        rw [allSymbols, List.map_map]
        exact congrArg List.sum (List.map_congr_left fun x _ => hcount (BitVec.ofNat 8 x))
    _ = s.inLen.toNat := (sum_count_of_nodup allSymbols_nodup fun x _ => mem_allSymbols x).trans hlen

end Sys2Proof.Machine
end

section
/-! SUPPORT. BUILD by the frequency table alone (41_tree_builder.md R117, R120): how its stage ends with and without a
symbol present, and the number of symbols as NUM_SYMS holds it. -/

namespace Sys2Proof.Machine

/-! ### The symbols present, from FREQ -/

theorem presentSymbols_eq_nil_iff (s : State) : s.presentSymbols = [] ↔ ∀ x, s.freqAt x = 0 := by
  simp [List.eq_nil_iff_forall_not_mem, mem_presentSymbols]

theorem presentSymbols_congr {s u : State} (h : s.freqAt = u.freqAt) : s.presentSymbols = u.presentSymbols := by
  rw [State.presentSymbols, State.presentSymbols, h]

/-- The symbols present are as many as the numbers below 256 whose entry is not 0. -/
theorem presentSymbols_length (s : State) :
    s.presentSymbols.length = ((List.range 256).filter fun x => decide (s.freqAt (BitVec.ofNat 8 x) ≠ 0)).length := by
  rw [State.presentSymbols, allSymbols, List.filter_map, List.length_map]
  exact congrArg List.length (List.filter_congr fun x _ => Bool.eq_iff_iff.mpr (by simp))

/-! ### How BUILD ends with a symbol present -/

/-- What BUILD leaves, read off the finished tree; FREQ is all it looks at (41_tree_builder.md R111). -/
theorem buildStage_present {s : State} (h : s.presentSymbols ≠ []) :
    buildStage s = .ok { s.invalidate with
      node := arenaOf (buildTree s.freqAt s.presentSymbols).nodes
      root := (buildTree s.freqAt s.presentSymbols).toDo.headD 0
      toDo := []
      numSyms := BitVec.ofNat 9 s.presentSymbols.length
      numNodes := BitVec.ofNat 9 (buildTree s.freqAt s.presentSymbols).nodes.length
      treeValid := true
      single := decide (s.presentSymbols.length = 1) } := by
  rw [buildStage, if_neg fun hlen => h (List.length_eq_zero_iff.mp hlen)]

/-- NUM_SYMS is exact: 9 bits hold the 256 symbols (10_state.md R35). -/
theorem buildStage_numSyms {s t : State} (h : s.presentSymbols ≠ []) (hst : buildStage s = .ok t) :
    t.numSyms.toNat = s.presentSymbols.length := by
  obtain rfl := Result.ok.inj (hst.symm.trans (buildStage_present h))
  exact (BitVec.toNat_ofNat _ _).trans (Nat.mod_eq_of_lt ((presentSymbols_length_le s).trans_lt (by decide)))

/-! ### The statements about BUILD -/

/-- Settles O19: the shape of the tree BUILD's stage leaves has the node numbers and the weights, beside the order of
its merges, and its completion touches neither. -/
theorem buildMergesTheTwoLeast : Obligations.BuildMergesTheTwoLeast := by
  intro s k hk hpos
  rw [← presentSymbols_length] at hk
  have hpresent : s.presentSymbols ≠ [] := List.ne_nil_of_length_pos (by omega)
  obtain ⟨t, hst, -, hshape, hmerges⟩ := buildStage_tree s hpresent
  have hsyms : t.numSyms.toNat = k := (buildStage_numSyms hpresent hst).trans hk.symm
  have hnodes : t.numNodes.toNat = 2 * k - 1 := hsyms ▸ hshape.nodes
  have hroot : t.root.toNat = 2 * k - 2 := by rw [hshape.root, hnodes, Nat.sub_sub]
  have hcompletion : (buildStage s).completion = complete t := by rw [hst, Result.completion_ok]
  refine ⟨complete t, (exec_next_iff .build s _).mpr hcompletion, hsyms, hnodes, hroot, hmerges, fun m hge hlt => ?_⟩
  obtain ⟨left, right, w, hm, -, -, -, hw⟩ := hshape.internals m (hsyms ▸ hge) (hnodes ▸ hlt)
  exact ⟨left, right, w, hm, hw⟩

/-- Settles O20: BUILD's stage without a symbol, and the frame of its completion. -/
theorem buildOfNothingIsEmptyInput : Obligations.BuildOfNothingIsEmptyInput := by
  intro s hzero
  have hst := buildStage_empty ((presentSymbols_eq_nil_iff s).mpr hzero)
  have hkeeps := Result.completion_keepsAllBut (buildStage_stageFrame s).items
  have hbytes := Result.completion_keepsBytes (buildStage_keepsBytes s)
  rw [hst] at hkeeps hbytes
  exact ⟨_, (exec_next_iff .build s _).mpr (congrArg Result.completion hst), raised_raise _ _ _ _,
    arenaAt_replicate_empty, rfl, rfl, rfl, rfl, rfl, rfl, hkeeps, rfl, hbytes⟩

/-- Settles O21: both ways for BUILD's stage to end give the tree registers from FREQ alone, and FREQ decides between
them. -/
theorem buildIsAFunctionOfFreq : Obligations.BuildIsAFunctionOfFreq := by
  intro s u heq
  have hfreq : s.freqAt = u.freqAt := funext heq
  have hsyms := presentSymbols_congr hfreq
  refine ⟨_, _, exec_eq .build s, exec_eq .build u, ?_⟩
  rw [stageOf]
  by_cases hu : u.presentSymbols = []
  · rw [buildStage_empty hu, buildStage_empty (hsyms.trans hu)]
    exact ⟨rfl, rfl, rfl, rfl, rfl, rfl, rfl, rfl⟩
  · rw [buildStage_present hu, buildStage_present (hsyms ▸ hu), hfreq, hsyms]
    exact ⟨rfl, rfl, rfl, rfl, rfl, rfl, rfl, rfl⟩

end Sys2Proof.Machine
end

section
/-! SUPPORT. The code generator (42_code_generator.md): how GENCODE ends, what its table holds in any arena, and which
errors a command may raise while a valid tree has its shape. -/

namespace Sys2Proof.Machine

/-! ### How GENCODE ends -/

theorem gencodeStage_invalid {s : State} (h : s.treeValid = false) : gencodeStage s = .err 0x4 .sequence 0 s := by
  rw [gencodeStage, if_neg (by simp [h])]

theorem gencodeStage_corrupt {s : State} {sym : Symbol} (hv : s.treeValid = true) (h : findCodes s = .corrupt sym) :
    gencodeStage s = .err 0x4 .corruptTree (sym.setWidth 32) { s with
      codeLen := Vector.replicate 256 0
      codeBits := Vector.replicate 256 0
      codesValid := false } := by
  rw [gencodeStage, if_pos hv, h]

/-- However GENCODE ends, what is outside its write set is as before (30_encoding.md R91). -/
theorem gencodeStage_completion_frame (s : State) :
    KeepsAllBut gencodeWrites s (gencodeStage s).completion ∧ (gencodeStage s).completion.toDo = s.toDo ∧
      KeepsBytes s (gencodeStage s).completion :=
  ⟨Result.completion_keepsAllBut (gencodeStage_stageFrame s).items,
    (Result.completion_toDo _).trans (stageOf_toDo (i := .gencode) s (by decide) (by decide)),
    Result.completion_keepsBytes (gencodeStage_keepsBytes s)⟩

/-- Settles O22: the codes GENCODE's stage commits in a tree of its shape, which its completion does not touch, and the
frame of the stage. -/
theorem gencodeGivesThePaths : Obligations.GencodeGivesThePaths := by
  intro s hv hshape
  obtain ⟨t, hst, ht, hmatch⟩ := gencodeStage_codes hv hshape
  have hcompletion : (gencodeStage s).completion = complete t := by rw [hst, Result.completion_ok]
  have hframe := hcompletion ▸ gencodeStage_completion_frame s
  exact ⟨complete t, (exec_next_iff .gencode s _).mpr hcompletion, completed_complete t,
    by rw [complete_codesValid, ht], hmatch.congr rfl rfl rfl rfl rfl, hframe⟩

/-! ### The codes found in any arena -/

/-- In a one-symbol tree codes are found at a LEAF root only, for its symbol (42_code_generator.md R125; log 10). -/
theorem findCodes_single {s : State} {table : Symbol → List Bool} (hs : s.single = true)
    (h : findCodes s = .codes table) :
    ∃ x w, s.nodeAt s.root = .leaf x w ∧ table = fun y => if y = x then [false] else [] := by
  rw [findCodes, if_pos hs] at h
  cases hroot : s.nodeAt s.root with
  | leaf x w => exact ⟨x, w, rfl, by simpa [hroot, eq_comm] using h⟩
  | internal => simp [hroot] at h
  | empty => simp [hroot] at h

/-- With two symbols or more codes are found by the walk of every symbol of a LEAF below NUM_SYMS, and for no other
symbol (42_code_generator.md R123). -/
theorem findCodes_walks {s : State} {table : Symbol → List Bool} (hs : s.single = false)
    (h : findCodes s = .codes table) (x : Symbol) :
    if s.isLeafSymbol x = true then walkCode s.nodeAt x 255 s.root = some (table x) else table x = [] := by
  rw [findCodes, if_neg (by simp [hs])] at h
  simpa only [mem_allSymbols, true_and] using walkAll_inv s allSymbols _ table allSymbols_nodup h x

/-- The code of a LEAF's symbol is its walk's, which fits the code table and leads to a LEAF of that symbol. -/
theorem findCodes_leaf {s : State} {table : Symbol → List Bool} (hs : s.single = false)
    (h : findCodes s = .codes table) {x : Symbol} (hx : s.isLeafSymbol x = true) :
    (table x).length ≤ 255 ∧ LeadsTo s (table x) x := by
  have hwalk := findCodes_walks hs h x
  rw [if_pos hx] at hwalk
  exact walkCode_sound s.nodeAt x 255 s.root (table x) hwalk

theorem findCodes_absent {s : State} {table : Symbol → List Bool} (hs : s.single = false)
    (h : findCodes s = .codes table) {x : Symbol} (hx : ¬s.isLeafSymbol x = true) : table x = [] := by
  have hwalk := findCodes_walks hs h x
  rwa [if_neg hx] at hwalk

/-- Every code found fits the code table, in any arena (10_state.md R41). -/
theorem findCodes_length_le {s : State} {table : Symbol → List Bool} (h : findCodes s = .codes table) (x : Symbol) :
    (table x).length ≤ 255 := by
  cases hs : s.single with
  | true =>
    obtain ⟨y, w, -, rfl⟩ := findCodes_single hs h
    dsimp only
    split <;> simp
  | false =>
    by_cases hx : s.isLeafSymbol x = true
    · exact (findCodes_leaf hs h hx).1
    · simp [findCodes_absent hs h hx]

/-- Codes found in a valid tree are committed whole and read back as they were found; the tree is as before
(42_code_generator.md R123, R127). -/
theorem gencodeStage_found {s : State} {table : Symbol → List Bool} (hv : s.treeValid = true)
    (h : findCodes s = .codes table) :
    ∃ t, gencodeStage s = .ok t ∧ t.codesValid = true ∧ t.root = s.root ∧ t.nodeAt = s.nodeAt ∧
      ∀ x, t.codeOf x = table x ∧ (t.codeLenAt x = 0 ↔ table x = []) := by
  refine ⟨{ s with
    codeLen := tabulate 256 fun i => BitVec.ofNat 8 (table (BitVec.ofNat 8 i)).length
    codeBits := tabulate 256 fun i => codeWord (table (BitVec.ofNat 8 i))
    codesValid := true }, ?_, rfl, rfl, rfl, fun x => stored_codes (findCodes_length_le h) rfl rfl x⟩
  rw [gencodeStage, if_pos hv, h]

/-- Settles O23: the codes found are committed, a code being "0" or its walk's; a symbol that cannot be placed leaves a
table of zeros. -/
theorem gencodeCommitsAllOrNothing : Obligations.GencodeCommitsAllOrNothing := by
  intro s hv
  obtain ⟨hkeeps, -, hbytes⟩ := gencodeStage_completion_frame s
  refine ⟨_, exec_eq .gencode s, ?_, hkeeps, hbytes⟩
  rw [stageOf]
  cases hfind : findCodes s with
  | corrupt sym =>
    rw [gencodeStage_corrupt hv hfind]
    exact .inr ⟨rfl, rfl, rfl, fun x => ⟨Vector.getElem_replicate x.isLt, Vector.getElem_replicate x.isLt⟩⟩
  | codes table =>
    obtain ⟨t, hst, hvalid, hroot, hnode, hstored⟩ := gencodeStage_found hv hfind
    rw [hst, Result.completion_ok]
    refine .inl ⟨completed_complete t, hvalid, fun hs => ?_, fun hs => ⟨fun n x w hn hleaf => ?_, fun x hx => ?_⟩⟩
    · obtain ⟨x, w, hx, rfl⟩ := findCodes_single hs hfind
      exact ⟨x, w, hx, (hstored x).1.trans (if_pos rfl), fun y hy => (hstored y).2.mpr (if_neg hy)⟩
    · have hpath := (findCodes_leaf hs hfind ((isLeafSymbol_iff s x).mpr ⟨n, hn, w, hleaf⟩)).2
      rw [LeadsTo, ← hroot, ← hnode, ← (hstored x).1] at hpath
      exact hpath
    · refine (hstored x).2.mpr (findCodes_absent hs hfind fun hx' => ?_)
      obtain ⟨n, hn, w, hleaf⟩ := (isLeafSymbol_iff s x).mp hx'
      exact hx n w hn hleaf

/-! ### The errors of each command -/

/-- A stage ends without error or with one of the list. -/
def Result.RaisesOnly (errors : List ErrorCode) : Result → Prop
  | .ok _ => True
  | .err _ e _ _ => e ∈ errors

theorem Result.RaisesOnly.mono {errors errors' : List ErrorCode} {r : Result} (h : r.RaisesOnly errors)
    (hsub : errors ⊆ errors') : r.RaisesOnly errors' := by
  cases r with
  | ok => trivial
  | err op e info s => exact hsub h

theorem Result.RaisesOnly.completion {errors : List ErrorCode} {r : Result} (h : r.RaisesOnly errors) :
    r.completion.errCode = .none ∨ r.completion.errCode ∈ errors := by
  cases r with
  | ok => exact .inl rfl
  | err op e info s => exact .inr h

/-- The errors of each command (60_exceptions.md R172) but for CORRUPT_TREE of GENCODE, which no valid tree raises
(42_code_generator.md R130); ENCODE's are those of COUNT and PACK (45_entry_points.md R155). -/
def commandErrors : Instr → List ErrorCode
  | .clear => []
  | .count => [.capacity, .emptyInput]
  | .build => [.emptyInput]
  | .gencode => [.sequence]
  | .pack => [.sequence, .capacity, .emptyInput, .noCode]
  | .unpack => [.sequence, .capacity, .corruptStream]
  | .encode => [.capacity, .emptyInput, .sequence, .noCode]

theorem countStage_raises (s : State) : (countStage s).RaisesOnly (commandErrors .count) := by
  rcases countStage_cases s with ⟨-, hst⟩ | ⟨-, hst⟩ | ⟨-, -, hst⟩ <;> rw [hst]
  · simp [Result.RaisesOnly, commandErrors]
  · simp [Result.RaisesOnly, commandErrors]
  · trivial

theorem buildStage_raises (s : State) : (buildStage s).RaisesOnly (commandErrors .build) := by
  by_cases hp : s.presentSymbols = []
  · rw [buildStage_empty hp]
    simp [Result.RaisesOnly, commandErrors]
  · obtain ⟨t, hst, -⟩ := buildStage_tree s hp
    rw [hst]
    trivial

/-- In a valid tree every symbol of a LEAF is placed, so only the check of TREE_VALID can fail (42_code_generator.md
R130). -/
theorem gencodeStage_raises {s : State} (h : s.treeValid = true → TreeShape s) :
    (gencodeStage s).RaisesOnly (commandErrors .gencode) := by
  cases hv : s.treeValid with
  | false =>
    rw [gencodeStage_invalid hv]
    simp [Result.RaisesOnly, commandErrors]
  | true =>
    obtain ⟨t, hst, -⟩ := gencodeStage_codes hv (h hv)
    rw [hst]
    trivial

theorem packStage_raises (s : State) : (packStage s).RaisesOnly (commandErrors .pack) := by
  have hfail {e : ErrorCode} {info : Word} (he : e ∈ commandErrors .pack) :
      (packFail e info s).RaisesOnly (commandErrors .pack) := he
  rw [packStage]
  split
  · exact hfail (by simp [commandErrors])
  split
  · exact hfail (by simp [commandErrors])
  split
  · exact hfail (by simp [commandErrors])
  split
  · exact hfail (by simp [commandErrors])
  dsimp only
  split
  · exact hfail (by simp [commandErrors])
  · trivial

theorem unpackStage_raises (s : State) : (unpackStage s).RaisesOnly (commandErrors .unpack) := by
  rcases unpackStage_cases s with ⟨-, hst⟩ | ⟨-, -, hst⟩ | ⟨-, -, -, hst⟩ |
    ⟨-, -, -, r, t, hr, -, ⟨-, hst⟩ | ⟨e, info, he, hst⟩⟩ <;> rw [hst]
  · simp [Result.RaisesOnly, commandErrors]
  · simp [Result.RaisesOnly, commandErrors]
  · simp [Result.RaisesOnly, commandErrors]
  · trivial
  · rw [hr] at he
    rcases unpackFrom_error s _ _ _ _ he with rfl | rfl <;> simp [Result.RaisesOnly, commandErrors]

/-- ENCODE stops with COUNT's error or, with tree and codes made, ends as PACK does (45_entry_points.md R155). -/
theorem encodeStage_raises (s : State) : (encodeStage s).RaisesOnly (commandErrors .encode) := by
  have hcount := (countStage_raises s).mono (errors' := commandErrors .encode) (by decide)
  rcases countStage_cases s with ⟨-, hst⟩ | ⟨-, hst⟩ | ⟨hpos, hcap, -⟩
  · rw [hst] at hcount
    rwa [encodeStage, hst]
  · rw [hst] at hcount
    rwa [encodeStage, hst]
  · obtain ⟨-, -, g, -, -, -, hst, -⟩ := encodeStage_tables hpos hcap
    rw [hst]
    exact (packStage_raises g).mono (by decide)

theorem stageOf_raises (i : Instr) {s : State} (h : s.treeValid = true → TreeShape s) :
    (stageOf i s).RaisesOnly (commandErrors i) := by
  cases i with
  | clear => trivial
  | count => exact countStage_raises s
  | build => exact buildStage_raises s
  | gencode => exact gencodeStage_raises h
  | pack => exact packStage_raises s
  | unpack => exact unpackStage_raises s
  | encode => exact encodeStage_raises s

theorem corruptTree_not_mem_commandErrors (i : Instr) : .corruptTree ∉ commandErrors i := by
  cases i <;> decide

/-- Settles O25: CORRUPT_TREE is none of the errors that a command's stage may raise when a valid tree has its shape. -/
theorem corruptTreeIsUnreachable : Obligations.CorruptTreeIsUnreachable := by
  intro i s t hinv hexec
  obtain rfl := (exec_next_iff i s t).mp hexec
  intro hcorrupt
  rcases (stageOf_raises i hinv.tree).completion with hnone | herr
  · simp [hnone] at hcorrupt
  · exact corruptTree_not_mem_commandErrors i (hcorrupt ▸ herr)

/-! ### Commands without what they need -/

theorem unpackStage_invalid {s : State} (h : s.treeValid = false) :
    unpackStage s = .err 0x6 .sequence 0 { s with outLen := 0 } := by
  rw [unpackStage, if_pos (by simp [h])]

theorem packStage_invalid {s : State} (h : s.codesValid = false) : packStage s = packFail .sequence 0 s := by
  rw [packStage, if_pos (by simp [h])]

/-- Settles O24: the first check of each of the three stages. -/
theorem sequenceErrors : Obligations.SequenceErrors := by
  intro s
  refine ⟨fun htree => ⟨?_, ?_⟩, fun hcodes => ?_⟩
  · rw [exec_eq, stageOf, gencodeStage_invalid htree]
    rfl
  · rw [exec_eq, stageOf, unpackStage_invalid htree]
    rfl
  · rw [exec_eq, stageOf, packStage_invalid hcodes]
    rfl

end Sys2Proof.Machine
end

section
/-! SUPPORT. The bit packer (43_bit_packer.md): its errors in the order of its checks, and the payload it stores. -/

namespace Sys2Proof.Machine

/-! ### How PACK fails, check by check -/

theorem packStage_overflow {s : State} (hv : s.codesValid = true) (h : s.params.inCap < s.inLen.toNat) :
    packStage s = packFail .capacity s.inLen s := by
  rw [packStage, if_neg (by simp [hv]), if_pos h]

theorem packStage_empty {s : State} (hv : s.codesValid = true) (h : s.inLen.toNat = 0) :
    packStage s = packFail .emptyInput 0 s := by
  rw [packStage, if_neg (by simp [hv]), if_neg (by omega), if_pos h]

/-- The first byte without a code, as the list search of pass 1 finds it (43_bit_packer.md R138). -/
theorem firstWithoutCode_eq_some {s : State} {n j : Nat} (hj : j < n) (h : s.codeLenAt (s.bufferByte .inBuf j) = 0)
    (hbefore : ∀ i, i < j → s.codeLenAt (s.bufferByte .inBuf i) ≠ 0) :
    s.firstWithoutCode (s.bufferBytes .inBuf n) = some j := by
  rw [State.firstWithoutCode, List.findIdx?_eq_some_iff_getElem]
  refine ⟨by rwa [bufferBytes_length], ?_, fun i hi => ?_⟩
  · simpa [State.bufferBytes] using h
  · simpa [State.bufferBytes] using hbefore i hi

theorem packStage_noCode {s : State} {j : Nat} (hv : s.codesValid = true) (hcap : s.inLen.toNat ≤ s.params.inCap)
    (hj : j < s.inLen.toNat) (h : s.codeLenAt (s.bufferByte .inBuf j) = 0)
    (hbefore : ∀ i, i < j → s.codeLenAt (s.bufferByte .inBuf i) ≠ 0) :
    packStage s = packFail .noCode (BitVec.ofNat 32 j) s := by
  rw [packStage, if_neg (by simp [hv]), if_neg (by omega), if_neg (by omega), firstWithoutCode_eq_some hj h hbefore]

/-- The total by buffer index (43_bit_packer.md R135). -/
theorem packTotal_bufferBytes (s : State) (b : Buffer) (n : Nat) :
    s.packTotal (s.bufferBytes b n) = ((List.range n).map fun j => (s.codeLenAt (s.bufferByte b j)).toNat).sum := by
  rw [State.packTotal, State.bufferBytes, List.map_map]
  rfl

/-- Settles O28: the four checks of PACK's stage after that of CODES_VALID, each with `packFail` as its end. -/
theorem packRefusesInOrder : Obligations.PackRefusesInOrder := by
  intro s hv
  simp only [exec_eq, stageOf]
  refine ⟨fun hover => ?_, fun hzero => ?_, fun hcap j hj hnone hbefore => ?_, ?_⟩
  · rw [packStage_overflow hv hover]
    rfl
  · rw [packStage_empty hv hzero]
    rfl
  · rw [packStage_noCode hv hcap hj hnone hbefore]
    rfl
  · rintro hpos hcap hcoded total rfl hlong
    rw [← packTotal_bufferBytes] at hlong ⊢
    rw [packStage_coded hv hpos hcap hcoded, if_pos hlong]
    rfl

/-! ### PACK that completes -/

/-- The input of PACK, IN_BUF[0 .. IN_LEN-1]. -/
def State.input (s : State) : List Byte := s.bufferBytes .inBuf s.inLen.toNat

/-- The checks of PACK all pass (43_bit_packer.md R133). -/
structure Packable (s : State) : Prop where
  codesValid : s.codesValid = true
  nonempty : 1 ≤ s.inLen.toNat
  inCap : s.inLen.toNat ≤ s.params.inCap
  coded : ∀ j, j < s.inLen.toNat → s.codeLenAt (s.bufferByte .inBuf j) ≠ 0
  payCap : s.packTotal s.input ≤ 8 * s.params.payCap

/-- What PACK leaves where its checks pass, before the completion fields (43_bit_packer.md R133). -/
def State.packed (s : State) : State :=
  { s.storeBytes .payBuf 0 (payloadBytes (s.packBits s.input)) with
    numBits := BitVec.ofNat 32 (s.packTotal s.input)
    payLen := BitVec.ofNat 32 (ceilDiv8 (s.packTotal s.input)) }

theorem Packable.packStage_eq {s : State} (h : Packable s) : packStage s = .ok s.packed :=
  (packStage_coded h.codesValid h.nonempty h.inCap h.coded).trans (if_neg (Nat.not_lt.mpr h.payCap))

theorem packStage_eq_ok_iff (s t : State) : packStage s = .ok t ↔ Packable s ∧ s.packed = t := by
  constructor
  · intro hst
    rcases packStage_cases s with ⟨e, info, hfail⟩ | ⟨hv, hpos, hcap, hcoded, htotal, -⟩
    · simp [hfail, packFail] at hst
    · have hpack : Packable s := ⟨hv, hpos, hcap, hcoded, htotal⟩
      exact ⟨hpack, Result.ok.inj (hpack.packStage_eq.symm.trans hst)⟩
  · rintro ⟨hpack, rfl⟩
    exact hpack.packStage_eq

/-- With legal parameters the total is at most 2^27 bits (43_bit_packer.md R135). -/
theorem Packable.total_le {s : State} (h : Packable s) (hp : s.params.wellFormed = true) :
    s.packTotal s.input ≤ 134217728 := by
  have hcap : s.params.payCap ≤ 16777216 := (capacity_le hp .payBuf).2
  have htotal := h.payCap
  omega

theorem Packable.packed_numBits {s : State} (h : Packable s) (hp : s.params.wellFormed = true) :
    s.packed.numBits.toNat = s.packTotal s.input := by
  have htotal := h.total_le hp
  exact (BitVec.toNat_ofNat _ _).trans (Nat.mod_eq_of_lt (by omega))

theorem Packable.packed_payLen {s : State} (h : Packable s) (hp : s.params.wellFormed = true) :
    s.packed.payLen.toNat = ceilDiv8 (s.packTotal s.input) := by
  have htotal := h.total_le hp
  exact (BitVec.toNat_ofNat _ _).trans (Nat.mod_eq_of_lt (by rw [ceilDiv8]; omega))

/-- The payload fits in PAY_BUF (43_bit_packer.md R137). -/
theorem Packable.packed_payLen_le {s : State} (h : Packable s) (hp : s.params.wellFormed = true) :
    s.packed.payLen.toNat ≤ s.params.payCap := by
  have htotal := h.payCap
  rw [h.packed_payLen hp, ceilDiv8]
  omega

/-- A word below 2^31 reads the same as signed (00_scope.md R10). -/
theorem sint32_of_lt {v : Word} (h : v.toNat < 2 ^ 31) : sint32 v = v.toNat :=
  BitVec.toInt_eq_toNat_of_lt (by omega)

theorem Packable.packed_sint32 {s : State} (h : Packable s) (hp : s.params.wellFormed = true) :
    sint32 s.packed.numBits = s.packTotal s.input := by
  have htotal := h.total_le hp
  have hbits := h.packed_numBits hp
  rw [sint32_of_lt (by omega), hbits]

/-- The bits of the payload, and 0 for the padding of its last byte (43_bit_packer.md R134). -/
theorem payBit_packed (s : State) {i : Nat} (hi : i < 8 * ceilDiv8 (s.packTotal s.input)) :
    s.packed.payBit i = (s.packBits s.input).getD i false :=
  payBit_storeBytes s (s.packBits s.input) (by rwa [packBits_length])

theorem payloadBits_packed (s : State) : payloadBits s.packed 0 (s.packTotal s.input) = s.packBits s.input := by
  have hlen := packBits_length s s.input
  refine List.ext_getElem (by rw [payloadBits_length, hlen]) fun i hi hi' => ?_
  have hbit := payBit_packed s (i := i) (by rw [ceilDiv8]; omega)
  rw [List.getD_eq_getElem _ _ hi'] at hbit
  simpa [payloadBits] using hbit

theorem payBit_packed_padding (s : State) {i : Nat} (hi : s.packTotal s.input ≤ i)
    (hi' : i < 8 * ceilDiv8 (s.packTotal s.input)) : s.packed.payBit i = false := by
  rw [payBit_packed s hi', List.getD_eq_default _ _ (by rwa [packBits_length])]

theorem packed_keepsBytesOutside (s : State) :
    KeepsBytesOutside s s.packed .payBuf (ceilDiv8 (s.packTotal s.input)) := by
  intro a ha
  refine (byteAt_storeBytes s .payBuf 0 _ a).trans (if_neg ?_)
  rw [payloadBytes_length, packBits_length]
  omega

/-- The code bits by buffer index (43_bit_packer.md R136). -/
theorem packBits_bufferBytes (s : State) (b : Buffer) (n : Nat) :
    s.packBits (s.bufferBytes b n) = (List.range n).flatMap fun j => s.codeOf (s.bufferByte b j) := by
  rw [State.packBits, State.bufferBytes, List.flatMap_map]

/-- Settles O27: the state PACK's stage leaves where its checks pass, which its completion does not touch, and the
frame of the stage. -/
theorem packEmitsTheCodes : Obligations.PackEmitsTheCodes := by
  intro s total hp hv hpos hcap hcoded htotal hfits
  rw [← packTotal_bufferBytes] at htotal
  subst htotal
  have hpack : Packable s := ⟨hv, hpos, hcap, hcoded, hfits⟩
  have hcompletion : (packStage s).completion = complete s.packed := by
    rw [hpack.packStage_eq, Result.completion_ok]
  exact ⟨complete s.packed, (exec_next_iff .pack s _).mpr hcompletion, completed_complete _, hpack.packed_numBits hp,
    hpack.packed_payLen hp, hpack.packed_sint32 hp, (payloadBits_packed s).trans (packBits_bufferBytes s .inBuf _),
    fun i => payBit_packed_padding s,
    hcompletion ▸ Result.completion_keepsAllBut (packStage_stageFrame hp).items, rfl, packed_keepsBytesOutside s⟩

end Sys2Proof.Machine
end

section
/-! SUPPORT. UNPACK of what PACK stored (43_bit_packer.md R140; 45_entry_points.md R157, R158): what UNPACK reads, its
walk over the packed codes in a tree of any size, and the output it stores. -/

namespace Sys2Proof.Machine

/-! ### What UNPACK reads -/

/-- UNPACK sees the same in both states: the parameters, the tree, and the payload below PAY_LEN bytes. -/
structure SamePayload (s u : State) : Prop where
  params : u.params = s.params
  treeValid : u.treeValid = s.treeValid
  node : u.node = s.node
  root : u.root = s.root
  numBits : u.numBits = s.numBits
  payLen : u.payLen = s.payLen
  bytes : ∀ j, j < s.payLen.toNat → u.bufferByte .payBuf j = s.bufferByte .payBuf j

theorem SamePayload.payBit {s u : State} (h : SamePayload s u) {i : Nat} (hi : i < 8 * s.payLen.toNat) :
    u.payBit i = s.payBit i := by
  rw [State.payBit, State.payBit, h.bytes (i / 8) (by omega)]

/-- The walk of UNPACK reads nothing else (44_bit_unpacker.md R143). -/
theorem SamePayload.unpackFrom_eq {s u : State} (h : SamePayload s u) (more i : Nat) (cur : NodeIx)
    (emitted : List Byte) : unpackFrom u more i cur emitted = unpackFrom s more i cur emitted := by
  have hnode : u.nodeAt = s.nodeAt := by
    funext n
    rw [State.nodeAt, State.nodeAt, h.node]
  induction more generalizing i cur emitted with
  | zero => rfl
  | succ more ih =>
    rw [unpackFrom, unpackFrom, hnode, h.params, h.payLen, h.root]
    by_cases hlen : 8 * s.payLen.toNat ≤ i
    · rw [if_pos hlen, if_pos hlen]
    · rw [if_neg hlen, if_neg hlen, h.payBit (Nat.lt_of_not_le hlen)]
      simp only [ih]

/-! ### The walk over packed codes -/

/-- With one symbol every code is "0", so the payload is as many zeros as there are bytes (42_code_generator.md
R125). -/
theorem CodesMatch.packBits_single {s : State} (hc : CodesMatch s) (hs : s.single = true) {input : List Byte}
    (hcode : ∀ x ∈ input, s.codeLenAt x ≠ 0) : s.packBits input = List.replicate input.length false := by
  induction input with
  | nil => rfl
  | cons x rest ih =>
    have hrest := ih fun y hy => hcode y (List.mem_cons_of_mem x hy)
    have hx := hc.oneSymbol hs x (hcode x List.mem_cons_self)
    rw [State.packBits] at hrest ⊢
    rw [List.flatMap_cons, hrest, hx, List.length_cons, List.replicate_succ, List.singleton_append]

/-- With one symbol every byte that has a code is the root's symbol (41_tree_builder.md R116). -/
theorem CodesMatch.eq_root_symbol {s : State} (ht : TreeShape s) (hc : CodesMatch s) (hs : s.single = true)
    {x y : Symbol} {w : Weight} (hroot : s.nodeAt s.root = .leaf x w) (hy : s.codeLenAt y ≠ 0) : y = x := by
  obtain ⟨n, v, hn⟩ := (hc.defined y).mp hy
  have hsyms : s.numSyms.toNat = 1 := congrArg BitVec.toNat (ht.numSyms_of_single hs)
  have hnlt := ht.leaf_lt hn
  have hrlt := ht.leaf_lt hroot
  obtain rfl : n = s.root := BitVec.eq_of_toNat_eq (by omega)
  rw [hroot] at hn
  injection hn with hxy
  exact hxy.symm

/-- UNPACK's walk over the packed codes of an input gives the input back, in a tree with one symbol
(43_bit_packer.md R140; 44_bit_unpacker.md R145). -/
theorem unpackFrom_packBits_single {s : State} (ht : TreeShape s) (hc : CodesMatch s) (hs : s.single = true)
    (input : List Byte) (hcode : ∀ x ∈ input, s.codeLenAt x ≠ 0)
    (hbits : ∀ i, i < (s.packBits input).length → s.payBit i = (s.packBits input).getD i false)
    (hlen : (s.packBits input).length ≤ 8 * s.payLen.toNat) (hfit : input.length ≤ s.params.outCap) :
    unpackFrom s (s.packBits input).length 0 s.root [] = { out := input, error := none } := by
  obtain ⟨x, w, hroot⟩ := ht.root_leaf hs
  have hinput : input = List.replicate input.length x :=
    List.eq_replicate_iff.mpr ⟨rfl, fun y hy => hc.eq_root_symbol ht hs hroot (hcode y hy)⟩
  rw [hc.packBits_single hs hcode, List.length_replicate] at hbits hlen ⊢
  have hzero : ∀ i, i < input.length → s.payBit i = false := fun i hi => by
    rw [hbits i hi, List.getD_replicate _ hi]
  cases unpackFrom_leaf hroot input.length 0 [] (Nat.zero_le _) (Nat.zero_le _) with
  | complete herr hout => exact congrArg₂ Unpacked.mk (hout.trans hinput.symm) herr
  | stopped d e herr hd hout hbefore hout' hend hwhy =>
    exfalso
    simp only [Nat.zero_add, List.length_nil] at hwhy
    rcases hwhy with ⟨-, hmissing⟩ | ⟨-, -, hone⟩ | ⟨-, -, -, hfull⟩
    · omega
    · simp [hzero d hd] at hone
    · omega

/-- UNPACK's walk over the packed codes gives the input back in a tree of any size (43_bit_packer.md R140). -/
theorem unpackFrom_packBits_anySize {s : State} (ht : TreeShape s) (hc : CodesMatch s)
    (input : List Byte) (hcode : ∀ x ∈ input, s.codeLenAt x ≠ 0)
    (hbits : ∀ i, i < (s.packBits input).length → s.payBit i = (s.packBits input).getD i false)
    (hlen : (s.packBits input).length ≤ 8 * s.payLen.toNat) (hfit : input.length ≤ s.params.outCap) :
    unpackFrom s (s.packBits input).length 0 s.root [] = { out := input, error := none } := by
  cases hs : s.single with
  | true => exact unpackFrom_packBits_single ht hc hs input hcode hbits hlen hfit
  | false =>
    exact unpackFrom_packBits hc hs input 0 [] hcode (by simpa using hbits) (by simpa using hlen) (by simpa using hfit)

/-! ### UNPACK after PACK -/

/-- UNPACK whose walk ends without error stores what the walk emitted (44_bit_unpacker.md R143). -/
theorem unpackStage_walked {s : State} {out : List Byte} (hv : s.treeValid = true)
    (hlen : s.payLen.toNat ≤ s.params.payCap) (hsign : 0 ≤ sint32 s.numBits)
    (hwalk : unpackFrom s s.numBits.toNat 0 s.root [] = { out := out, error := none }) :
    unpackStage s = .ok { s.storeBytes .outBuf 0 out with outLen := BitVec.ofNat 32 out.length } := by
  rw [unpackStage, if_neg (by simp [hv]), if_neg (by omega), if_neg (by omega), hwalk]

/-- Bytes stored at the start of a buffer read back (10_state.md R40). -/
theorem bufferBytes_storeBytes_same (s : State) (b : Buffer) (bs : List Byte) :
    (s.storeBytes b 0 bs).bufferBytes b bs.length = bs := by
  refine List.ext_getElem (bufferBytes_length _ _ _) fun j hj hj' => ?_
  simp [State.bufferBytes, bufferByte_storeBytes_same, hj']

/-- Where PACK's checks pass, UNPACK's walk over the payload that PACK left gives the input (43_bit_packer.md R140). -/
theorem Packable.unpackFrom_packed {s : State} (h : Packable s) (hp : s.params.wellFormed = true) (ht : TreeShape s)
    (hc : CodesMatch s) (hfit : s.inLen.toNat ≤ s.params.outCap) :
    unpackFrom s.packed s.packed.numBits.toNat 0 s.packed.root [] = { out := s.input, error := none } := by
  have hceil : (s.packBits s.input).length ≤ 8 * ceilDiv8 (s.packTotal s.input) := by
    rw [packBits_length, ceilDiv8]
    omega
  have hcode : ∀ x ∈ s.input, s.codeLenAt x ≠ 0 := fun x hx => by
    obtain ⟨j, hj, rfl⟩ := List.mem_map.mp hx
    exact h.coded j (List.mem_range.mp hj)
  rw [h.packed_numBits hp, ← packBits_length]
  exact unpackFrom_packBits_anySize (s := s.packed) (ht.congr rfl rfl rfl rfl rfl rfl) (hc.congr rfl rfl rfl rfl rfl)
    s.input hcode (fun i hi => payBit_packed s (hi.trans_le hceil)) (by rwa [h.packed_payLen hp])
    ((bufferBytes_length s .inBuf _).trans_le hfit)

/-- UNPACK gives back the input of a PACK whose checks passed, wherever it sees the tree and the payload that PACK left
(43_bit_packer.md R140). -/
theorem Packable.unpack_packed {s u : State} (h : Packable s) (hp : s.params.wellFormed = true)
    (hv : s.treeValid = true) (ht : TreeShape s) (hc : CodesMatch s) (hfit : s.inLen.toNat ≤ s.params.outCap)
    (hu : SamePayload s.packed u) :
    ∃ v, exec .unpack u = .next v ∧ Completed v ∧ v.outLen = s.inLen ∧
      v.bufferBytes .outBuf s.inLen.toNat = s.bufferBytes .inBuf s.inLen.toNat := by
  have hwalk : unpackFrom u u.numBits.toNat 0 u.root [] = { out := s.input, error := none } := by
    rw [hu.unpackFrom_eq, hu.numBits, hu.root]
    exact h.unpackFrom_packed hp ht hc hfit
  have hlen : u.payLen.toNat ≤ u.params.payCap := by
    rw [hu.payLen, hu.params]
    exact h.packed_payLen_le hp
  have hsign : 0 ≤ sint32 u.numBits := by
    rw [hu.numBits, h.packed_sint32 hp]
    exact Int.natCast_nonneg _
  have hstage := unpackStage_walked (hu.treeValid.trans hv) hlen hsign hwalk
  have hlength : s.input.length = s.inLen.toNat := bufferBytes_length s .inBuf _
  have hout := bufferBytes_storeBytes_same u .outBuf s.input
  rw [hlength] at hstage hout
  exact ⟨_, (exec_next_iff .unpack u _).mpr (congrArg Result.completion hstage), completed_complete _,
    (BitVec.ofNat_toNat 32 s.inLen).trans (BitVec.setWidth_eq _), hout⟩

/-- A stage whose completion reports no error raised none (60_exceptions.md R167, R168). -/
theorem Result.ErrorsFrom.eq_ok {ops : List (BitVec 4)} {r : Result} (h : r.ErrorsFrom ops)
    (hnone : r.completion.errCode = .none) : ∃ t, r = .ok t := by
  cases r with
  | ok t => exact ⟨t, rfl⟩
  | err op e info t =>
    obtain ⟨-, he, -⟩ := h
    exact absurd hnone he

/-- Settles O35: PACK's stage passed its checks, and UNPACK sees the tree and the payload it left. -/
theorem packThenUnpackIsTheInput : Obligations.PackThenUnpackIsTheInput := by
  intro s t u hinv hexec hnone hfit hparams hvalid _ hnode hroot hnumBits hpayLen hbytes
  obtain rfl := (exec_next_iff .pack s t).mp hexec
  obtain ⟨t, hst⟩ := (packStage_errors s).eq_ok hnone
  obtain ⟨hpack, rfl⟩ := (packStage_eq_ok_iff s t).mp hst
  rw [stageOf, hst] at hparams hvalid hnode hroot hnumBits hpayLen hbytes
  have hv := hinv.codesNeedTree hpack.codesValid
  exact hpack.unpack_packed hinv.params hv (hinv.tree hv) (hinv.codes hpack.codesValid) hfit
    ⟨hparams, hvalid, hnode, hroot, hnumBits, hpayLen, hbytes⟩

/-! ### UNPACK after ENCODE -/

/-- ENCODE without error is PACK, its checks passed, on the input with its tree and codes made (45_entry_points.md
R154). -/
theorem encodeStage_eq_ok {s t : State} (hst : encodeStage s = .ok t) :
    ∃ g, Packable g ∧ g.packed = t ∧ g.treeValid = true ∧ TreeShape g ∧ CodesMatch g ∧ g.params = s.params ∧
      g.inLen = s.inLen ∧ g.bufferByte = s.bufferByte := by
  rcases countStage_cases s with ⟨-, hcount⟩ | ⟨-, hcount⟩ | ⟨hpos, hcap, -⟩
  · simp [encodeStage, hcount] at hst
  · simp [encodeStage, hcount] at hst
  obtain ⟨-, b, g, -, -, hgen, hencode, hshape, -, -, hmatch, hv, -, hmem, hepoch, hlen, hparams, -⟩ :=
    encodeStage_tables hpos hcap
  obtain ⟨hpack, hpacked⟩ := (packStage_eq_ok_iff g t).mp (hencode.symm.trans hst)
  have hg := gencodeStage_frame b
  rw [hgen, Result.state_ok] at hg
  refine ⟨g, hpack, hpacked, hv, ?_, hmatch, hparams, hlen, ?_⟩
  · rw [hg]
    exact hshape.congr rfl rfl rfl rfl rfl rfl
  · funext buffer j
    rw [State.bufferByte, State.byteAt, hmem, hepoch]
    rfl

/-- Settles O38: ENCODE without error ends as a PACK whose checks passed, and UNPACK runs on the state it left. -/
theorem encodeThenUnpackIsTheInput : Obligations.EncodeThenUnpackIsTheInput := by
  intro s t hp hexec hnone hfit
  obtain rfl := (exec_next_iff .encode s t).mp hexec
  obtain ⟨t, hst⟩ := (encodeStage_errors s).eq_ok hnone
  obtain ⟨g, hpack, rfl, hv, hshape, hmatch, hparams, hlen, hbyte⟩ := encodeStage_eq_ok hst
  have hsame : SamePayload g.packed (stageOf .encode s).completion := by
    rw [stageOf, hst]
    exact ⟨rfl, rfl, rfl, rfl, rfl, rfl, fun _ _ => rfl⟩
  have hunpack := hpack.unpack_packed (hparams ▸ hp) hv hshape hmatch (by rwa [hlen, hparams]) hsame
  rwa [hlen, State.bufferBytes, hbyte] at hunpack

end Sys2Proof.Machine
end

section
/-! SUPPORT. The bit unpacker (44_bit_unpacker.md): what UNPACK decodes and how it reports it, the bits it reads, its
walk in a one-symbol tree and in a tree of two symbols or more. -/

namespace Sys2Proof.Machine

/-! ### What UNPACK decodes -/

/-- What UNPACK decodes in a state and the error that stops it: nothing where a check before the first bit refuses, and
otherwise what its walk gives (44_bit_unpacker.md R143, R147). -/
def State.decoding (s : State) : Unpacked :=
  if s.treeValid = false then { out := [], error := some (.sequence, 0) }
  else if s.params.payCap < s.payLen.toNat then { out := [], error := some (.capacity, s.payLen) }
  else if sint32 s.numBits < 0 then { out := [], error := some (.corruptStream, s.numBits) }
  else unpackFrom s s.numBits.toNat 0 s.root []

/-- The state with the bytes in OUT_BUF and their number in OUT_LEN (44_bit_unpacker.md R152). -/
def State.withOutput (s : State) (out : List Byte) : State :=
  { s.storeBytes .outBuf 0 out with outLen := BitVec.ofNat 32 out.length }

/-- How UNPACK ends, from what it decoded (44_bit_unpacker.md R143, R152). -/
def Unpacked.result (r : Unpacked) (s : State) : Result :=
  match r.error with
  | none => .ok (s.withOutput r.out)
  | some (e, info) => .err 0x6 e info (s.withOutput r.out)

@[simp] theorem Unpacked.result_state (r : Unpacked) (s : State) : (r.result s).state = s.withOutput r.out := by
  rw [Unpacked.result]
  split <;> rfl

/-- A refusal leaves OUT_LEN = 0 and no byte, as an empty output does (44_bit_unpacker.md R152). -/
theorem withOutput_nil (s : State) : s.withOutput [] = { s with outLen := 0 } := rfl

theorem unpackStage_eq (s : State) : unpackStage s = s.decoding.result s := by
  rw [State.decoding]
  rcases unpackStage_cases s with ⟨htree, hst⟩ | ⟨htree, hlen, hst⟩ | ⟨htree, hlen, hneg, hst⟩ |
    ⟨htree, hlen, hsign, r, t, rfl, rfl, hend⟩
  · rw [if_pos htree, hst, ← withOutput_nil]
    rfl
  · rw [if_neg (by simp [htree]), if_pos hlen, hst, ← withOutput_nil]
    rfl
  · rw [if_neg (by simp [htree]), if_neg (by omega), if_pos hneg, hst, ← withOutput_nil]
    rfl
  · rw [if_neg (by simp [htree]), if_neg (by omega), if_neg (by omega), Unpacked.result]
    rcases hend with ⟨herr, hst⟩ | ⟨e, info, herr, hst⟩ <;> rw [herr, hst] <;> rfl

theorem decoding_out_le (s : State) : s.decoding.out.length ≤ s.params.outCap := by
  have hnone : ([] : List Byte).length ≤ s.params.outCap := Nat.zero_le _
  rw [State.decoding]
  split_ifs
  · exact hnone
  · exact hnone
  · exact hnone
  · exact unpackFrom_out_le s _ _ _ _ hnone

/-! ### UNPACK's checks before the first bit -/

/-- Settles O31: the two checks after that of TREE_VALID, each with an empty output. -/
theorem unpackRefusesBeforeTheFirstBit : Obligations.UnpackRefusesBeforeTheFirstBit := by
  intro s htree
  simp only [exec_eq, stageOf, unpackStage_eq]
  refine ⟨fun hlen => ?_, fun hlen hbit => ?_⟩
  · rw [State.decoding, if_neg (by simp [htree]), if_pos hlen]
    rfl
  · have hneg : sint32 s.numBits < 0 := by
      rwa [← BitVec.msb_eq_getLsbD_last s.numBits, BitVec.msb_eq_toInt, decide_eq_true_eq] at hbit
    rw [State.decoding, if_neg (by simp [htree]), if_neg (by omega), if_pos hneg]
    rfl

/-! ### What UNPACK leaves -/

/-- The command left the bytes in OUT_BUF and their number in OUT_LEN, and wrote nothing else but the completion fields
(44_bit_unpacker.md R143, R152). -/
structure WroteOutput (s t : State) (out : List Byte) : Prop where
  outLen : t.outLen.toNat = out.length
  outBuf : t.bufferBytes .outBuf out.length = out
  keeps : KeepsAllBut [.outBuf, .outLen] s t
  toDo : t.toDo = s.toDo
  bytes : KeepsBytesOutside s t .outBuf out.length

theorem Result.completion_outLen (r : Result) : r.completion.outLen = r.state.outLen := by cases r <;> rfl

theorem unpackStage_wroteOutput {s : State} (hp : s.params.wellFormed = true) :
    WroteOutput s (unpackStage s).completion s.decoding.out := by
  have hfit := decoding_out_le s
  have hcap : s.params.outCap ≤ 16777216 := (capacity_le hp .outBuf).2
  obtain ⟨hkeeps, htoDo, -, -⟩ := unpackStage_keeps hp
  have hstate : (unpackStage s).state = s.withOutput s.decoding.out := by rw [unpackStage_eq, Unpacked.result_state]
  refine ⟨?_, ?_, Result.completion_keepsAllBut hkeeps, (Result.completion_toDo _).trans htoDo, fun a ha => ?_⟩
  · rw [Result.completion_outLen, hstate]
    exact (BitVec.toNat_ofNat _ _).trans (Nat.mod_eq_of_lt (by omega))
  · rw [State.bufferBytes, Result.completion_bufferByte, hstate]
    exact bufferBytes_storeBytes_same s .outBuf s.decoding.out
  · rw [Result.completion_byteAt, hstate]
    exact (byteAt_storeBytes s .outBuf 0 _ a).trans (if_neg (by omega))

theorem exec_unpack_completed {s : State} {out : List Byte} (hp : s.params.wellFormed = true)
    (hout : s.decoding.out = out) (herr : s.decoding.error = none) :
    ∃ t, exec .unpack s = .next t ∧ Completed t ∧ WroteOutput s t out := by
  refine ⟨_, exec_eq .unpack s, ?_, hout ▸ unpackStage_wroteOutput hp⟩
  rw [stageOf, unpackStage_eq, Unpacked.result, herr]
  exact completed_complete _

theorem exec_unpack_raised {s : State} {out : List Byte} {e : ErrorCode} {info : Word}
    (hp : s.params.wellFormed = true) (hout : s.decoding.out = out) (herr : s.decoding.error = some (e, info)) :
    ∃ t, exec .unpack s = .next t ∧ Raised t 6 e info ∧ WroteOutput s t out := by
  refine ⟨_, exec_eq .unpack s, ?_, hout ▸ unpackStage_wroteOutput hp⟩
  rw [stageOf, unpackStage_eq, Unpacked.result, herr]
  exact raised_raise _ _ _ _

/-- Two runs of UNPACK that decode alike report alike (44_bit_unpacker.md R143, R152). -/
theorem exec_unpack_of_decoding_eq {s u : State} (hs : s.params.wellFormed = true) (hu : u.params.wellFormed = true)
    (h : u.decoding = s.decoding) :
    ∃ t v, exec .unpack s = .next t ∧ exec .unpack u = .next v ∧ t.outLen = v.outLen ∧ t.errCode = v.errCode ∧
      t.errInfo = v.errInfo ∧ t.bufferBytes .outBuf t.outLen.toNat = v.bufferBytes .outBuf t.outLen.toNat := by
  have hwrote := unpackStage_wroteOutput hs
  have hwrote' := unpackStage_wroteOutput hu
  rw [h] at hwrote'
  have hlen : (unpackStage s).completion.outLen = (unpackStage u).completion.outLen :=
    BitVec.eq_of_toNat_eq (hwrote.outLen.trans hwrote'.outLen.symm)
  have herr : (unpackStage s).completion.errCode = (unpackStage u).completion.errCode ∧
      (unpackStage s).completion.errInfo = (unpackStage u).completion.errInfo := by
    rw [unpackStage_eq, unpackStage_eq, h, Unpacked.result, Unpacked.result]
    split <;> exact ⟨rfl, rfl⟩
  have hbuf : (unpackStage s).completion.bufferBytes .outBuf (unpackStage s).completion.outLen.toNat =
      (unpackStage u).completion.bufferBytes .outBuf (unpackStage s).completion.outLen.toNat := by
    rw [hwrote.outLen, hwrote.outBuf, hwrote'.outBuf]
  exact ⟨_, _, exec_eq .unpack s, exec_eq .unpack u, hlen, herr.1, herr.2, hbuf⟩

/-! ### The bits UNPACK reads -/

/-- The walk reads no bit at or beyond its end (44_bit_unpacker.md R144). -/
theorem unpackFrom_withMem (s : State) (other : Memory) (more i : Nat) (cur : NodeIx) (emitted : List Byte)
    (h : ∀ k, k < i + more → State.payBit { s with mem := other } k = s.payBit k) :
    unpackFrom { s with mem := other } more i cur emitted = unpackFrom s more i cur emitted := by
  have hnode : State.nodeAt { s with mem := other } = s.nodeAt := rfl
  induction more generalizing i cur emitted with
  | zero => rfl
  | succ more ih =>
    have hrest := fun cur emitted => ih (i + 1) cur emitted fun k hk => h k (by omega)
    rw [unpackFrom, unpackFrom, hnode, h i (by omega)]
    simp only [hrest]

/-- Settles O34: with either memory UNPACK's checks are the same, and its walk reads only the bits below NUMBITS. -/
theorem unpackIgnoresPadding : Obligations.UnpackIgnoresPadding := by
  intro s other hp hbits
  refine exec_unpack_of_decoding_eq hp hp ?_
  rw [State.decoding, State.decoding, unpackFrom_withMem s other _ _ _ _ (by simpa using hbits)]

/-! ### UNPACK past its checks -/

/-- UNPACK's checks before the first bit pass (44_bit_unpacker.md R143, R147). -/
structure Unpackable (s : State) : Prop where
  treeValid : s.treeValid = true
  payLen : s.payLen.toNat ≤ s.params.payCap
  numBits : s.numBits.toNat < 2 ^ 31

theorem Unpackable.decoding_eq {s : State} (h : Unpackable s) :
    s.decoding = unpackFrom s s.numBits.toNat 0 s.root [] := by
  have hsign := sint32_of_lt h.numBits
  have hlen := h.payLen
  rw [State.decoding, if_neg (by simp [h.treeValid]), if_neg (by omega), if_neg (by omega)]

/-! ### The walk at a leaf root -/

/-- At a leaf root each 0 bit that exists and fits emits the symbol (44_bit_unpacker.md R145). -/
theorem unpackFrom_leaf_zeros {s : State} {x : Symbol} {w : Weight} (hroot : s.nodeAt s.root = .leaf x w)
    (d more i : Nat) (emitted : List Byte) (hzero : ∀ k, k < i + d → s.payBit k = false)
    (hlen : i + d ≤ 8 * s.payLen.toNat) (hfit : emitted.length + d ≤ s.params.outCap) :
    unpackFrom s (d + more) i s.root emitted =
      unpackFrom s more (i + d) s.root (List.replicate d x ++ emitted) := by
  induction d generalizing i emitted with
  | zero => rw [Nat.zero_add, Nat.add_zero, List.replicate_zero, List.nil_append]
  | succ d ih =>
    have hbit : s.payBit i = false := hzero i (by omega)
    have hstep : unpackFrom s (d + more + 1) i s.root emitted =
        unpackFrom s (d + more) (i + 1) s.root (x :: emitted) := by
      rw [unpackFrom, if_neg (by omega)]
      simp only [hroot, hbit, Bool.false_eq_true, if_false]
      rw [if_neg (by omega)]
    rw [Nat.add_right_comm, hstep, ih (i + 1) (x :: emitted) (fun k hk => hzero k (by omega)) (by omega)
      (by rw [List.length_cons]; omega), List.replicate_succ', List.append_assoc, List.singleton_append,
      Nat.add_assoc, Nat.add_comm 1]

theorem Unpackable.decoding_leaf_zeros {s : State} {x : Symbol} {w : Weight} (h : Unpackable s)
    (hroot : s.nodeAt s.root = .leaf x w) {d more : Nat} (hmore : s.numBits.toNat = d + more)
    (hzero : ∀ k, k < d → s.payBit k = false) (hlen : d ≤ 8 * s.payLen.toNat) (hfit : d ≤ s.params.outCap) :
    s.decoding = unpackFrom s more d s.root (List.replicate d x) := by
  rw [h.decoding_eq, hmore, unpackFrom_leaf_zeros hroot d more 0 [] (by simpa using hzero) (by simpa using hlen)
    (by simpa using hfit), Nat.zero_add, List.append_nil]

/-- Why UNPACK stops at bit d of a one-symbol tree, after d zero bits: it is missing, it is 1, or its symbol does not
fit (44_bit_unpacker.md R145, R146, R149). -/
inductive LeafStop (s : State) (d : Nat) : ErrorCode → Prop
  | missing (hend : d = 8 * s.payLen.toNat) : LeafStop s d .corruptStream
  | one (hexists : d < 8 * s.payLen.toNat) (hbit : s.payBit d = true) : LeafStop s d .corruptStream
  | full (hexists : d < 8 * s.payLen.toNat) (hbit : s.payBit d = false) (hcap : d = s.params.outCap) :
    LeafStop s d .capacity

/-- UNPACK of zero bits up to a stop in a one-symbol tree (44_bit_unpacker.md R145). -/
theorem Unpackable.decoding_leaf_stop {s : State} {x : Symbol} {w : Weight} (h : Unpackable s)
    (hroot : s.nodeAt s.root = .leaf x w) {d : Nat} {e : ErrorCode} (hd : d < s.numBits.toNat)
    (hzero : ∀ k, k < d → s.payBit k = false) (hfit : d ≤ s.params.outCap) (hstop : LeafStop s d e) :
    s.decoding = { out := List.replicate d x, error := some (e, BitVec.ofNat 32 d) } := by
  obtain ⟨more, hmore⟩ := Nat.exists_eq_add_of_lt hd
  have hlen : d ≤ 8 * s.payLen.toNat := by cases hstop <;> omega
  rw [h.decoding_leaf_zeros (more := more + 1) hroot hmore hzero hlen hfit, unpackFrom, List.reverse_replicate]
  cases hstop with
  | missing hend => rw [if_pos (by omega)]
  | one hexists hbit =>
    rw [if_neg (by omega)]
    simp only [hroot, hbit, if_true]
  | full hexists hbit hcap =>
    rw [if_neg (by omega)]
    simp only [hroot, hbit, Bool.false_eq_true, if_false]
    rw [if_pos (by rw [List.length_replicate]; omega)]

/-- UNPACK that stops in a one-symbol tree keeps the copies so far (44_bit_unpacker.md R145, R152). -/
theorem Unpackable.exec_leaf_stop {s : State} {x : Symbol} {w : Weight} (h : Unpackable s)
    (hp : s.params.wellFormed = true) (hroot : s.nodeAt s.root = .leaf x w) {d : Nat} {e : ErrorCode}
    (hd : d < s.numBits.toNat) (hzero : ∀ k, k < d → s.payBit k = false) (hfit : d ≤ s.params.outCap)
    (hstop : LeafStop s d e) :
    ∃ t, exec .unpack s = .next t ∧ Raised t 6 e (BitVec.ofNat 32 d) ∧ t.outLen = BitVec.ofNat 32 d ∧
      t.bufferBytes .outBuf d = List.replicate d x ∧ KeepsAllBut [.outBuf, .outLen] s t ∧
      KeepsBytesOutside s t .outBuf d := by
  have hdec := h.decoding_leaf_stop hroot hd hzero hfit hstop
  obtain ⟨t, hexec, hraised, hlen, hbuf, hkeeps, -, hbytes⟩ :=
    exec_unpack_raised hp (congrArg Unpacked.out hdec) (congrArg Unpacked.error hdec)
  rw [List.length_replicate] at hlen hbuf hbytes
  exact ⟨t, hexec, hraised, BitVec.eq_of_toNat_eq (by rw [hlen, BitVec.toNat_ofNat, Nat.mod_eq_of_lt (by omega)]),
    hbuf, hkeeps, hbytes⟩

/-- Settles O30: the zero bits emit copies of the symbol, up to NUMBITS or to a stop. -/
theorem unpackAtALeafRoot : Obligations.UnpackAtALeafRoot := by
  intro s x w hp htree hroot hpay hnum
  have h : Unpackable s := ⟨htree, hpay, hnum⟩
  refine ⟨fun hlen hfit hzero => ?_, fun i hi hexists hfit hone hzero => ?_, fun hmore hexists hzero => ?_⟩
  · have hdec := h.decoding_leaf_zeros hroot (Nat.add_zero _).symm hzero hlen hfit
    rw [unpackFrom, List.reverse_replicate] at hdec
    obtain ⟨t, hexec, hcompleted, hlen, hbuf, hkeeps, -, hbytes⟩ :=
      exec_unpack_completed hp (congrArg Unpacked.out hdec) (congrArg Unpacked.error hdec)
    rw [List.length_replicate] at hlen hbuf hbytes
    exact ⟨t, hexec, hcompleted, BitVec.eq_of_toNat_eq hlen, hbuf, hkeeps, hbytes⟩
  · exact h.exec_leaf_stop hp hroot hi hzero hfit (.one hexists hone)
  · exact h.exec_leaf_stop hp hroot hmore (fun k hk => hzero k hk.le) le_rfl (.full hexists (hzero _ le_rfl) rfl)

/-! ### The walk in a tree of two symbols or more -/

theorem payloadBits_append (s : State) (i m n : Nat) :
    payloadBits s i (m + n) = payloadBits s i m ++ payloadBits s (i + m) n := by
  simp only [payloadBits, List.range_add, List.map_append, List.map_map, Function.comp_def, Nat.add_assoc]

/-- No bit at all is an incomplete code where the root is no leaf (44_bit_unpacker.md R148). -/
theorem TreeShape.incomplete_nil {s : State} (ht : TreeShape s) (hs : s.single = false) : Incomplete s [] := by
  obtain ⟨l, r, w, hroot⟩ := ht.root_internal hs
  exact ⟨s.root, l, r, w, rfl, hroot⟩

/-- Codes at the head of the payload are the first that a longer part of it decodes to (44_bit_unpacker.md R148). -/
theorem CodeSequence.length_le_of_decodes {s : State} {m n : Nat} {o p : List Symbol}
    (ho : CodeSequence s (payloadBits s 0 m) o) (hmn : m ≤ n) (hp : Decodes s (payloadBits s 0 n) p) :
    o.length ≤ p.length := by
  obtain ⟨k, rfl⟩ := Nat.exists_eq_add_of_le hmn
  obtain ⟨front, tail, hbits, hfront, htail⟩ := hp
  obtain ⟨-, rest, -, rfl, -⟩ := ho.split hfront htail ((payloadBits_append s 0 m k).symm.trans hbits)
  rw [List.length_append]
  omega

/-- So many codes at the head of the payload end at one bit and have one output, in a tree of two symbols or more
(44_bit_unpacker.md R150). -/
theorem CodeSequence.eq_of_length_eq {s : State} (ht : TreeShape s) (hs : s.single = false) {m n : Nat}
    {o p : List Symbol} (ho : CodeSequence s (payloadBits s 0 m) o) (hp : CodeSequence s (payloadBits s 0 n) p)
    (hlen : o.length = p.length) : m = n ∧ o = p := by
  wlog hmn : m ≤ n generalizing m n o p
  · obtain ⟨rfl, rfl⟩ := this hp ho hlen.symm (by omega)
    exact ⟨rfl, rfl⟩
  obtain ⟨k, rfl⟩ := Nat.exists_eq_add_of_le hmn
  obtain ⟨bits, rest, hbits, rfl, hrest⟩ := ho.split hp (ht.incomplete_nil hs)
    ((payloadBits_append s 0 m k).symm.trans (List.append_nil _).symm)
  obtain rfl : rest = [] := List.eq_nil_of_length_eq_zero (by simpa using hlen)
  cases hrest
  have hk := congrArg List.length hbits
  rw [List.append_nil, payloadBits_length, payloadBits_length] at hk
  exact ⟨hk.symm, (List.append_nil _).symm⟩

theorem Unpackable.decoding_spec {s : State} (h : Unpackable s) (ht : TreeShape s) (hs : s.single = false) :
    UnpackEnd s s.numBits.toNat 0 [] [] s.decoding := by
  rw [h.decoding_eq]
  exact unpackFrom_spec ht hs _ 0 s.root [] [] (Nat.zero_le _) (Nat.zero_le _) rfl (ht.root_internal hs)

/-- Where the output that bits of the payload decode to fits, no symbol of theirs finds OUT_BUF full
(44_bit_unpacker.md R149). -/
theorem CodeSequence.fits {s : State} (ht : TreeShape s) (hs : s.single = false) {m n : Nat} {o : List Symbol}
    (ho : CodeSequence s (payloadBits s 0 m) o) (hmn : m ≤ n)
    (hfits : ∀ p, Decodes s (payloadBits s 0 n) p → p.length ≤ s.params.outCap) : o.length ≤ s.params.outCap := by
  obtain ⟨p, hp⟩ := decodes_exists ht hs (payloadBits s 0 n) [] (ht.incomplete_nil hs)
  exact (ho.length_le_of_decodes hmn hp).trans (hfits p hp)

/-- Settles O29: of the ends of the walk, a missing bit is shut out by PAY_LEN, and a full output by what the bits
decode to. -/
theorem unpackDecodesThePayload : Obligations.UnpackDecodesThePayload := by
  intro s hp htree ht hs hpay hnum hexist hfits
  have h : Unpackable s := ⟨htree, hpay, hnum⟩
  cases h.decoding_spec ht hs with
  | complete out herr hout _ _ hdec =>
    obtain ⟨t, hexec, hcompleted, hlen, hbuf, hkeeps, htoDo, hbytes⟩ := exec_unpack_completed hp hout herr
    exact ⟨t, out, hexec, hcompleted, hdec, hlen, hbuf, hkeeps, htoDo, hbytes⟩
  | missing _ _ _ _ hmissing => omega
  | full out x d _ _ hfull hd _ hcodes =>
    have hfit := hcodes.fits ht hs hd hfits
    simp only [List.length_append, List.length_singleton, List.length_nil] at hfit hfull
    omega

/-- Settles O32: in a tree of two symbols or more the walk can only end at the missing bit; at a leaf root the bits that
exist are zeros and the next one is missing. -/
theorem unpackStopsAtTheFirstMissingBit : Obligations.UnpackStopsAtTheFirstMissingBit := by
  intro s hp htree ht hpay hnum hmissing
  have h : Unpackable s := ⟨htree, hpay, hnum⟩
  refine ⟨fun hs hfits => ?_, fun hs hfit hzero => ?_⟩
  · cases h.decoding_spec ht hs with
    | complete _ _ _ _ hexist => omega
    | missing out herr hout _ _ hdec =>
      obtain ⟨t, hexec, hraised, hlen, hbuf, hkeeps, -, hbytes⟩ := exec_unpack_raised hp hout herr
      exact ⟨t, out, hexec, hraised, hdec, hlen, hbuf, hkeeps, hbytes⟩
    | full out x d _ _ hfull _ hexists hcodes =>
      have hfit := hcodes.fits ht hs (by omega) hfits
      simp only [List.length_append, List.length_singleton, List.length_nil] at hfit hfull
      omega
  · obtain ⟨x, w, hroot⟩ := ht.root_leaf hs
    obtain ⟨t, hexec, hraised, hlen, hbuf, hkeeps, hbytes⟩ :=
      h.exec_leaf_stop hp hroot hmissing hzero hfit (.missing rfl)
    have hlen' : t.outLen.toNat = 8 * s.payLen.toNat := by
      rw [hlen, BitVec.toNat_ofNat, Nat.mod_eq_of_lt (by omega)]
    exact ⟨t, x, w, hroot, hexec, hraised, hlen', hbuf, hkeeps, hbytes⟩

/-- Settles O33: OUT_CAP + 1 codes are more than a walk that ends otherwise emits, and they end at one bit. -/
theorem unpackStopsWhenTheOutputIsFull : Obligations.UnpackStopsWhenTheOutputIsFull := by
  intro s d out x hp htree ht hs hpay hnum hd hexists hcap hcodes
  have h : Unpackable s := ⟨htree, hpay, hnum⟩
  cases h.decoding_spec ht hs with
  | complete p _ _ hfit _ hdec =>
    have hle := hcodes.length_le_of_decodes hd hdec
    simp only [List.length_append, List.length_singleton, List.length_nil] at hle hfit
    omega
  | missing p _ _ hfit _ hdec =>
    have hle := hcodes.length_le_of_decodes hexists hdec
    simp only [List.length_append, List.length_singleton, List.length_nil] at hle hfit
    omega
  | full p y d' herr hout hfull _ _ hcodes' =>
    obtain ⟨hdd, happ⟩ := hcodes.eq_of_length_eq ht hs hcodes' (by simp at hfull ⊢; omega)
    obtain ⟨rfl, -⟩ := List.append_inj' happ rfl
    obtain rfl : d = d' := by omega
    rw [Nat.zero_add] at herr
    obtain ⟨t, hexec, hraised, hlen, hbuf, hkeeps, -, hbytes⟩ := exec_unpack_raised hp hout herr
    rw [List.reverse_nil, List.nil_append, hcap] at hlen hbuf hbytes
    exact ⟨t, hexec, hraised, hlen, hbuf, hkeeps, hbytes⟩

end Sys2Proof.Machine
end

section
/-! SUPPORT. ENCODE and the persisted container (45_entry_points.md): the errors of COUNT that end ENCODE, the tables it
makes of its input, and how it ends as PACK does (R154 to R156); the container's first four bytes, and what parsing
reads back (R161, R162). -/

namespace Sys2Proof.Machine

/-! ### The persisted container -/

theorem enc32_length (v : Word) (order : ByteOrder) : (enc32 v order).length = 4 := by cases order <;> rfl

/-- Parsing reads back the bit count that Enc32 wrote, in its byte order, and takes the rest for the payload
(45_entry_points.md R162). -/
theorem parseContainer_enc32_append (v : Word) (order : ByteOrder) (rest : List Byte) :
    parseContainer order (enc32 v order ++ rest) =
      some { numBits := v, payLen := BitVec.ofNat 32 rest.length, bytes := rest } := by
  conv_rhs => rw [← bytesWord_wordBytes v]
  cases order <;> rfl

/-- Settles O39: the container is four bytes of Enc32 and the payload's bytes, which parsing takes apart again. -/
theorem containerRoundTrip : Obligations.ContainerRoundTrip := by
  intro s order
  rw [State.container, ceilDiv8]
  refine ⟨?_, ?_, ?_⟩
  · rw [List.length_append, enc32_length, bufferBytes_length]
  · cases order <;> rfl
  · rw [parseContainer_enc32_append, bufferBytes_length]

/-! ### ENCODE of an input that COUNT refuses -/

/-- An error of COUNT ends ENCODE as it ends COUNT (45_entry_points.md R154). -/
theorem exec_encode_of_count_err {s t : State} {op : BitVec 4} {e : ErrorCode} {info : Word}
    (h : countStage s = .err op e info t) : exec .encode s = exec .count s := by
  rw [exec_eq, exec_eq, stageOf, stageOf, encodeStage, h]
  rfl

/-! ### The tables ENCODE makes -/

/-- The tables of t are those of the input of s: its counts, the tree of them, and the codes of that tree
(45_entry_points.md R155). -/
structure TablesOf (s t : State) : Prop where
  treeValid : t.treeValid = true
  codesValid : t.codesValid = true
  counts : ∀ x, (t.freqAt x).toNat = s.input.count x
  shape : TreeShape t
  merges : MergesLeastTwo t.nodeAt
  codes : CodesMatch t
  toDo : t.toDo = []

theorem freqAt_congr {s t : State} (h : t.freq = s.freq) : t.freqAt = s.freqAt := by
  funext x
  rw [State.freqAt, State.freqAt, h]

theorem nodeAt_congr {s t : State} (h : t.node = s.node) : t.nodeAt = s.nodeAt := by
  funext n
  rw [State.nodeAt, State.nodeAt, h]

theorem codeLenAt_congr {s t : State} (h : t.codeLen = s.codeLen) : t.codeLenAt = s.codeLenAt := by
  funext x
  rw [State.codeLenAt, State.codeLenAt, h]

theorem TablesOf.congr {s t u : State} (h : TablesOf s t) (htables : u.tables = t.tables) : TablesOf s u := by
  simp only [State.tables, Prod.mk.injEq] at htables
  obtain ⟨htoDo, htree, hcodes, hsingle, hsyms, hnodes, hroot, hfreq, hnode, hlen, hbits⟩ := htables
  exact ⟨htree.trans h.treeValid, hcodes.trans h.codesValid, freqAt_congr hfreq ▸ h.counts,
    h.shape.congr hsyms hnodes hroot hsingle hnode hfreq, nodeAt_congr hnode ▸ h.merges,
    h.codes.congr hlen hbits hroot hsingle hnode, htoDo.trans h.toDo⟩

/-- ENCODE runs its first three stages without error from s to g, and PACK on g (45_entry_points.md R154). -/
structure ReachesPack (s g : State) : Prop where
  encode_eq : encodeStage s = packStage g
  tables : TablesOf s g
  nonempty : 1 ≤ g.inLen.toNat
  inCap : g.inLen.toNat ≤ g.params.inCap
  coded : ∀ j, j < g.inLen.toNat → g.codeLenAt (g.bufferByte .inBuf j) ≠ 0
  keeps : KeepsAllBut (countWrites ++ buildWrites ++ gencodeWrites) s g
  bytes : KeepsBytes s g

theorem KeepsBytes.bufferByte_eq {s t : State} (h : KeepsBytes s t) : t.bufferByte = s.bufferByte := by
  funext b j
  exact h _

theorem StageFrame.of_ok {w : List Item} {s t : State} {r : Result} (h : StageFrame w s r.state) (hr : r = .ok t) :
    StageFrame w s t := by
  subst hr
  exact h

/-- ENCODE of an input that COUNT accepts comes to PACK, with the tables made: COUNT makes FREQ, which BUILD and GENCODE
leave alone, and BUILD the tree, which GENCODE leaves alone (45_entry_points.md R154; 30_encoding.md R91). -/
theorem exists_reachesPack {s : State} (hpos : 1 ≤ s.inLen.toNat) (hcap : s.inLen.toNat ≤ s.params.inCap) :
    ∃ g, ReachesPack s g := by
  obtain ⟨c, b, g, hcount, hbuild, hgencode, hencode, hshape, hmerges, htoDo, hcodes, htree, hcodesValid, hmem, hepoch,
    hlen, hparams, hcoded⟩ := encodeStage_tables hpos hcap
  have hc := (countStage_stageFrame s).of_ok hcount
  have hb := (buildStage_stageFrame c).of_ok hbuild
  have hg := (gencodeStage_stageFrame b).of_ok hgencode
  have hbytes : KeepsBytes s g := fun a => by rw [State.byteAt, State.byteAt, hmem, hepoch]
  have hcounts (x : Symbol) : (g.freqAt x).toNat = s.input.count x := by
    rw [freqAt_congr ((hb.trans hg).items.items .freq (by decide))]
    obtain rfl := Result.ok.inj (hcount.symm.trans (countStage_counted hpos hcap))
    exact countBytes_toNat ((bufferBytes_length s .inBuf _).trans_lt s.inLen.isLt) x
  have hnode : g.node = b.node := hg.items.items .node (by decide)
  have hshapeKept : TreeShape g :=
    hshape.congr (hg.items.items .numSyms (by decide)) (hg.items.items .numNodes (by decide))
      (hg.items.items .root (by decide)) (hg.items.items .single (by decide)) hnode (hg.items.items .freq (by decide))
  exact ⟨g,
    { encode_eq := hencode
      tables := ⟨htree, hcodesValid, hcounts, hshapeKept, nodeAt_congr hnode ▸ hmerges, hcodes, hg.toDo htoDo⟩
      nonempty := hlen ▸ hpos
      inCap := by rwa [hlen, hparams]
      coded := by rwa [hlen, hbytes.bufferByte_eq]
      keeps := ((hc.trans hb).trans hg).items
      bytes := hbytes }⟩

/-! ### How ENCODE ends at PACK -/

section
variable {s g : State}

/-- PACK, which ENCODE ends with, touches no table. -/
theorem ReachesPack.completion_tables (h : ReachesPack s g) : (encodeStage s).completion.tables = g.tables := by
  rw [Result.completion_tables, h.encode_eq, packStage_tables]

/-- The total is that of the input's codes as they stand after ENCODE (45_entry_points.md R155). -/
theorem ReachesPack.total_eq (h : ReachesPack s g) :
    g.packTotal g.input = ((List.range s.inLen.toNat).map fun j =>
      ((encodeStage s).completion.codeLenAt (s.bufferByte .inBuf j)).toNat).sum := by
  have htables := h.completion_tables
  simp only [State.tables, Prod.mk.injEq] at htables
  obtain ⟨-, -, -, -, -, -, -, -, -, hlen, -⟩ := htables
  rw [State.input, packTotal_bufferBytes, h.keeps.hostState.inLen, h.bytes.bufferByte_eq, codeLenAt_congr hlen]

/-- At most 255 bits for each byte of the input (43_bit_packer.md R135). -/
theorem ReachesPack.total_le (h : ReachesPack s g) : g.packTotal g.input ≤ 255 * s.inLen.toNat := by
  have hlen : g.input.length = s.inLen.toNat := by
    rw [State.input, bufferBytes_length, h.keeps.hostState.inLen]
  exact hlen ▸ packTotal_le g g.input

theorem ReachesPack.packable (h : ReachesPack s g) (hfits : g.packTotal g.input ≤ 8 * s.params.payCap) : Packable g :=
  ⟨h.tables.codesValid, h.nonempty, h.inCap, h.coded, by rwa [h.keeps.hostState.params]⟩

/-- Where the codes of the input fit, ENCODE completes with the payload stored (45_entry_points.md R155). -/
theorem ReachesPack.completion_fits (h : ReachesPack s g) (hfits : g.packTotal g.input ≤ 8 * s.params.payCap) :
    (encodeStage s).completion = complete g.packed := by
  rw [h.encode_eq, (h.packable hfits).packStage_eq, Result.completion_ok]

/-- Where they do not, ENCODE raises CAPACITY of PACK with the total (45_entry_points.md R155). -/
theorem ReachesPack.completion_overflow (h : ReachesPack s g) (hlong : 8 * s.params.payCap < g.packTotal g.input) :
    (encodeStage s).completion = (packFail .capacity (BitVec.ofNat 32 (g.packTotal g.input)) g).completion := by
  rw [← h.keeps.hostState.params] at hlong
  rw [h.encode_eq, packStage_coded h.tables.codesValid h.nonempty h.inCap h.coded]
  exact congrArg Result.completion (if_pos hlong)

end

/-- A failing PACK writes NUMBITS and PAY_LEN only (43_bit_packer.md R133). -/
theorem packFail_completion_keepsAllBut (e : ErrorCode) (info : Word) (s : State) :
    KeepsAllBut [.numBits, .payLen] s (packFail e info s).completion := by
  refine ⟨⟨rfl, rfl, rfl, rfl, rfl, rfl, rfl, rfl, rfl, rfl⟩, fun i hi => ?_⟩
  cases i with
  | numBits => exact absurd hi (by decide)
  | payLen => exact absurd hi (by decide)
  | payBuf => exact fun _ _ => rfl
  | outBuf => exact fun _ _ => rfl
  | _ => rfl

/-! ### The statements about ENCODE -/

/-- Settles O36: PACK keeps the tables with which ENCODE comes to it, and stores the codes of the input or, where they
do not fit, raises CAPACITY. -/
theorem encodeCompletes : Obligations.EncodeCompletes := by
  intro s hp hpos hcap
  obtain ⟨g, hg⟩ := exists_reachesPack hpos hcap
  obtain ⟨htree, hcodesValid, hcounts, hshape, hmerges, hcodes, htoDo⟩ := hg.tables.congr hg.completion_tables
  obtain ⟨hkeeps, -⟩ := commandsWriteOnlyTheirWriteSet .encode s _ hp (exec_eq .encode s)
  refine ⟨_, g.packTotal g.input, exec_eq .encode s, htree, hcodesValid,
    fun x => (hcounts x).trans (count_bufferBytes s .inBuf _ x), hshape, hmerges, hcodes, hg.total_eq,
    hg.total_le.trans, fun hfits => ?_, fun hnone => ?_, hkeeps, htoDo⟩
  · have hpack := hg.packable hfits
    have hgp : g.params.wellFormed = true := hg.keeps.hostState.params ▸ hp
    have hbits : g.packBits g.input = (List.range s.inLen.toNat).flatMap fun j => g.codeOf (s.bufferByte .inBuf j) := by
      rw [State.input, packBits_bufferBytes, hg.keeps.hostState.inLen, hg.bytes.bufferByte_eq]
    rw [stageOf, hg.completion_fits hfits]
    exact ⟨completed_complete _, hpack.packed_numBits hgp, hpack.packed_payLen hgp, (payloadBits_packed g).trans hbits,
      fun i => payBit_packed_padding g, fun a ha => (packed_keepsBytesOutside g a ha).trans (hg.bytes a)⟩
  · by_contra hlong
    rw [stageOf, hg.completion_overflow (Nat.not_le.mp hlong)] at hnone
    exact ErrorCode.noConfusion hnone

/-- Settles O37: COUNT's two errors end ENCODE as they end COUNT; past COUNT it ends as PACK does on an input whose
bytes all have codes. -/
theorem encodeErrorsAreThoseOfCountAndPack : Obligations.EncodeErrorsAreThoseOfCountAndPack := by
  intro s hp
  obtain ⟨hcountOver, hcountEmpty⟩ := countRefusesInOrder s
  refine ⟨fun hover => ?_, fun hzero => ?_, fun hpos hcap => ?_⟩
  · rw [exec_encode_of_count_err (countStage_overflow hover)]
    exact hcountOver hover
  · rw [exec_encode_of_count_err (countStage_empty hzero)]
    exact hcountEmpty hzero
  · obtain ⟨g, hg⟩ := exists_reachesPack hpos hcap
    obtain ⟨htree, hcodesValid, -⟩ := hg.tables.congr hg.completion_tables
    refine ⟨_, g.packTotal g.input, exec_eq .encode s, htree, hcodesValid, hg.total_eq, fun hfits => ?_,
      fun hlong => ?_⟩
    · rw [stageOf, hg.completion_fits hfits]
      exact completed_complete _
    · have hinCap : s.params.inCap ≤ 16777216 := (capacity_le hp .inBuf).2
      have htotal := hg.total_le
      rw [stageOf, hg.completion_overflow hlong]
      exact ⟨raised_raise _ _ _ _, (BitVec.toNat_ofNat _ _).trans (Nat.mod_eq_of_lt (by omega)), rfl, rfl,
        (hg.keeps.trans (packFail_completion_keepsAllBut _ _ g)).mono (by decide), hg.tables.toDo, hg.bytes⟩

end Sys2Proof.Machine
end

section
/-! SUPPORT. The interrupt output (60_exceptions.md R175, R176): what no command writes, whatever the parameters of the
block; a write dropped while BUSY = 1 (70_reset_and_hazards.md R196); and the level after each of them. -/

namespace Sys2Proof.Machine

/-! ### What no command writes -/

theorem KeepsHostState.trans {s t u : State} (h : KeepsHostState s t) (h' : KeepsHostState t u) :
    KeepsHostState s u where
  params := h'.params.trans h.params
  curCmd := h'.curCmd.trans h.curCmd
  ovr := h'.ovr.trans h.ovr
  doneIe := h'.doneIe.trans h.doneIe
  ovrIe := h'.ovrIe.trans h.ovrIe
  inLen := h'.inLen.trans h.inLen
  agenda := h'.agenda.trans h.agenda
  response := h'.response.trans h.response
  draws := h'.draws.trans h.draws
  epoch := h'.epoch.trans h.epoch

theorem packStage_keepsHostState (s : State) : KeepsHostState s (packStage s).state := by
  obtain ⟨bs, numBits, payLen, -, hst⟩ := packStage_frame s
  rw [hst]
  constructor <;> rfl

theorem unpackStage_keepsHostState (s : State) : KeepsHostState s (unpackStage s).state := by
  obtain ⟨bs, outLen, -, hst⟩ := unpackStage_frame s
  rw [hst]
  constructor <;> rfl

/-- The host's part of the state is kept also where the parameters are not legal and the buffers may overlap. -/
theorem stageOf_keepsHostState (i : Instr) (s : State) : KeepsHostState s (stageOf i s).state := by
  have hcount (u : State) := (countStage_stageFrame u).items.hostState
  have hbuild (u : State) := (buildStage_stageFrame u).items.hostState
  have hgencode (u : State) := (gencodeStage_stageFrame u).items.hostState
  cases i with
  | clear => exact (clearStage_keeps s).hostState
  | count => exact hcount s
  | build => exact hbuild s
  | gencode => exact hgencode s
  | pack => exact packStage_keepsHostState s
  | unpack => exact unpackStage_keepsHostState s
  | encode =>
    exact encodeStage_state (P := KeepsHostState s) (fun u hu => hu.trans (hcount u)) (fun u hu => hu.trans (hbuild u))
      (fun u hu => hu.trans (hgencode u)) (fun u hu => hu.trans (packStage_keepsHostState u)) s
      (StageFrame.refl [] s).items.hostState

theorem Result.completion_doneIe (r : Result) : r.completion.doneIe = r.state.doneIe := by cases r <;> rfl
theorem Result.completion_ovrIe (r : Result) : r.completion.ovrIe = r.state.ovrIe := by cases r <;> rfl

/-! ### A write dropped while BUSY = 1 -/

/-- Only a transaction that goes somewhere gets an OKAY response (20_memory.md R69, R70). -/
theorem exists_locateTx_of_read_okay {s : State} {addr : Offset} {size : Size}
    (h : (s.transact (.read addr size)).2.resp = .okay) : ∃ l, s.locateTx addr size = .at l := by
  rcases hl : s.locateTx addr size with l | e
  · exact ⟨l, rfl⟩
  · simp [(transact_error hl).1] at h

/-- A legal write while BUSY = 1 at neither the offset of STATUS nor that of IRQ_EN sets OVR and changes nothing else
(70_reset_and_hazards.md R196). -/
theorem transact_write_dropped {s : State} {addr : Offset} {size : Size} {l : Loc} (hbusy : s.seq = .busy)
    (hstatus : ¬(addr = 0x14 ∧ size = .four)) (hirqEn : ¬(addr = 0x18 ∧ size = .four))
    (hl : s.locateTx addr size = .at l) (v : Word) :
    s.transact (.write addr size v) = ({ s with ovr := true }, { resp := .okay, rdata := none }) := by
  have hne_status : l ≠ .reg .status := by
    rintro rfl
    exact hstatus (locateTx_word hl (by simp))
  have hne_irqEn : l ≠ .reg .irqEn := by
    rintro rfl
    exact hirqEn (locateTx_word hl (by simp))
  rw [transact_write hl, writeLoc_busy hbusy size v hne_status hne_irqEn]

/-! ### The level -/

/-- The level is a function of four bits, and of nothing else in the state (60_exceptions.md R175). -/
theorem irq_eq_true_iff (s : State) :
    s.irq = true ↔ (s.done = true ∧ s.doneIe = true) ∨ (s.ovr = true ∧ s.ovrIe = true) := by
  simp only [State.irq, Bool.or_eq_true, Bool.and_eq_true]

/-- A completion sets DONE and keeps OVR and the enables, so that DONE_IE alone raises the level. -/
theorem completion_irq (i : Instr) (s : State) :
    (stageOf i s).completion.irq = (s.doneIe || (s.ovr && s.ovrIe)) := by
  have hkeeps := stageOf_keepsHostState i s
  rw [State.irq, Result.completion_done, Result.completion_ovr, Result.completion_doneIe, Result.completion_ovrIe,
    hkeeps.doneIe, hkeeps.ovr, hkeeps.ovrIe, Bool.true_and]

/-- Acceptance clears DONE, whose interrupt it withdraws (30_encoding.md R88). -/
theorem acceptCommand_irq (v : Word) (s : State) : (acceptCommand v s).irq = (s.ovr && s.ovrIe) := by
  rw [State.irq, acceptCommand_done, acceptCommand_ovr, acceptCommand_ovrIe, Bool.false_and, Bool.false_or]

/-- Settles O13: a completion sets DONE, acceptance clears it, a dropped write sets OVR, and the writes of STATUS and
IRQ_EN change the flags and the enables, whether or not BUSY = 1. -/
theorem interruptLevel : Obligations.InterruptLevel := by
  refine ⟨irq_eq_true_iff, fun i s t hexec => ?_, acceptCommand_irq, fun v s => ?_, fun v s => ?_,
    fun s addr size v hbusy hstatus hirqEn hokay => ?_⟩
  · obtain rfl := (exec_next_iff i s t).mp hexec
    exact completion_irq i s
  · have hl : s.locateTx 0x14 .four = .at (.reg .status) := locateTx_status s
    rw [transact_write hl]
    rfl
  · have hl : s.locateTx 0x18 .four = .at (.reg .irqEn) := locateTx_reg s (r := 6) (by decide)
    rw [transact_write hl]
    rfl
  · obtain ⟨l, hl⟩ := exists_locateTx_of_read_okay hokay
    rw [transact_write_dropped hbusy hstatus hirqEn hl, State.irq, Bool.true_and]

end Sys2Proof.Machine
end

section
/-! SUPPORT. The host's transactions while a command runs (70_reset_and_hazards.md R196, R197): the dropped write, and
the bits of STATUS that are exact. -/

namespace Sys2Proof.Machine

/-- Settles O48: a read gets OKAY exactly where the access goes somewhere, and there the write is dropped; an access
that goes nowhere is an ERROR both ways. -/
theorem busyWritesAreDropped : Obligations.BusyWritesAreDropped := by
  intro s addr size v hbusy hstatus hirqEn
  refine ⟨fun hokay => ?_, fun herror => ?_⟩
  · obtain ⟨l, hl⟩ := exists_locateTx_of_read_okay hokay
    exact transact_write_dropped hbusy hstatus hirqEn hl v
  · rcases hl : s.locateTx addr size with l | e
    · simp [transact_read_at hl] at herror
    · exact (transact_error hl).2 v

/-! ### STATUS while a command runs -/

/-- A bit of a STATUS read that is not any value is the state's (70_reset_and_hazards.md R197). -/
theorem getLsbD_readData_status {s : State} {k : Nat}
    (hexact : (s.anyBitsNow .four (.reg .status)).getLsbD k = false) :
    (s.readData .four (.reg .status)).getLsbD k = s.statusWord.getLsbD k := by
  rw [getLsbD_readData, hexact]
  rfl

theorem anyBitsNow_status_command {s : State} {i : Instr} (hbusy : s.seq = .busy)
    (hdec : decode s.curCmd = .command i) :
    s.anyBitsNow .four (.reg .status) = anyBits (commandWrites i) .four (.reg .status) := by
  rw [State.anyBitsNow, if_pos ((isBusy_iff s).mpr hbusy), writeSet_command hdec]

/-- PACK, UNPACK and an illegal word write none of the validity flags (30_encoding.md R91). -/
theorem anyBitsNow_status_eq_zero {s : State} (hbusy : s.seq = .busy)
    (hdec : decode s.curCmd = .command .pack ∨ decode s.curCmd = .command .unpack ∨
      ∃ e, decode s.curCmd = .illegal e) : s.anyBitsNow .four (.reg .status) = 0 := by
  rcases hdec with hpack | hunpack | ⟨e, hillegal⟩
  · rw [anyBitsNow_status_command hbusy hpack]
    rfl
  · rw [anyBitsNow_status_command hbusy hunpack]
    rfl
  · rw [State.anyBitsNow, if_pos ((isBusy_iff s).mpr hbusy), writeSet_illegal hillegal, anyBits_nil]

/-- Of the validity flags GENCODE writes CODES_VALID alone (30_encoding.md R91). -/
theorem anyBitsNow_status_gencode {s : State} (hbusy : s.seq = .busy) (hdec : decode s.curCmd = .command .gencode) :
    s.anyBitsNow .four (.reg .status) = bitAt 4 true :=
  anyBitsNow_status_command hbusy hdec

/-- Without an error the bits of STATUS above the flags are 0 (10_state.md R27). -/
theorem getLsbD_statusWord_noError {s : State} (hcode : s.errCode = .none) (hop : s.errOp = 0) {k : Nat}
    (hk : 6 ≤ k) : s.statusWord.getLsbD k = false := by
  rw [getLsbD_statusWord, hcode, hop]
  simp [errorNumber, show k ≠ 0 ∧ k ≠ 1 ∧ k ≠ 2 ∧ k ≠ 3 ∧ k ≠ 4 ∧ k ≠ 5 by omega]

/-- No command writes ERR_INFO before its completion, so that a read of it is exact (30_encoding.md R91). -/
theorem transact_read_errInfo_busy {s : State} (hbusy : s.seq = .busy) :
    s.transact (.read 0x2C .four) = (s, { resp := .okay, rdata := some s.errInfo }) :=
  transact_read_exact (locateTx_reg s (r := 11) (by decide))
    (anyBitsNow_of_not_runs hbusy (.inl rfl) (by decide) (by simp [State.Runs, Loc.writers, regTable]))

/-- Settles O53: the invariant clears DONE and the error fields while BUSY = 1, and each bit named is exact. -/
theorem statusReadsWhileBusy : Obligations.StatusReadsWhileBusy := by
  intro s hinv hbusy
  obtain ⟨hdone, hcode, hop, hinfo⟩ := hinv.running hbusy
  have hstatus {k : Nat} (hk : k < 3 ∨ 6 ≤ k) := getLsbD_readData_status (anyBitsNow_status_exact s hk)
  have hread : (s.transact (.read 0x14 .four)).2 =
      { resp := .okay, rdata := some (s.readData .four (.reg .status)) } :=
    congrArg Prod.snd (transact_read_at (locateTx_status s))
  refine ⟨⟨_, hread, ?_, ?_, ?_, fun k hk => ?_, fun hdec => ?_, fun hdec => ?_⟩, ?_⟩
  · rw [getLsbD_readData_status_busy, decide_eq_true hbusy]
  · rw [hstatus (.inl (by decide))]
    exact (getLsbD_statusWord s 1).trans hdone
  · rw [hstatus (.inl (by decide))]
    exact getLsbD_statusWord s 2
  · rw [hstatus (.inr hk), getLsbD_statusWord_noError hcode hop hk]
  · have hexact (k : Nat) := getLsbD_readData_status (s := s) (k := k) <| by
      rw [anyBitsNow_status_eq_zero hbusy hdec, BitVec.ofNat_eq_ofNat, BitVec.getLsbD_zero]
    exact ⟨(hexact 3).trans (getLsbD_statusWord s 3), (hexact 4).trans (getLsbD_statusWord s 4),
      (hexact 5).trans (getLsbD_statusWord s 5)⟩
  · have hexact {k : Nat} (hk : k ≠ 4) := getLsbD_readData_status (s := s) (k := k) <| by
      rw [anyBitsNow_status_gencode hbusy hdec, getLsbD_bitAt (by decide), decide_eq_false hk, Bool.and_false]
    exact ⟨(hexact (by decide)).trans (getLsbD_statusWord s 3), (hexact (by decide)).trans (getLsbD_statusWord s 5)⟩
  · rw [transact_read_errInfo_busy hbusy, hinfo]

end Sys2Proof.Machine
end
